-- ==== Sys2Proof/Syntax.lean ====
section
/-!
DEFINITION. The 23 commands of the MASH2 CORE command set (spec 30_encoding.md R73), one constructor for each row of
spec/opcode_table.json. Scalars come from ARG0 and ARG1 (R75), so a command holds register numbers only.
-/

namespace Sys2Proof

/-- A BigInt register number: V0 to V15 (10_state.md R20; 30_encoding.md R71). -/
abbrev Reg := Fin 16

/-- A command (30_encoding.md R73), its fields in the order RD, RS1, RS2, RS3 (R78). -/
inductive Instr where
  /-- 0x01 (40_construction.md R90). -/
  | mov (rd rs1 : Reg)
  /-- 0x02 (R91): the native integer in ARG0. -/
  | fromint (rd : Reg)
  /-- 0x03 (R92): the text BUF[ARG0 .. ARG0+ARG1-1]. -/
  | fromhex (rd : Reg)
  /-- 0x04 (R94): to the text buffer at ARG0. -/
  | tohex (rs1 : Reg)
  /-- 0x08 (41_arithmetic.md R100, R101). -/
  | add (rd rs1 rs2 : Reg)
  /-- 0x09 (R102). -/
  | sub (rd rs1 rs2 : Reg)
  /-- 0x0A (R104). -/
  | mul (rd rs1 rs2 : Reg)
  /-- 0x0B (R105). -/
  | div (rd rs1 rs2 : Reg)
  /-- 0x0C (R106). -/
  | mod (rd rs1 rs2 : Reg)
  /-- 0x10 (42_bitwise_shift.md R120). -/
  | or (rd rs1 rs2 : Reg)
  /-- 0x11 (R121). -/
  | xor (rd rs1 rs2 : Reg)
  /-- 0x12 (R123). -/
  | shl (rd rs1 rs2 : Reg)
  /-- 0x13 (R124). -/
  | shr (rd rs1 rs2 : Reg)
  /-- 0x14 (R126). -/
  | bitlen (rs1 : Reg)
  /-- 0x15 (R129): the bit index in ARG0. -/
  | getbit (rs1 : Reg)
  /-- 0x16 (R130): the bit index in ARG0, the bit in ARG1[0]. -/
  | setbit (rd : Reg)
  /-- 0x18 (43_compare.md R140). -/
  | cmp (rs1 rs2 : Reg)
  /-- 0x20 (44_expmod_pow.md R145): base, exponent, modulus. -/
  | expmod (rd rs1 rs2 rs3 : Reg)
  /-- 0x21 (R149): base, exponent. -/
  | pow (rd rs1 rs2 : Reg)
  /-- 0x24 (45_primality.md R155): candidate, first witness register; the iteration count in ARG0. -/
  | isprime (rs1 rs2 : Reg)
  /-- 0x28 (46_digest.md R170): the two factors. -/
  | dsetup (rs1 rs2 : Reg)
  /-- 0x29 (R173): destination, message. -/
  | digest (rd rs1 : Reg)
  /-- 0x2A (R172). -/
  | dgetn (rd : Reg)
  deriving DecidableEq, Repr

end Sys2Proof
end

