-- ==== Sys2Proof/Word.lean ====
section
/-!
DEFINITION. The fixed-width words of the MASH2 CORE host port (spec 00_scope.md R11; 10_state.md R27).
BigInt values are not bit vectors: a held value is its integer (00_scope.md R15), so registers are `Int`.
-/

namespace Sys2Proof

/-- A 32-bit host-port word (10_state.md R27: "every register is 32 bits wide"). -/
abbrev Word := BitVec 32

/-- One byte of the text buffer (20_memory.md R54). -/
abbrev Byte := BitVec 8

/-- A byte offset in the host port's 2^17-byte aperture (20_memory.md R50, R51). -/
abbrev PortAddr := BitVec 17

/-- The four write byte strobes WSTRB[3:0] (20_memory.md R51). -/
abbrev Strobes := BitVec 4

end Sys2Proof
end

