-- ==== Sys2Proof/WellFormed.lean ====
section
/-!
DEFINITION. When the fields of a command word form a legal command (spec 30_encoding.md R70, R72, R73, R74). An `Instr`
is well formed by its type (a register number is a `Fin 16`); what can be ill formed is a word's fields. This check is
written apart from the decoder; that the decoder accepts exactly the words whose fields pass it is a claim.
-/

namespace Sys2Proof

/-- The fields of a command word (30_encoding.md R70), each as wide as R70 says. -/
structure Fields where
  /-- OP, bits [7:0]. -/
  op : BitVec 8
  /-- RD, bits [11:8]. -/
  rd : BitVec 4
  /-- RS1, bits [15:12]. -/
  rs1 : BitVec 4
  /-- RS2, bits [19:16]. -/
  rs2 : BitVec 4
  /-- RS3, bits [23:20]. -/
  rs3 : BitVec 4
  /-- Bits [31:24], must be 0. -/
  reserved : BitVec 8
  deriving DecidableEq, Repr

/-- Which register fields a command uses (the column "uses" of 30_encoding.md R73). -/
structure Uses where
  rd : Bool
  rs1 : Bool
  rs2 : Bool
  rs3 : Bool
  deriving DecidableEq, Repr

/-- The rows of 30_encoding.md R73: each assigned opcode with the register fields it uses. -/
def opcodeUses : List (BitVec 8 × Uses) :=
  [ (0x01, ⟨true, true, false, false⟩),   -- MOV
    (0x02, ⟨true, false, false, false⟩),  -- FROMINT
    (0x03, ⟨true, false, false, false⟩),  -- FROMHEX
    (0x04, ⟨false, true, false, false⟩),  -- TOHEX
    (0x08, ⟨true, true, true, false⟩),    -- ADD
    (0x09, ⟨true, true, true, false⟩),    -- SUB
    (0x0A, ⟨true, true, true, false⟩),    -- MUL
    (0x0B, ⟨true, true, true, false⟩),    -- DIV
    (0x0C, ⟨true, true, true, false⟩),    -- MOD
    (0x10, ⟨true, true, true, false⟩),    -- OR
    (0x11, ⟨true, true, true, false⟩),    -- XOR
    (0x12, ⟨true, true, true, false⟩),    -- SHL
    (0x13, ⟨true, true, true, false⟩),    -- SHR
    (0x14, ⟨false, true, false, false⟩),  -- BITLEN
    (0x15, ⟨false, true, false, false⟩),  -- GETBIT
    (0x16, ⟨true, false, false, false⟩),  -- SETBIT
    (0x18, ⟨false, true, true, false⟩),   -- CMP
    (0x20, ⟨true, true, true, true⟩),     -- EXPMOD
    (0x21, ⟨true, true, true, false⟩),    -- POW
    (0x24, ⟨false, true, true, false⟩),   -- ISPRIME
    (0x28, ⟨false, true, true, false⟩),   -- DSETUP
    (0x29, ⟨true, true, false, false⟩),   -- DIGEST
    (0x2A, ⟨true, false, false, false⟩) ] -- DGETN

/-- A field the command uses may hold any register number; one it does not use must be 0 (R72). -/
def fieldAllowed (used : Bool) (value : BitVec 4) : Bool := used || value == 0

/-- 30_encoding.md R72, R74: the opcode is assigned, and every unused field and the reserved field are 0. -/
def Fields.wellFormed (f : Fields) : Bool :=
  match opcodeUses.lookup f.op with
  | none => false
  | some u =>
    fieldAllowed u.rd f.rd && fieldAllowed u.rs1 f.rs1 && fieldAllowed u.rs2 f.rs2 && fieldAllowed u.rs3 f.rs3
      && f.reserved == 0

end Sys2Proof
end

