-- ==== Sys2Proof/Decode.lean ====
section
/-!
DEFINITION. The decoder of command words, total on every 32-bit word, and the encoder (spec 30_encoding.md R70 to R77).
-/

namespace Sys2Proof

/-- Why a word is ILLEGAL (30_encoding.md R74). Both reasons complete with ILLEGAL_COMMAND (60_exceptions.md R198). -/
inductive Illegal where
  /-- OP is not in the table of R73. -/
  | unassignedOpcode (op : BitVec 8)
  /-- A field that R72 requires to be 0 is not. -/
  | nonzeroField
  deriving DecidableEq, Repr

/-- The fields of a word at the places of 30_encoding.md R70. -/
def wordFields (w : Word) : Fields :=
  { op := w.extractLsb' 0 8
    rd := w.extractLsb' 8 4
    rs1 := w.extractLsb' 12 4
    rs2 := w.extractLsb' 16 4
    rs3 := w.extractLsb' 20 4
    reserved := w.extractLsb' 24 8 }

/-- The word with these fields (30_encoding.md R70). -/
def fieldsWord (f : Fields) : Word :=
  f.reserved ++ f.rs3 ++ f.rs2 ++ f.rs1 ++ f.rd ++ f.op

/-- A register field names register Vn (30_encoding.md R71). -/
def fieldReg (b : BitVec 4) : Reg := ⟨b.toNat, by have := b.isLt; omega⟩

/-- The register field that names a register. -/
def regField (r : Reg) : BitVec 4 := BitVec.ofNat 4 r.val

/-- The command, if the fields R72 requires to be 0 are 0. -/
def requireZero (zero : Bool) (i : Instr) : Except Illegal Instr :=
  if zero then .ok i else .error .nonzeroField

/-- The decoder on fields: one row of 30_encoding.md R73 per opcode, any other opcode illegal (R74). -/
def decodeFields (f : Fields) : Except Illegal Instr :=
  let rd := fieldReg f.rd
  let rs1 := fieldReg f.rs1
  let rs2 := fieldReg f.rs2
  let rs3 := fieldReg f.rs3
  let rdZ := f.rd == 0
  let rs1Z := f.rs1 == 0
  let rs2Z := f.rs2 == 0
  let rs3Z := f.rs3 == 0 && f.reserved == 0
  let resZ := f.reserved == 0
  if f.op = 0x01 then requireZero (rs2Z && rs3Z) (.mov rd rs1)
  else if f.op = 0x02 then requireZero (rs1Z && rs2Z && rs3Z) (.fromint rd)
  else if f.op = 0x03 then requireZero (rs1Z && rs2Z && rs3Z) (.fromhex rd)
  else if f.op = 0x04 then requireZero (rdZ && rs2Z && rs3Z) (.tohex rs1)
  else if f.op = 0x08 then requireZero rs3Z (.add rd rs1 rs2)
  else if f.op = 0x09 then requireZero rs3Z (.sub rd rs1 rs2)
  else if f.op = 0x0A then requireZero rs3Z (.mul rd rs1 rs2)
  else if f.op = 0x0B then requireZero rs3Z (.div rd rs1 rs2)
  else if f.op = 0x0C then requireZero rs3Z (.mod rd rs1 rs2)
  else if f.op = 0x10 then requireZero rs3Z (.or rd rs1 rs2)
  else if f.op = 0x11 then requireZero rs3Z (.xor rd rs1 rs2)
  else if f.op = 0x12 then requireZero rs3Z (.shl rd rs1 rs2)
  else if f.op = 0x13 then requireZero rs3Z (.shr rd rs1 rs2)
  else if f.op = 0x14 then requireZero (rdZ && rs2Z && rs3Z) (.bitlen rs1)
  else if f.op = 0x15 then requireZero (rdZ && rs2Z && rs3Z) (.getbit rs1)
  else if f.op = 0x16 then requireZero (rs1Z && rs2Z && rs3Z) (.setbit rd)
  else if f.op = 0x18 then requireZero (rdZ && rs3Z) (.cmp rs1 rs2)
  else if f.op = 0x20 then requireZero resZ (.expmod rd rs1 rs2 rs3)
  else if f.op = 0x21 then requireZero rs3Z (.pow rd rs1 rs2)
  else if f.op = 0x24 then requireZero (rdZ && rs3Z) (.isprime rs1 rs2)
  else if f.op = 0x28 then requireZero (rdZ && rs3Z) (.dsetup rs1 rs2)
  else if f.op = 0x29 then requireZero (rs2Z && rs3Z) (.digest rd rs1)
  else if f.op = 0x2A then requireZero (rs1Z && rs2Z && rs3Z) (.dgetn rd)
  else .error (.unassignedOpcode f.op)

/-- The decoder (30_encoding.md R77): total, every word decodes to exactly one command or is illegal. -/
def decode (w : Word) : Except Illegal Instr := decodeFields (wordFields w)

/-- The fields of a command with this opcode; a field the command does not use is 0 (30_encoding.md R72). -/
def commandFields (op : BitVec 8) (rd rs1 rs2 rs3 : Reg) : Fields :=
  { op := op, rd := regField rd, rs1 := regField rs1, rs2 := regField rs2, rs3 := regField rs3, reserved := 0 }

/-- The fields of a command (30_encoding.md R70, R73). -/
def instrFields (i : Instr) : Fields :=
  match i with
  | .mov rd rs1 => commandFields 0x01 rd rs1 0 0
  | .fromint rd => commandFields 0x02 rd 0 0 0
  | .fromhex rd => commandFields 0x03 rd 0 0 0
  | .tohex rs1 => commandFields 0x04 0 rs1 0 0
  | .add rd rs1 rs2 => commandFields 0x08 rd rs1 rs2 0
  | .sub rd rs1 rs2 => commandFields 0x09 rd rs1 rs2 0
  | .mul rd rs1 rs2 => commandFields 0x0A rd rs1 rs2 0
  | .div rd rs1 rs2 => commandFields 0x0B rd rs1 rs2 0
  | .mod rd rs1 rs2 => commandFields 0x0C rd rs1 rs2 0
  | .or rd rs1 rs2 => commandFields 0x10 rd rs1 rs2 0
  | .xor rd rs1 rs2 => commandFields 0x11 rd rs1 rs2 0
  | .shl rd rs1 rs2 => commandFields 0x12 rd rs1 rs2 0
  | .shr rd rs1 rs2 => commandFields 0x13 rd rs1 rs2 0
  | .bitlen rs1 => commandFields 0x14 0 rs1 0 0
  | .getbit rs1 => commandFields 0x15 0 rs1 0 0
  | .setbit rd => commandFields 0x16 rd 0 0 0
  | .cmp rs1 rs2 => commandFields 0x18 0 rs1 rs2 0
  | .expmod rd rs1 rs2 rs3 => commandFields 0x20 rd rs1 rs2 rs3
  | .pow rd rs1 rs2 => commandFields 0x21 rd rs1 rs2 0
  | .isprime rs1 rs2 => commandFields 0x24 0 rs1 rs2 0
  | .dsetup rs1 rs2 => commandFields 0x28 0 rs1 rs2 0
  | .digest rd rs1 => commandFields 0x29 rd rs1 0 0
  | .dgetn rd => commandFields 0x2A rd 0 0 0

/-- The encoder: the one word of a command (30_encoding.md R70). -/
def encode (i : Instr) : Word := fieldsWord (instrFields i)

/-- The match and mask columns of 30_encoding.md R73, in the table's order, with each row's mnemonic. -/
def opcodeRows : List (String × Word × Word) :=
  [ ("MOV", 0x00000001, 0xFFFF00FF),
    ("FROMINT", 0x00000002, 0xFFFFF0FF),
    ("FROMHEX", 0x00000003, 0xFFFFF0FF),
    ("TOHEX", 0x00000004, 0xFFFF0FFF),
    ("ADD", 0x00000008, 0xFFF000FF),
    ("SUB", 0x00000009, 0xFFF000FF),
    ("MUL", 0x0000000A, 0xFFF000FF),
    ("DIV", 0x0000000B, 0xFFF000FF),
    ("MOD", 0x0000000C, 0xFFF000FF),
    ("OR", 0x00000010, 0xFFF000FF),
    ("XOR", 0x00000011, 0xFFF000FF),
    ("SHL", 0x00000012, 0xFFF000FF),
    ("SHR", 0x00000013, 0xFFF000FF),
    ("BITLEN", 0x00000014, 0xFFFF0FFF),
    ("GETBIT", 0x00000015, 0xFFFF0FFF),
    ("SETBIT", 0x00000016, 0xFFFFF0FF),
    ("CMP", 0x00000018, 0xFFF00FFF),
    ("EXPMOD", 0x00000020, 0xFF0000FF),
    ("POW", 0x00000021, 0xFFF000FF),
    ("ISPRIME", 0x00000024, 0xFFF00FFF),
    ("DSETUP", 0x00000028, 0xFFF00FFF),
    ("DIGEST", 0x00000029, 0xFFFF00FF),
    ("DGETN", 0x0000002A, 0xFFFFF0FF) ]

/-- The mnemonic of a command (30_encoding.md R73). -/
def mnemonic (i : Instr) : String :=
  match i with
  | .mov _ _ => "MOV"
  | .fromint _ => "FROMINT"
  | .fromhex _ => "FROMHEX"
  | .tohex _ => "TOHEX"
  | .add _ _ _ => "ADD"
  | .sub _ _ _ => "SUB"
  | .mul _ _ _ => "MUL"
  | .div _ _ _ => "DIV"
  | .mod _ _ _ => "MOD"
  | .or _ _ _ => "OR"
  | .xor _ _ _ => "XOR"
  | .shl _ _ _ => "SHL"
  | .shr _ _ _ => "SHR"
  | .bitlen _ => "BITLEN"
  | .getbit _ => "GETBIT"
  | .setbit _ => "SETBIT"
  | .cmp _ _ => "CMP"
  | .expmod _ _ _ _ => "EXPMOD"
  | .pow _ _ _ => "POW"
  | .isprime _ _ => "ISPRIME"
  | .dsetup _ _ => "DSETUP"
  | .digest _ _ => "DIGEST"
  | .dgetn _ => "DGETN"

/-- What the decoder reads from an instruction whose bits are w, numbered as spec/opcode_table.json numbers them: one
32-bit word, bits above nbits 0 (30_encoding.md R70). -/
def decodeTableWord (nbits w : Nat) : Option Instr :=
  match decode (BitVec.ofNat 32 (w % 2 ^ nbits)) with
  | .ok i => some i
  | .error _ => none

end Sys2Proof
end

