-- ==== Sys2Proof/Config.lean ====
section
/-!
DEFINITION. What one build of the block fixes (spec 00_scope.md R7; 92_eei_decisions.md section 2) and the FREE
VALUES: the values the spec leaves open while the machine goes on. A free value is an opaque constant with no body,
so nothing proved about the model rests on a number chosen for it.
-/

namespace Sys2Proof

/-- CMP_NEG_MODE (00_scope.md R7; 43_compare.md R143): how CMP orders two negative values. -/
inductive CmpNegMode where
  /-- The source's sentence as written: by magnitude. The default. -/
  | literal
  /-- The integer order. -/
  | mathematical
  deriving DecidableEq, Repr

/-- The two bitwise operations, the first argument of the open function BITOP_NEG (92_eei_decisions.md section 2). -/
inductive BitOp where
  | or
  | xor
  deriving DecidableEq, Repr

/-- The parameters of one build (00_scope.md R7). They stand in State and no step writes them (log 2). -/
structure Config where
  /-- L = MAXLIMBS: most limbs a register value may have; legal 2 to 2^26. -/
  maxLimbs : Nat
  /-- B = BUFBYTES: bytes in the text buffer; legal 4 to 65536, a multiple of 4. -/
  bufBytes : Nat
  /-- BITLEN_ZERO: the bit length of zero, 0 or 1 (42_bitwise_shift.md R128). -/
  bitlenZero : Fin 2
  /-- CMP_NEG_MODE. -/
  cmpNegMode : CmpNegMode
  deriving DecidableEq, Repr

/-- The default build of 00_scope.md R7: L = 128, B = 2048, BITLEN_ZERO = 0, CMP_NEG_MODE = LITERAL. -/
def Config.default : Config :=
  { maxLimbs := 128, bufBytes := 2048, bitlenZero := 0, cmpNegMode := .literal }

/-- FREE VALUE. ADD_MIXED(a, b) (00_scope.md R8; 41_arithmetic.md R101): the sum ADD gives two nonzero operands of
different signs. A value of more than L limbs stands for the outcome CAPACITY. Log 8. -/
opaque Config.addMixed : Int → Int → Int

/-- FREE VALUE. BITOP_NEG(op, a, b) (00_scope.md R8; 42_bitwise_shift.md R120, R121): sign and magnitude of what OR and
XOR give when an operand is negative; the meaning takes the magnitude modulo 2^(32·L), the one bound the rules state.
Log 9. -/
opaque Config.bitopNeg : BitOp → Int → Int → Bool × Nat

/-- FREE VALUE. The byte at a buffer offset after the reset of a given count and before any write to it
(10_state.md R45; 70_reset_and_hazards.md R211; 93 U1). Log 6. -/
opaque Config.resetByte : Nat → Nat → Byte

/-- FREE VALUE. What the n-th read of RES or of a buffer word while BUSY = 1 returns (20_memory.md R63; 93 U2). Log 7. -/
opaque Config.busyRead : Nat → Word

end Sys2Proof
end

