-- ==== Sys2Proof/Machine/State.lean ====
section
/-!
DEFINITION. The state of the MASH2 CORE (spec 10_state.md; INVENTORY.md "State") as plain data, the state after reset
(10_state.md R45), and the reasons a step can stop.
-/

namespace Sys2Proof.Machine

/-- The error codes (60_exceptions.md R190): the only values ERRCODE ever reads (10_state.md R36). -/
inductive ErrCode where
  /-- 0x00: the last completion succeeded. -/
  | none
  /-- 0x01 -/
  | malformedInput
  /-- 0x02 -/
  | divisionByZero
  /-- 0x03 -/
  | outOfRange
  /-- 0x04 -/
  | messageTooLong
  /-- 0x10 -/
  | illegalCommand
  /-- 0x11 -/
  | capacity
  /-- 0x12 -/
  | bufferRange
  /-- 0x13 -/
  | digestNotConfigured
  /-- 0x14 -/
  | badModulus
  /-- 0x15 -/
  | badOperand
  /-- 0x16 -/
  | witnessRange
  deriving DecidableEq, Repr

/-- CTRL's stored bits (10_state.md R32). SRST is write-only and stores nothing; the other bits are reserved. -/
structure Ctrl where
  /-- Bit 0, IRQ_EN. -/
  irqEn : Bool
  /-- Bit 1, WSRC: 0 the witness port, 1 the register file. -/
  wsrc : Bool
  deriving DecidableEq, Repr

/-- STATUS's stored fields (10_state.md R33). BUSY and WREQ have their one home in `State.seq` (R34, R40); the other bits
are reserved and read 0. -/
structure Status where
  /-- Bit 1, DONE (R35). -/
  done : Bool
  /-- Bit 2, ERR (R36). -/
  err : Bool
  /-- Bit 3, LT (R37). -/
  lt : Bool
  /-- Bit 4, EQ (R37). -/
  eq : Bool
  /-- Bit 5, GT (R37). -/
  gt : Bool
  /-- Bit 6, UNDEF (R38). -/
  undef : Bool
  /-- Bit 7, OVR (R39). -/
  ovr : Bool
  /-- Bits [23:16], ERRCODE (R36). -/
  errcode : ErrCode
  deriving DecidableEq, Repr

/-- The digest context (10_state.md R25). -/
structure DigestContext where
  /-- DCTX.VALID. -/
  valid : Bool
  /-- DCTX.N. -/
  n : Int
  deriving DecidableEq, Repr

/-- The loop state of the running command's sequencer (10_state.md R43). The command word is in CMD and the operand values
are in the registers, which keep them for the whole command (20_memory.md R62; log 4). -/
inductive Sequencer where
  /-- The command is issued and no iteration of a loop is done. -/
  | start
  /-- EXPMOD (44_expmod_pow.md R146): running result, base, exponent. -/
  | expmod (r b : Int) (e : Nat)
  /-- POW (R149): running result, base, exponent. -/
  | pow (r b : Int) (e : Nat)
  /-- DIGEST (46_digest.md R173): rounds done, accumulator. -/
  | digest (i : Nat) (h : Nat)
  /-- ISPRIME (45_primality.md R155): about to start iteration i. -/
  | iterate (i : Nat)
  /-- ISPRIME: the request (i, bound) is outstanding on the witness port (R157): WREQ = 1, WBOUND = bound. -/
  | waiting (i : Nat) (bound : Int)
  /-- ISPRIME: the witness of iteration i is taken. -/
  | answered (i : Nat) (a : Int)
  /-- ISPRIME: the squaring loop of iteration i (R162): value x, tracker t. -/
  | squaring (i : Nat) (x : Int) (t : Nat)
  deriving DecidableEq, Repr

/-- One event of the total order of steps (20_memory.md R64; 60_exceptions.md R201): what the outside does, or a turn of
the block. The list of events to come is in State, so every interleaving is some state (log 1, log 5). -/
inductive Event where
  /-- A host read of the word at a byte offset of the aperture (20_memory.md R51). -/
  | read (addr : PortAddr)
  /-- A host write with byte strobes (20_memory.md R51, R55, R59). -/
  | write (addr : PortAddr) (data : Word) (strb : Strobes)
  /-- Power-on reset (70_reset_and_hazards.md R210). -/
  | powerOn
  /-- The witness source presents WVALID with WDATA = a (45_primality.md R157). -/
  | answer (a : Int)
  /-- The block does one iteration of the running command's loop, without completing. -/
  | work
  /-- The block runs its command on, to the completion or to a witness request. -/
  | finish
  deriving DecidableEq, Repr

/-- The text buffer's written bytes, as (buffer offset, byte) in strictly rising offset order. An offset not listed holds
no byte written since the last reset. -/
abbrev Memory := List Host.Cell

/-- The whole state. -/
structure State where
  /-- The build's parameters (00_scope.md R7). No step writes them. -/
  cfg : Config
  /-- V0 to V15 (10_state.md R20), each value as its integer (00_scope.md R15). -/
  v : Vector Int 16
  /-- The digest context (10_state.md R25). -/
  dctx : DigestContext
  /-- CTRL (10_state.md R32). -/
  ctrl : Ctrl
  /-- STATUS (10_state.md R33), without BUSY and WREQ. -/
  status : Status
  /-- CMD: the command word last captured (10_state.md R31). -/
  cmd : Word
  /-- ARG0 (10_state.md R28). -/
  arg0 : Word
  /-- ARG1 (10_state.md R28). -/
  arg1 : Word
  /-- RES (10_state.md R29). -/
  res : Word
  /-- BUF (20_memory.md R54, R56): the bytes written since the last reset. -/
  buf : Memory
  /-- The running command's sequencer; none when idle. BUSY = 1 exactly when there is one (10_state.md R34, R43). -/
  seq : Option Sequencer
  /-- The host port's read data path (20_memory.md R51): the word the last read returned. -/
  rdata : Word
  /-- The model's own: the events to come. -/
  inputs : List Event
  /-- The model's own: how many resets there have been (the argument of the free value `Config.resetByte`). -/
  epoch : Nat
  /-- The model's own: how many busy reads have been answered (the argument of the free value `Config.busyRead`). -/
  draws : Nat
  deriving DecidableEq, Repr

/-- No step faults: the host port has no error response (20_memory.md R51) and a command's error is a completion
(60_exceptions.md R194). So there is no constructor. -/
inductive Fault where
  deriving DecidableEq, Repr

/-- Why a step has no meaning. -/
inductive Refusal where
  /-- Raised by `exec` alone, for a command without a meaning; every command has one, so no step raises it. Safe. -/
  | notModelled (mnemonic : String)
  deriving DecidableEq, Repr

/-- The state after a reset of a default build (10_state.md R45; 70_reset_and_hazards.md R211). The buffer lists nothing:
each byte reads as a free value (log 6). `rdata`, `inputs`, `epoch` and `draws` are the model's (log 1, 6, 7, 13). -/
def State.reset : State :=
  { cfg := Config.default
    v := Vector.replicate 16 0
    dctx := { valid := false, n := 0 }
    ctrl := { irqEn := false, wsrc := false }
    status :=
      { done := false, err := false, lt := false, eq := false, gt := false, undef := false, ovr := false
        errcode := .none }
    cmd := 0
    arg0 := 0
    arg1 := 0
    res := 0
    buf := []
    seq := none
    rdata := 0
    inputs := []
    epoch := 0
    draws := 0 }

end Sys2Proof.Machine
end

