-- ==== Sys2Proof/Machine/Ops.lean ====
section
/-!
DEFINITION. The named operations every meaning is written over: BigInt values (spec 00_scope.md R12 to R16), the text
buffer (20_memory.md), the register file, the issue of a command and its two completions (60_exceptions.md R193, R194),
and reset (70_reset_and_hazards.md R211).
-/

namespace Sys2Proof.Machine

/-! ## BigInt values -/

/-- bitlen(m): the position of the highest set bit plus one, and 0 for 0 (00_scope.md R15). -/
def bitlen (m : Nat) : Nat := if m = 0 then 0 else m.log2 + 1

/-- mag(v) (00_scope.md R16). -/
def mag (v : Int) : Nat := v.natAbs

/-- sgn(v): true for a negative value (00_scope.md R16). -/
def sgn (v : Int) : Bool := decide (v < 0)

/-- Norm(s, m) as an integer (00_scope.md R14, R16): the value of sign s and magnitude m; zero has no sign. -/
def norm (s : Bool) (m : Nat) : Int := if s then -(m : Int) else (m : Int)

/-- limbs(v) (00_scope.md R15): 1 for zero, else ceil(bitlen(|v|) / 32). -/
def limbs (v : Int) : Nat := if v = 0 then 1 else (bitlen (mag v) + 31) / 32

/-- Limb i of v: the base-2^32 digit i of its magnitude (00_scope.md R12, R14). -/
def limb (v : Int) (i : Nat) : Nat := mag v / 2 ^ (32 * i) % 2 ^ 32

/-- ModOp(p, M) for M ≠ 0 (44_expmod_pow.md R146; 41_arithmetic.md R106): the remainder of the magnitudes with the
dividend's sign. -/
def modOp (p m : Int) : Int := norm (sgn p) (mag p % mag m)

/-! ## The text buffer -/

/-- The byte listed at an offset, if there is one. -/
def Memory.get? (m : Memory) (a : Nat) : Option Byte :=
  match m with
  | [] => none
  | (x, b) :: rest => if x = a then some b else Memory.get? rest a

/-- The buffer with one byte written. -/
def Memory.set (m : Memory) (a : Nat) (v : Byte) : Memory :=
  match m with
  | [] => [(a, v)]
  | (x, b) :: rest =>
    if a < x then (a, v) :: (x, b) :: rest
    else if a = x then (a, v) :: rest
    else (x, b) :: Memory.set rest a v

/-- MemWrite (00_scope.md R16): bytes written in ascending offset order from an offset on. -/
def Memory.setBytes (m : Memory) (a : Nat) (bytes : List Byte) : Memory :=
  match bytes with
  | [] => m
  | b :: bs => Memory.setBytes (Memory.set m a b) (a + 1) bs

/-- The canonical form: offsets strictly rising. An unlisted offset holds no written byte, so no entry can equal it. -/
abbrev Memory.wf (m : Memory) : Prop := List.Pairwise (fun c d => c.1 < d.1) m

/-- The byte of BUF at a buffer offset: the byte last written there, else the free value of this reset
(20_memory.md R56; 10_state.md R45; log 6). -/
def State.bufByte (s : State) (a : Nat) : Byte :=
  match Memory.get? s.buf a with
  | some b => b
  | none => Config.resetByte s.epoch a

/-- MemRead(a, n) (00_scope.md R16): n bytes of BUF from offset a on, in ascending offset order. -/
def State.bufBytesFrom (s : State) (a n : Nat) : List Byte :=
  (List.range n).map (fun j => s.bufByte (a + j))

/-! ## Views: BUSY, WREQ, WBOUND and IRQ -/

/-- STATUS.BUSY (10_state.md R34). -/
def State.busy (s : State) : Bool := s.seq.isSome

/-- WBOUND while a request is outstanding (45_primality.md R157). -/
def State.wbound (s : State) : Option Int :=
  match s.seq with
  | some (.waiting _ bound) => some bound
  | _ => none

/-- STATUS.WREQ, the WREQ signal (10_state.md R40; 45_primality.md R157). -/
def State.wreq (s : State) : Bool := s.wbound.isSome

/-- The IRQ output (10_state.md R44; 60_exceptions.md R199): CTRL.IRQ_EN AND STATUS.DONE. -/
def State.irq (s : State) : Bool := s.ctrl.irqEn && s.status.done

/-! ## Registers and results -/

/-- x[i] (00_scope.md R16). No register is hardwired (10_state.md R20). -/
def State.reg (s : State) (r : Reg) : Int := s.v[r]

/-- x[i] <- v (00_scope.md R16). -/
def State.writeReg (s : State) (r : Reg) (x : Int) : State := { s with v := s.v.set r x }

/-- RES <- w (10_state.md R29). -/
def State.writeRes (s : State) (w : Word) : State := { s with res := w }

/-- A value fits a register: at most L limbs (10_state.md R22). -/
def State.fits (s : State) (x : Int) : Bool := decide (limbs x ≤ s.cfg.maxLimbs)

/-! ## Issue and completion -/

/-- The issue of a command (60_exceptions.md R193; 10_state.md R31, R35): CMD captures the word, BUSY = 1, DONE = 0. -/
def State.issue (s : State) (w : Word) : State :=
  { s with cmd := w, seq := some .start, status := { s.status with done := false } }

/-- complete(UNDEF = u), the successful completion's STATUS (60_exceptions.md R193): BUSY = 0, DONE = 1, ERR = 0,
ERRCODE = 0, UNDEF = u. The sequencer's state does not survive it (10_state.md R43). -/
def State.complete (s : State) (u : Bool) : State :=
  { s with seq := none, status := { s.status with done := true, err := false, undef := u, errcode := .none } }

/-- raise Error(CODE), the error completion, the block's one trap entry (60_exceptions.md R194): BUSY = 0, DONE = 1,
ERR = 1, ERRCODE = the code, UNDEF = 0, and nothing else. There is no return from it (R196). -/
def State.fail (s : State) (e : ErrCode) : State :=
  { s with seq := none, status := { s.status with done := true, err := true, undef := false, errcode := e } }

/-- x[rd] <- v ; complete(UNDEF = u). -/
def State.finishReg (s : State) (rd : Reg) (x : Int) (u : Bool) : State := (s.writeReg rd x).complete u

/-- x[rd] <- Capacity(v) ; complete(UNDEF = u) (00_scope.md R16; 10_state.md R22). -/
def State.finishCapacity (s : State) (rd : Reg) (x : Int) (u : Bool) : State :=
  if s.fits x then s.finishReg rd x u else s.fail .capacity

/-- RES <- w ; complete(). -/
def State.finishRes (s : State) (w : Word) : State := (s.writeRes w).complete false

/-! ## Reset -/

/-- The effect of either reset (70_reset_and_hazards.md R210 to R213; 10_state.md R45): every piece of the block's state
at its reset value, and the buffer's bytes drawn anew. The parameters, the events to come and the word last read are not
the block's state to reset (log 13). -/
def State.resetBlock (s : State) : State :=
  { State.reset with
    cfg := s.cfg, rdata := s.rdata, inputs := s.inputs, epoch := s.epoch + 1, draws := s.draws }

end Sys2Proof.Machine
end

