-- ==== Sys2Proof/Machine/Arith.lean ====
section
/-!
DEFINITION. Arithmetic (spec 41_arithmetic.md): ADD, SUB, MUL, DIV, MOD.
-/

namespace Sys2Proof.Machine

/-- Whether ADD takes the ADD_MIXED path: both operands nonzero and of different signs (41_arithmetic.md R101). -/
def addIsMixed (a b : Int) : Bool := decide (b ≠ 0) && decide (a ≠ 0) && (sgn a != sgn b)

/-- ADD's value (41_arithmetic.md R100, R101): off the ADD_MIXED path exact; on it the open function. -/
def addValue (a b : Int) : Int :=
  if b = 0 then a
  else if a = 0 then b
  else if sgn a = sgn b then norm (sgn a) (mag a + mag b)
  else Config.addMixed a b

/-- ADD (41_arithmetic.md R100, R101). -/
def execAdd (rd rs1 rs2 : Reg) (s : State) : Host.Outcome State Fault Refusal :=
  .next (s.finishCapacity rd (addValue (s.reg rs1) (s.reg rs2)) (addIsMixed (s.reg rs1) (s.reg rs2)))

/-- SUB's four branches (41_arithmetic.md R102). -/
def subValue (a b : Int) : Int :=
  if a = b then 0
  else if sgn a ≠ sgn b then norm (sgn a) (mag a + mag b)
  else if mag a > mag b then norm (sgn a) (mag a - mag b)
  else norm (!sgn a) (mag b - mag a)

/-- SUB (41_arithmetic.md R102, R103). -/
def execSub (rd rs1 rs2 : Reg) (s : State) : Host.Outcome State Fault Refusal :=
  .next (s.finishCapacity rd (subValue (s.reg rs1) (s.reg rs2)) false)

/-- MUL (41_arithmetic.md R104). -/
def execMul (rd rs1 rs2 : Reg) (s : State) : Host.Outcome State Fault Refusal :=
  let a := s.reg rs1
  let b := s.reg rs2
  .next (s.finishCapacity rd (norm (sgn a ^^ sgn b) (mag a * mag b)) false)

/-- DIV (41_arithmetic.md R105). -/
def execDiv (rd rs1 rs2 : Reg) (s : State) : Host.Outcome State Fault Refusal :=
  let a := s.reg rs1
  let b := s.reg rs2
  if b = 0 then .next (s.fail .divisionByZero)
  else .next (s.finishReg rd (norm (sgn a ^^ sgn b) (mag a / mag b)) false)

/-- MOD (41_arithmetic.md R106). -/
def execMod (rd rs1 rs2 : Reg) (s : State) : Host.Outcome State Fault Refusal :=
  let b := s.reg rs2
  if b = 0 then .next (s.fail .divisionByZero)
  else .next (s.finishReg rd (modOp (s.reg rs1) b) false)

end Sys2Proof.Machine
end

