-- ==== Sys2Proof/Machine/Operands.lean ====
section
/-!
DEFINITION. Every operand form of the command set (spec 30_encoding.md R75, R76): BigInt registers are read by
`State.reg` (Ops.lean); here the scalars of ARG0 and ARG1 and the hex text of the buffer (40_construction.md R92 to R95).
-/

namespace Sys2Proof.Machine

/-! ## Scalars -/

/-- sext_32(ARG0): the native integer of FROMINT (30_encoding.md R75). -/
def State.arg0Int (s : State) : Int := s.arg0.toInt

/-- zext_32(ARG0): a buffer offset, a bit index or an iteration count (30_encoding.md R75). -/
def State.arg0Nat (s : State) : Nat := s.arg0.toNat

/-- zext_32(ARG1): the text length of FROMHEX (30_encoding.md R75). -/
def State.arg1Nat (s : State) : Nat := s.arg1.toNat

/-- ARG1[0]: the bit value of SETBIT (30_encoding.md R75). -/
def State.arg1Bit (s : State) : Bool := s.arg1.getLsbD 0

/-! ## Hex text -/

/-- The byte of '-' (40_construction.md R92). -/
def minusByte : Byte := 0x2D

/-- hexval (40_construction.md R92): '0'-'9', 'A'-'F' and 'a'-'f'; none for any other byte. -/
def hexVal (c : Byte) : Option Nat :=
  if 0x30 ≤ c.toNat ∧ c.toNat ≤ 0x39 then some (c.toNat - 0x30)
  else if 0x41 ≤ c.toNat ∧ c.toNat ≤ 0x46 then some (c.toNat - 0x37)
  else if 0x61 ≤ c.toNat ∧ c.toNat ≤ 0x66 then some (c.toNat - 0x57)
  else none

/-- The magnitude of hex digits, most significant first, after digits of value acc; none at a byte that is no digit. -/
def parseDigits (acc : Nat) (t : List Byte) : Option Nat :=
  match t with
  | [] => some acc
  | c :: cs =>
    match hexVal c with
    | none => none
    | some d => parseDigits (16 * acc + d) cs

/-- The digits of a text, at least one (40_construction.md R92, R93 (c)). -/
def parseMagnitude (d : List Byte) : Option Nat :=
  match d with
  | [] => none
  | c :: cs => parseDigits 0 (c :: cs)

/-- The value of a hex text, none where it is MALFORMED_INPUT (40_construction.md R92, R93). -/
def parseHex (t : List Byte) : Option Int :=
  match t with
  | [] => none
  | c :: cs =>
    if c = minusByte then (parseMagnitude cs).map (norm true)
    else (parseMagnitude (c :: cs)).map (norm false)

/-- The digit byte of a value below 16, lowercase (40_construction.md R95). -/
def hexChar (d : Nat) : Byte := if d < 10 then BitVec.ofNat 8 (0x30 + d) else BitVec.ofNat 8 (0x57 + d)

/-- How many base-16 digits a magnitude is written with: no leading zero, and one digit for 0 (40_construction.md R95). -/
def hexLength (m : Nat) : Nat := if m = 0 then 1 else (bitlen m + 3) / 4

/-- The base-16 digits of a magnitude, most significant first (40_construction.md R95). -/
def hexDigits (m : Nat) : List Byte :=
  (List.range (hexLength m)).reverse.map (fun j => hexChar (m / 16 ^ j % 16))

/-- HexString(v) (40_construction.md R95). -/
def hexString (x : Int) : List Byte :=
  if sgn x then minusByte :: hexDigits (mag x) else hexDigits (mag x)

end Sys2Proof.Machine
end

