-- ==== Sys2Proof/Machine/Bitwise.lean ====
section
/-!
DEFINITION. Bitwise, shift and bit-access operations (spec 42_bitwise_shift.md): OR, XOR, SHL, SHR, BITLEN, GETBIT,
SETBIT. All act on magnitudes.
-/

namespace Sys2Proof.Machine

/-- BITOP_NEG(op, a, b) (42_bitwise_shift.md R120, R121; log 9): the open function, a value of at most L limbs. -/
def bitopNegValue (maxLimbs : Nat) (op : BitOp) (a b : Int) : Int :=
  norm (Config.bitopNeg op a b).1 ((Config.bitopNeg op a b).2 % 2 ^ (32 * maxLimbs))

/-- OR (42_bitwise_shift.md R120, R122). -/
def execOr (rd rs1 rs2 : Reg) (s : State) : Host.Outcome State Fault Refusal :=
  let a := s.reg rs1
  let b := s.reg rs2
  if sgn a || sgn b then .next (s.finishReg rd (bitopNegValue s.cfg.maxLimbs .or a b) true)
  else .next (s.finishReg rd (norm false (mag a ||| mag b)) false)

/-- XOR (42_bitwise_shift.md R121, R122). -/
def execXor (rd rs1 rs2 : Reg) (s : State) : Host.Outcome State Fault Refusal :=
  let a := s.reg rs1
  let b := s.reg rs2
  if sgn a || sgn b then .next (s.finishReg rd (bitopNegValue s.cfg.maxLimbs .xor a b) true)
  else .next (s.finishReg rd (norm false (mag a ^^^ mag b)) false)

/-- SHL (42_bitwise_shift.md R123, R125). A result of bitlen(mag a) + c bits fits exactly when that is at most 32·L, so
CAPACITY is judged before the power is formed, and a huge count costs nothing. -/
def execShl (rd rs1 rs2 : Reg) (s : State) : Host.Outcome State Fault Refusal :=
  let a := s.reg rs1
  let c := s.reg rs2
  if c ≤ 0 then .next (s.finishCapacity rd a false)
  else if a = 0 then .next (s.finishCapacity rd 0 false)
  else if bitlen (mag a) + c.toNat ≤ 32 * s.cfg.maxLimbs then
    .next (s.finishReg rd (norm (sgn a) (mag a * 2 ^ c.toNat)) false)
  else .next (s.fail .capacity)

/-- SHR (42_bitwise_shift.md R124, R125). A count of at least bitlen(mag a) gives 0 (R124's corner case), so a huge count
forms no power. -/
def execShr (rd rs1 rs2 : Reg) (s : State) : Host.Outcome State Fault Refusal :=
  let a := s.reg rs1
  let c := s.reg rs2
  if c ≤ 0 then .next (s.finishReg rd a false)
  else if bitlen (mag a) ≤ c.toNat then .next (s.finishReg rd 0 false)
  else .next (s.finishReg rd (norm (sgn a) (mag a / 2 ^ c.toNat)) false)

/-- The bit length of a value as the block gives it: BITLEN_ZERO for 0 (42_bitwise_shift.md R126, R128). -/
def bitLength (cfg : Config) (x : Int) : Nat := if x = 0 then cfg.bitlenZero.val else bitlen (mag x)

/-- BITLEN (42_bitwise_shift.md R126 to R128). -/
def execBitlen (rs1 : Reg) (s : State) : Host.Outcome State Fault Refusal :=
  .next (s.finishRes (BitVec.ofNat 32 (bitLength s.cfg (s.reg rs1))))

/-- GETBIT (42_bitwise_shift.md R129, R131). -/
def execGetbit (rs1 : Reg) (s : State) : Host.Outcome State Fault Refusal :=
  let a := s.reg rs1
  let i := s.arg0Nat
  if i ≥ 32 * limbs a then .next (s.fail .outOfRange)
  else .next (s.finishRes (BitVec.ofNat 32 (mag a / 2 ^ i % 2)))

/-- m with bit i set to v: the bits above i, the bit, the bits below i. -/
def setBitTo (m i : Nat) (v : Bool) : Nat := m / 2 ^ (i + 1) * 2 ^ (i + 1) + v.toNat * 2 ^ i + m % 2 ^ i

/-- SETBIT (42_bitwise_shift.md R130, R131). -/
def execSetbit (rd : Reg) (s : State) : Host.Outcome State Fault Refusal :=
  let a := s.reg rd
  let i := s.arg0Nat
  if i ≥ 32 * limbs a then .next (s.fail .outOfRange)
  else .next (s.finishReg rd (norm (sgn a) (setBitTo (mag a) i s.arg1Bit)) false)

end Sys2Proof.Machine
end

