-- ==== Sys2Proof/Machine/Flags.lean ====
section
/-!
DEFINITION. The condition codes and the words of STATUS and CTRL: the order CMP computes (spec 43_compare.md R141), its
RES and LT/EQ/GT (R140), and how the fields stand in the 32-bit words (10_state.md R32, R33).
-/

namespace Sys2Proof.Machine

/-! ## Order -/

/-- The first unequal pair of limbs from index k - 1 down to 0 decides; 0 if every pair is equal (43_compare.md R141). -/
def compareLimbs (a b : Int) (k : Nat) : Int :=
  match k with
  | 0 => 0
  | j + 1 =>
    if limb a j > limb b j then 1
    else if limb a j < limb b j then -1
    else compareLimbs a b j

/-- Order on the limb sequences: length first, then the limbs (43_compare.md R141). -/
def compareMagnitudes (a b : Int) : Int :=
  if limbs a ≠ limbs b then (if limbs a > limbs b then 1 else -1) else compareLimbs a b (limbs a)

/-- Order(a, b) (43_compare.md R141): -1, 0 or +1, under CMP_NEG_MODE. -/
def order (mode : CmpNegMode) (a b : Int) : Int :=
  if sgn a ≠ sgn b then (if sgn a then -1 else 1)
  else if sgn a ∧ mode = .mathematical then -(compareMagnitudes a b)
  else compareMagnitudes a b

/-- CMP's RES (43_compare.md R140): 0xFFFFFFFF, 0 or 1. -/
def orderWord (c : Int) : Word := BitVec.ofInt 32 c

/-- CMP's flags (43_compare.md R140; 10_state.md R37): exactly one of LT, EQ, GT. -/
def State.writeOrder (s : State) (c : Int) : State :=
  { s with status := { s.status with lt := decide (c = -1), eq := decide (c = 0), gt := decide (c = 1) } }

/-! ## The words -/

/-- The code of an error (60_exceptions.md R190). -/
def errByte (e : ErrCode) : BitVec 8 :=
  match e with
  | .none => 0x00
  | .malformedInput => 0x01
  | .divisionByZero => 0x02
  | .outOfRange => 0x03
  | .messageTooLong => 0x04
  | .illegalCommand => 0x10
  | .capacity => 0x11
  | .bufferRange => 0x12
  | .digestNotConfigured => 0x13
  | .badModulus => 0x14
  | .badOperand => 0x15
  | .witnessRange => 0x16

/-- One bit as a word. -/
def bitWord (b : Bool) : BitVec 1 := BitVec.ofBool b

/-- STATUS as read (10_state.md R33): reserved bits 0, ERRCODE in [23:16], WREQ, OVR, UNDEF, GT, EQ, LT, ERR, DONE, BUSY
in [8:0]. -/
def State.statusWord (s : State) : Word :=
  (0 : BitVec 8) ++ errByte s.status.errcode ++ (0 : BitVec 7) ++ bitWord s.wreq ++ bitWord s.status.ovr
    ++ bitWord s.status.undef ++ bitWord s.status.gt ++ bitWord s.status.eq ++ bitWord s.status.lt
    ++ bitWord s.status.err ++ bitWord s.status.done ++ bitWord s.busy

/-- CTRL as read (10_state.md R32): WSRC in bit 1, IRQ_EN in bit 0, SRST and the reserved bits 0. -/
def State.ctrlWord (s : State) : Word :=
  (0 : BitVec 30) ++ bitWord s.ctrl.wsrc ++ bitWord s.ctrl.irqEn

end Sys2Proof.Machine
end

