-- ==== Sys2Proof/Machine/Compare.lean ====
section
/-!
DEFINITION. Comparison (spec 43_compare.md): CMP.
-/

namespace Sys2Proof.Machine

/-- CMP (43_compare.md R140, R141). -/
def execCmp (rs1 rs2 : Reg) (s : State) : Host.Outcome State Fault Refusal :=
  let c := order s.cfg.cmpNegMode (s.reg rs1) (s.reg rs2)
  .next ((s.writeOrder c).finishRes (orderWord c))

end Sys2Proof.Machine
end

