-- ==== Sys2Proof/Machine/Construct.lean ====
section
/-!
DEFINITION. Construction, copy and hex conversion (spec 40_construction.md): MOV, FROMINT, FROMHEX, TOHEX.
-/

namespace Sys2Proof.Machine

/-- MOV (40_construction.md R90). -/
def execMov (rd rs1 : Reg) (s : State) : Host.Outcome State Fault Refusal :=
  .next (s.finishReg rd (s.reg rs1) false)

/-- FROMINT (40_construction.md R91). -/
def execFromint (rd : Reg) (s : State) : Host.Outcome State Fault Refusal :=
  .next (s.finishReg rd s.arg0Int false)

/-- FROMHEX (40_construction.md R92, R93). -/
def execFromhex (rd : Reg) (s : State) : Host.Outcome State Fault Refusal :=
  if s.arg0Nat + s.arg1Nat > s.cfg.bufBytes then .next (s.fail .bufferRange)
  else
    match parseHex (s.bufBytesFrom s.arg0Nat s.arg1Nat) with
    | none => .next (s.fail .malformedInput)
    | some x => .next (s.finishCapacity rd x false)

/-- TOHEX (40_construction.md R94, R95). -/
def execTohex (rs1 : Reg) (s : State) : Host.Outcome State Fault Refusal :=
  let t := hexString (s.reg rs1)
  if s.arg0Nat + t.length > s.cfg.bufBytes then .next (s.fail .bufferRange)
  else .next ({ s with buf := Memory.setBytes s.buf s.arg0Nat t }.finishRes (BitVec.ofNat 32 t.length))

end Sys2Proof.Machine
end

