-- ==== Sys2Proof/Machine/Power.lean ====
section
/-!
DEFINITION. Modular exponentiation and plain power (spec 44_expmod_pow.md): EXPMOD, POW. The exponent is a natural
number: the loops run "while exponent > 0", so a negative exponent runs them as 0 does (R147, R150). A loop's fuel is the
bit length of its exponent, the number of iterations it takes (70_reset_and_hazards.md R225).
-/

namespace Sys2Proof.Machine

/-- The loop of ExpMod for M ≠ 0 (44_expmod_pow.md R146). -/
def expModLoop (m : Int) (fuel : Nat) (r b : Int) (e : Nat) : Int :=
  match fuel with
  | 0 => r
  | f + 1 =>
    if e = 0 then r
    else expModLoop m f (if e % 2 = 1 then modOp (r * b) m else r) (modOp (b * b) m) (e / 2)

/-- ExpMod(B, E, M) where it raises no error: E ≤ 0 or M ≠ 0 (44_expmod_pow.md R146). -/
def expMod (b : Int) (e : Nat) (m : Int) : Int := expModLoop m (bitlen e) 1 b e

/-- Where EXPMOD's loop stands: running result, base, exponent; at the issue (1, B, E) (44_expmod_pow.md R146). -/
def State.expmodLoop (s : State) (rs1 rs2 : Reg) : Int × Int × Nat :=
  match s.seq with
  | some (.expmod r b e) => (r, b, e)
  | _ => (1, s.reg rs1, (s.reg rs2).toNat)

/-- EXPMOD (44_expmod_pow.md R145, R146): the loop from where it stands to its end. -/
def execExpmod (rd rs1 rs2 rs3 : Reg) (s : State) : Host.Outcome State Fault Refusal :=
  let l := s.expmodLoop rs1 rs2
  let m := s.reg rs3
  if l.2.2 ≠ 0 ∧ m = 0 then .next (s.fail .divisionByZero)
  else .next (s.finishReg rd (expModLoop m (bitlen l.2.2) l.1 l.2.1 l.2.2) false)

/-- One iteration of EXPMOD's loop (44_expmod_pow.md R146); none where the loop is over or ends with an error. -/
def workExpmod (rs1 rs2 rs3 : Reg) (s : State) : State :=
  let l := s.expmodLoop rs1 rs2
  let m := s.reg rs3
  if l.2.2 = 0 ∨ m = 0 then s
  else
    { s with
      seq := some (.expmod (if l.2.2 % 2 = 1 then modOp (l.1 * l.2.1) m else l.1) (modOp (l.2.1 * l.2.1) m)
        (l.2.2 / 2)) }

/-- The loop of POW (44_expmod_pow.md R149). -/
def powLoop (fuel : Nat) (r b : Int) (e : Nat) : Int :=
  match fuel with
  | 0 => r
  | f + 1 =>
    if e = 0 then r
    else powLoop f (if e % 2 = 1 then r * b else r) (b * b) (e / 2)

/-- Where POW's loop stands: running result, base, exponent; at the issue (1, B, E) (44_expmod_pow.md R149). -/
def State.powLoopState (s : State) (rs1 rs2 : Reg) : Int × Int × Nat :=
  match s.seq with
  | some (.pow r b e) => (r, b, e)
  | _ => (1, s.reg rs1, (s.reg rs2).toNat)

/-- A power that needs more than L limbs whatever its digits: r·b^e with |r| ≥ 1, |b| ≥ 2 and e > 32·L has magnitude at
least 2^(32·L + 1). -/
def powIsHuge (maxLimbs : Nat) (r b : Int) (e : Nat) : Bool :=
  decide (r ≠ 0) && decide (2 ≤ mag b) && decide (32 * maxLimbs < e)

/-- POW (44_expmod_pow.md R149, R150): the loop from where it stands to its end; only the written result is judged against
L. A power that is too large for its exponent alone is CAPACITY without being formed. -/
def execPow (rd rs1 rs2 : Reg) (s : State) : Host.Outcome State Fault Refusal :=
  let l := s.powLoopState rs1 rs2
  if powIsHuge s.cfg.maxLimbs l.1 l.2.1 l.2.2 then .next (s.fail .capacity)
  else .next (s.finishCapacity rd (powLoop (bitlen l.2.2) l.1 l.2.1 l.2.2) false)

/-- One iteration of POW's loop (44_expmod_pow.md R149). -/
def workPow (rs1 rs2 : Reg) (s : State) : State :=
  let l := s.powLoopState rs1 rs2
  if l.2.2 = 0 then s
  else { s with seq := some (.pow (if l.2.2 % 2 = 1 then l.1 * l.2.1 else l.1) (l.2.1 * l.2.1) (l.2.2 / 2)) }

end Sys2Proof.Machine
end

