-- ==== Sys2Proof/Machine/Digest.lean ====
section
/-!
DEFINITION. The digest pipeline (spec 46_digest.md): DSETUP, DIGEST, DGETN. Every value of the rounds is non-negative
(R173), so they are natural numbers.
-/

namespace Sys2Proof.Machine

/-- The block size n = 16·floor(m / 16), m the modulus's bit length (46_digest.md R174). -/
def digestBlock (modulus : Int) : Nat := 16 * (bitlen (mag modulus) / 16)

/-- Half the block size, h = n / 2 (46_digest.md R174). -/
def digestHalf (modulus : Int) : Nat := digestBlock modulus / 2

/-- Expand(v, mk) (46_digest.md R179): h/4 bytes, one per nibble of v in the same order, the marker in the high nibble. -/
def expandNibbles (h v mk : Nat) : Nat :=
  ((List.range (h / 4)).map (fun j => (16 * mk + v / 16 ^ j % 16) * 2 ^ (8 * j))).sum

/-- The round constant A = 15·2^(n - 4) (46_digest.md R180; log 16). -/
def roundConstant (n : Nat) : Nat := 15 * 2 ^ (n - 4)

/-- Round(H, y) (46_digest.md R182). -/
def digestRound (modulus : Int) (h y : Nat) : Nat :=
  let n := digestBlock modulus
  let x := (h ^^^ y) ||| roundConstant n
  ((expMod (x : Int) 257 modulus).toNat % 2 ^ n) ^^^ h

/-- The padding k = (h - (b mod h)) mod h (46_digest.md R177). -/
def paddingOf (h b : Nat) : Nat := (h - b % h) % h

/-- The number of chunks t = (b + k) / h (46_digest.md R177). -/
def chunkCount (h b : Nat) : Nat := (b + paddingOf h b) / h

/-- Chunk i (1 to t) of the padded message P = M·2^k, the most significant first (46_digest.md R178). -/
def messageChunk (h b m i : Nat) : Nat :=
  m * 2 ^ paddingOf h b / 2 ^ (h * (chunkCount h b - i)) % 2 ^ h

/-- The accumulator after `rounds` more chunk rounds, i of them done already (46_digest.md R173, R178). -/
def digestRounds (modulus : Int) (b m : Nat) (rounds i acc : Nat) : Nat :=
  match rounds with
  | 0 => acc
  | k + 1 =>
    let h := digestHalf modulus
    digestRounds modulus b m k (i + 1) (digestRound modulus acc (expandNibbles h (messageChunk h b m (i + 1)) 15))

/-- The finalization round, keyed on the message's bit length with the marker 10 (46_digest.md R183). -/
def digestFinal (modulus : Int) (b acc : Nat) : Nat :=
  digestRound modulus acc (expandNibbles (digestHalf modulus) b 10)

/-- The digest from the accumulator after i chunk rounds on (46_digest.md R173). -/
def digestFrom (modulus : Int) (b m i acc : Nat) : Nat :=
  digestFinal modulus b (digestRounds modulus b m (chunkCount (digestHalf modulus) b - i) i acc)

/-- Where DIGEST's rounds stand: rounds done, accumulator; at the issue (0, H_0 = 0) (46_digest.md R181; log 16). -/
def State.digestLoop (s : State) : Nat × Nat :=
  match s.seq with
  | some (.digest i h) => (i, h)
  | _ => (0, 0)

/-- The first error DIGEST meets (46_digest.md R173; 60_exceptions.md R192). -/
def State.digestError (s : State) (rs1 : Reg) : Option ErrCode :=
  if s.dctx.valid = false then some .digestNotConfigured
  else if sgn (s.reg rs1) then some .badOperand
  else if bitLength s.cfg (s.reg rs1) > 2 ^ (digestHalf s.dctx.n - 1) then some .messageTooLong
  else none

/-- DSETUP (46_digest.md R170, R171). -/
def execDsetup (rs1 rs2 : Reg) (s : State) : Host.Outcome State Fault Refusal :=
  let n := s.reg rs1 * s.reg rs2
  if n ≤ 0 ∨ bitlen (mag n) < 16 then .next (s.fail .badModulus)
  else if s.fits n then .next ({ s with dctx := { valid := true, n := n } }.complete false)
  else .next (s.fail .capacity)

/-- DIGEST (46_digest.md R173 to R187). -/
def execDigest (rd rs1 : Reg) (s : State) : Host.Outcome State Fault Refusal :=
  match s.digestError rs1 with
  | some e => .next (s.fail e)
  | none =>
    let x := s.reg rs1
    let l := s.digestLoop
    .next (s.finishReg rd (digestFrom s.dctx.n (bitLength s.cfg x) (mag x) l.1 l.2 : Nat) false)

/-- One chunk round of DIGEST, without completing (46_digest.md R173). -/
def workDigest (rs1 : Reg) (s : State) : State :=
  match s.digestError rs1 with
  | some _ => s
  | none =>
    let x := s.reg rs1
    let l := s.digestLoop
    let h := digestHalf s.dctx.n
    let b := bitLength s.cfg x
    if l.1 < chunkCount h b then
      { s with
        seq := some (.digest (l.1 + 1)
          (digestRound s.dctx.n l.2 (expandNibbles h (messageChunk h b (mag x) (l.1 + 1)) 15))) }
    else s

/-- DGETN (46_digest.md R172). -/
def execDgetn (rd : Reg) (s : State) : Host.Outcome State Fault Refusal :=
  if s.dctx.valid then .next (s.finishReg rd s.dctx.n false) else .next (s.fail .digestNotConfigured)

end Sys2Proof.Machine
end

