-- ==== Sys2Proof/Machine/Prime.lean ====
section
/-!
DEFINITION. The primality-test sequencer (spec 45_primality.md): ISPRIME, its two witness sources, and the witness port.
-/

namespace Sys2Proof.Machine

/-- The outright rejection (45_primality.md R160): below 2, or even and not 2. -/
def rejectedOutright (n : Int) : Bool := decide (n < 2) || (decide (n ≠ 2) && decide (mag n % 2 = 0))

/-- Halving while even (45_primality.md R161); the fuel is the bit length, more than the halvings there can be. -/
def halveWhileEven (fuel : Nat) (d : Nat) : Nat :=
  match fuel with
  | 0 => d
  | f + 1 => if d % 2 = 0 then halveWhileEven f (d / 2) else d

/-- The odd part d of n - 1 (45_primality.md R161). -/
def oddPart (n : Int) : Nat := halveWhileEven (bitlen (n - 1).toNat) (n - 1).toNat

/-- Whether the squaring loop goes on (45_primality.md R155, R162): the tracker is not n - 1 and the value not ±1. -/
def squaringGoesOn (n x : Int) (t : Nat) : Bool :=
  decide ((t : Int) ≠ n - 1) && decide (x ≠ 1) && decide (x ≠ n - 1)

/-- The squaring loop (45_primality.md R155, R162): the value and the tracker where it ends. -/
def squareLoop (n : Int) (fuel : Nat) (x : Int) (t : Nat) : Int × Nat :=
  match fuel with
  | 0 => (x, t)
  | f + 1 => if squaringGoesOn n x t then squareLoop n f (modOp (x * x) n) (2 * t) else (x, t)

/-- How many doublings take the tracker's bit length to that of n - 1: as many as take t = d·2^j to n - 1
(45_primality.md R162; log 18). -/
def squareFuel (n : Int) (t : Nat) : Nat := bitlen (n - 1).toNat - bitlen t

/-- The verdict where the squaring loop ends (45_primality.md R155, R163): composite iff x ≠ n - 1 and t is even. -/
def iterationPasses (n : Int) (xt : Int × Nat) : Bool := !(decide (xt.1 ≠ n - 1) && decide (xt.2 % 2 = 0))

/-- A witness outside [1, n - 1] (45_primality.md R156, R158). -/
def witnessOutside (n a : Int) : Bool := decide (a < 1) || decide (a > n - 1)

/-- One iteration with the witness a (45_primality.md R155, R158, R162, R163): an error, or whether it passes. -/
def iterationVerdict (n a : Int) : Except ErrCode Bool :=
  if witnessOutside n a then .error .witnessRange
  else .ok (iterationPasses n (squareLoop n (squareFuel n (oddPart n)) (expMod a (oddPart n) n) (oddPart n)))

/-- The iterations i, i + 1, ... with register-file witnesses, as many as `rounds` (45_primality.md R155, R156, R164):
the first error or composite verdict ends them. -/
def registerIterations (n : Int) (w : Nat → Int) (rounds i : Nat) : Except ErrCode Bool :=
  match rounds with
  | 0 => .ok true
  | k + 1 =>
    match iterationVerdict n (w i) with
    | .error e => .error e
    | .ok false => .ok false
    | .ok true => registerIterations n w k (i + 1)

/-- The register-file witness of iteration i: x[(w0 + i) mod 16] (45_primality.md R156). -/
def State.registerWitness (s : State) (w0 : Reg) (i : Nat) : Int :=
  s.reg ⟨(w0.val + i) % 16, Nat.mod_lt _ (by decide)⟩

/-- RES <- 1 ("probably prime") or 0 ("composite") ; complete() (45_primality.md R164). -/
def State.reportPrime (s : State) (isPrime : Bool) : State := s.finishRes (if isPrime then 1 else 0)

/-- The completion an outcome of the iterations gives. -/
def State.reportIterations (s : State) (v : Except ErrCode Bool) : State :=
  match v with
  | .error e => s.fail e
  | .ok isPrime => s.reportPrime isPrime

/-- The command from the start of iteration i (45_primality.md R155, R156): with WSRC = 1 all remaining iterations; with
WSRC = 0 the next witness request (i, n - 1), or the verdict when no iteration is left. -/
def State.primeFrom (s : State) (n : Int) (w0 : Reg) (i : Nat) : State :=
  if s.ctrl.wsrc then s.reportIterations (registerIterations n (s.registerWitness w0) (s.arg0Nat - i) i)
  else if i < s.arg0Nat then { s with seq := some (.waiting i (n - 1)) }
  else s.reportPrime true

/-- The command after iteration i: it ends at a composite verdict (45_primality.md R164). -/
def State.primeAfter (s : State) (n : Int) (w0 : Reg) (i : Nat) (passed : Bool) : State :=
  if passed then s.primeFrom n w0 (i + 1) else s.reportPrime false

/-- ISPRIME (45_primality.md R155 to R164), on from where its sequencer stands. While a witness request is outstanding the
block makes no progress (R157; 70_reset_and_hazards.md R222). -/
def execIsprime (rs1 rs2 : Reg) (s : State) : Host.Outcome State Fault Refusal :=
  let n := s.reg rs1
  if rejectedOutright n then .next (s.reportPrime false)
  else
    match s.seq with
    | some (.waiting _ _) => .next s
    | some (.answered i a) =>
      match iterationVerdict n a with
      | .error e => .next (s.fail e)
      | .ok passed => .next (s.primeAfter n rs2 i passed)
    | some (.squaring i x t) =>
      .next (s.primeAfter n rs2 i (iterationPasses n (squareLoop n (squareFuel n t) x t)))
    | some (.iterate i) => .next (s.primeFrom n rs2 i)
    | _ => .next (s.primeFrom n rs2 0)

/-- ISPRIME draws the witness of iteration i, if that iteration runs (45_primality.md R156): from the register file, or by
a request on the witness port. -/
def State.drawWitness (s : State) (n : Int) (w0 : Reg) (i : Nat) : State :=
  if i < s.arg0Nat then
    if s.ctrl.wsrc then { s with seq := some (.answered i (s.registerWitness w0 i)) }
    else { s with seq := some (.waiting i (n - 1)) }
  else s

/-- One piece of ISPRIME's work, without completing (45_primality.md R155): draw a witness, form ExpMod(a, d, n), square
once, or go on to the next iteration. -/
def workIsprime (rs1 rs2 : Reg) (s : State) : State :=
  let n := s.reg rs1
  if rejectedOutright n then s
  else
    match s.seq with
    | some (.waiting _ _) => s
    | some (.answered i a) =>
      if witnessOutside n a then s
      else { s with seq := some (.squaring i (expMod a (oddPart n) n) (oddPart n)) }
    | some (.squaring i x t) =>
      if squaringGoesOn n x t && decide (0 < squareFuel n t) then
        { s with seq := some (.squaring i (modOp (x * x) n) (2 * t)) }
      else if iterationPasses n (x, t) then { s with seq := some (.iterate (i + 1)) }
      else s
    | some (.iterate i) => s.drawWitness n rs2 i
    | _ => s.drawWitness n rs2 0

/-- An answer on the witness port (45_primality.md R157): taken if a request is outstanding, which lowers WREQ in the same
step; ignored otherwise (70_reset_and_hazards.md R213). -/
def State.takeAnswer (s : State) (a : Int) : State :=
  match s.seq with
  | some (.waiting i _) => { s with seq := some (.answered i a) }
  | _ => s

end Sys2Proof.Machine
end

