-- ==== Sys2Proof/Machine/Dispatch.lean ====
section
/-!
DEFINITION. The meaning of each command (spec 30_encoding.md R73), one arm for each constructor of Instr.
-/

namespace Sys2Proof.Machine

/-- The running command's meaning: from where its sequencer stands to its completion, or to a witness request. -/
def exec (i : Instr) (s : State) : Host.Outcome State Fault Refusal :=
  match i with
  | .mov rd rs1 => Sys2Proof.Machine.execMov rd rs1 s
  | .fromint rd => Sys2Proof.Machine.execFromint rd s
  | .fromhex rd => Sys2Proof.Machine.execFromhex rd s
  | .tohex rs1 => Sys2Proof.Machine.execTohex rs1 s
  | .add rd rs1 rs2 => Sys2Proof.Machine.execAdd rd rs1 rs2 s
  | .sub rd rs1 rs2 => Sys2Proof.Machine.execSub rd rs1 rs2 s
  | .mul rd rs1 rs2 => Sys2Proof.Machine.execMul rd rs1 rs2 s
  | .div rd rs1 rs2 => Sys2Proof.Machine.execDiv rd rs1 rs2 s
  | .mod rd rs1 rs2 => Sys2Proof.Machine.execMod rd rs1 rs2 s
  | .or rd rs1 rs2 => Sys2Proof.Machine.execOr rd rs1 rs2 s
  | .xor rd rs1 rs2 => Sys2Proof.Machine.execXor rd rs1 rs2 s
  | .shl rd rs1 rs2 => Sys2Proof.Machine.execShl rd rs1 rs2 s
  | .shr rd rs1 rs2 => Sys2Proof.Machine.execShr rd rs1 rs2 s
  | .bitlen rs1 => Sys2Proof.Machine.execBitlen rs1 s
  | .getbit rs1 => Sys2Proof.Machine.execGetbit rs1 s
  | .setbit rd => Sys2Proof.Machine.execSetbit rd s
  | .cmp rs1 rs2 => Sys2Proof.Machine.execCmp rs1 rs2 s
  | .expmod rd rs1 rs2 rs3 => Sys2Proof.Machine.execExpmod rd rs1 rs2 rs3 s
  | .pow rd rs1 rs2 => Sys2Proof.Machine.execPow rd rs1 rs2 s
  | .isprime rs1 rs2 => Sys2Proof.Machine.execIsprime rs1 rs2 s
  | .dsetup rs1 rs2 => Sys2Proof.Machine.execDsetup rs1 rs2 s
  | .digest rd rs1 => Sys2Proof.Machine.execDigest rd rs1 s
  | .dgetn rd => Sys2Proof.Machine.execDgetn rd s

end Sys2Proof.Machine
end

