-- ==== Sys2Proof/Machine/Port.lean ====
section
/-!
DEFINITION. The host port (spec 20_memory.md R51 to R63; 10_state.md R27 to R44): what a host read returns and what a host
write does, idle and busy. Every access completes (R51).
-/

namespace Sys2Proof.Machine

/-- What stands at a word of the aperture (10_state.md R27). -/
inductive PortReg where
  | id
  | maxlimbs
  | bufbytes
  | ctrl
  | status
  | cmd
  | arg0
  | arg1
  | res
  /-- The buffer word whose first byte is at this buffer offset (20_memory.md R54). -/
  | buf (offset : Nat)
  | reserved
  deriving DecidableEq, Repr

/-- The identity word, ASCII "MSH2" (10_state.md R41). -/
def idWord : Word := 0x4D534832

/-- The word offset of an access: address bits [1:0] are ignored (20_memory.md R52). -/
def wordOffset (addr : PortAddr) : Nat := 4 * (addr.toNat / 4)

/-- The register map (10_state.md R27, R42; 20_memory.md R54). -/
def portReg (cfg : Config) (addr : PortAddr) : PortReg :=
  let o := wordOffset addr
  if o = 0x000 then .id
  else if o = 0x004 then .maxlimbs
  else if o = 0x008 then .bufbytes
  else if o = 0x00C then .ctrl
  else if o = 0x010 then .status
  else if o = 0x014 then .cmd
  else if o = 0x018 then .arg0
  else if o = 0x01C then .arg1
  else if o = 0x020 then .res
  else if 0x10000 ≤ o ∧ o < 0x10000 + cfg.bufBytes then .buf (o - 0x10000)
  else .reserved

/-- The buffer word at a buffer offset, little-endian (20_memory.md R53). -/
def State.bufWord (s : State) (o : Nat) : Word :=
  s.bufByte (o + 3) ++ s.bufByte (o + 2) ++ s.bufByte (o + 1) ++ s.bufByte o

/-- The current value of what stands at a word of the aperture (10_state.md R27; 20_memory.md R63). -/
def State.portValue (s : State) (p : PortReg) : Word :=
  match p with
  | .id => idWord
  | .maxlimbs => BitVec.ofNat 32 s.cfg.maxLimbs
  | .bufbytes => BitVec.ofNat 32 s.cfg.bufBytes
  | .ctrl => s.ctrlWord
  | .status => s.statusWord
  | .cmd => s.cmd
  | .arg0 => s.arg0
  | .arg1 => s.arg1
  | .res => s.res
  | .buf o => s.bufWord o
  | .reserved => 0

/-- Whether a read while BUSY = 1 returns an unspecified value: RES and the buffer (20_memory.md R63). -/
def readsUnspecified (p : PortReg) : Bool :=
  match p with
  | .res => true
  | .buf _ => true
  | .id => false
  | .maxlimbs => false
  | .bufbytes => false
  | .ctrl => false
  | .status => false
  | .cmd => false
  | .arg0 => false
  | .arg1 => false
  | .reserved => false

/-- A host read (20_memory.md R51, R60, R63). It changes no state of the block; the word goes to the read data path, and a
busy read of RES or the buffer is a fresh draw (log 7). -/
def State.hostRead (s : State) (addr : PortAddr) : State :=
  if s.busy && readsUnspecified (portReg s.cfg addr) then
    { s with rdata := Config.busyRead s.draws, draws := s.draws + 1 }
  else { s with rdata := s.portValue (portReg s.cfg addr) }

/-- The byte lanes of a word whose strobes are set, as a mask (20_memory.md R53, R55). -/
def laneMask (strb : Strobes) : Word :=
  (if strb.getLsbD 3 then 0xFF#8 else 0x00#8) ++ (if strb.getLsbD 2 then 0xFF#8 else 0x00#8)
    ++ (if strb.getLsbD 1 then 0xFF#8 else 0x00#8) ++ (if strb.getLsbD 0 then 0xFF#8 else 0x00#8)

/-- A register after a write: the strobed lanes from the data, the others kept (20_memory.md R59). -/
def mergeLanes (old data : Word) (strb : Strobes) : Word :=
  (old &&& ~~~(laneMask strb)) ||| (data &&& laneMask strb)

/-- The buffer after a write of one lane, if its strobe is set (20_memory.md R55). -/
def writeLane (m : Memory) (o : Nat) (data : Word) (strb : Strobes) (lane : Nat) : Memory :=
  if strb.getLsbD lane then Memory.set m (o + lane) (data.extractLsb' (8 * lane) 8) else m

/-- The buffer after a write: exactly the strobed lanes (20_memory.md R55). -/
def writeLanes (m : Memory) (o : Nat) (data : Word) (strb : Strobes) : Memory :=
  writeLane (writeLane (writeLane (writeLane m o data strb 0) o data strb 1) o data strb 2) o data strb 3

/-- A write refused because the block is busy (10_state.md R39; 20_memory.md R62). -/
def State.refuseWrite (s : State) : State := { s with status := { s.status with ovr := true } }

/-- A write of STATUS (10_state.md R33, R35, R39; 20_memory.md R59): writing 1 to DONE or OVR clears it, in byte lane 0. -/
def State.writeStatus (s : State) (data : Word) (strb : Strobes) : State :=
  { s with
    status :=
      { s.status with
        done := s.status.done && !(strb.getLsbD 0 && data.getLsbD 1)
        ovr := s.status.ovr && !(strb.getLsbD 0 && data.getLsbD 7) } }

/-- A write of CTRL (10_state.md R32; 20_memory.md R59, R62): SRST in the written byte 0 resets the block at any time; any
other write sets IRQ_EN and WSRC from byte lane 0 when idle and is refused when busy. -/
def State.writeCtrl (s : State) (data : Word) (strb : Strobes) : State :=
  if strb.getLsbD 0 && data.getLsbD 2 then s.resetBlock
  else if s.busy then s.refuseWrite
  else if strb.getLsbD 0 then { s with ctrl := { irqEn := data.getLsbD 0, wsrc := data.getLsbD 1 } }
  else s

/-- A write of CMD (10_state.md R31; 20_memory.md R62): refused when busy; when idle a full-strobe write issues the word,
any other is ignored. -/
def State.writeCmd (s : State) (data : Word) (strb : Strobes) : State :=
  if s.busy then s.refuseWrite
  else if strb = 0xF then s.issue data
  else s

/-- A host write (20_memory.md R51, R55, R59, R62; 10_state.md R27, R42). -/
def State.hostWrite (s : State) (addr : PortAddr) (data : Word) (strb : Strobes) : State :=
  match portReg s.cfg addr with
  | .ctrl => s.writeCtrl data strb
  | .status => s.writeStatus data strb
  | .cmd => s.writeCmd data strb
  | .arg0 => if s.busy then s.refuseWrite else { s with arg0 := mergeLanes s.arg0 data strb }
  | .arg1 => if s.busy then s.refuseWrite else { s with arg1 := mergeLanes s.arg1 data strb }
  | .buf o => if s.busy then s.refuseWrite else { s with buf := writeLanes s.buf o data strb }
  | .id => s
  | .maxlimbs => s
  | .bufbytes => s
  | .res => s
  | .reserved => s

end Sys2Proof.Machine
end

