-- ==== Sys2Proof/Machine/Work.lean ====
section
/-!
DEFINITION. One iteration of the running command's loop, without completing (spec 10_state.md R43;
70_reset_and_hazards.md R224, R225): how many of these a command takes before it completes is left open (log 5).
-/

namespace Sys2Proof.Machine

/-- The work of one command: a loop iteration for the four looping commands (10_state.md R43), and only time for the
others. -/
def workOf (i : Instr) (s : State) : State :=
  match i with
  | .expmod _ rs1 rs2 rs3 => workExpmod rs1 rs2 rs3 s
  | .pow _ rs1 rs2 => workPow rs1 rs2 s
  | .isprime rs1 rs2 => workIsprime rs1 rs2 s
  | .digest _ rs1 => workDigest rs1 s
  | .mov _ _ => s
  | .fromint _ => s
  | .fromhex _ => s
  | .tohex _ => s
  | .add _ _ _ => s
  | .sub _ _ _ => s
  | .mul _ _ _ => s
  | .div _ _ _ => s
  | .mod _ _ _ => s
  | .or _ _ _ => s
  | .xor _ _ _ => s
  | .shl _ _ _ => s
  | .shr _ _ _ => s
  | .bitlen _ => s
  | .getbit _ => s
  | .setbit _ => s
  | .cmp _ _ => s
  | .dsetup _ _ => s
  | .dgetn _ => s

/-- One piece of work of the block: none when idle or when the word is illegal (60_exceptions.md R198). -/
def State.work (s : State) : State :=
  match s.busy, decode s.cmd with
  | true, .ok i => workOf i s
  | true, .error _ => s
  | false, _ => s

end Sys2Proof.Machine
end

