-- ==== Sys2Proof/Machine/Step.lean ====
section
/-!
DEFINITION. One step of the machine: the next event of the one total order of host accesses, witness answers, resets and
turns of the block (spec 20_memory.md R64; 60_exceptions.md R201).
-/

namespace Sys2Proof.Machine

/-- The block's turn: the running command's word is decoded (30_encoding.md R77) and runs on; an illegal word completes
with ILLEGAL_COMMAND (60_exceptions.md R198); an idle block keeps all its state (R209). -/
def blockTurn (s : State) : Host.Outcome State Fault Refusal :=
  match s.busy, decode s.cmd with
  | true, .ok i => exec i s
  | true, .error _ => .next (s.fail .illegalCommand)
  | false, _ => .next s

/-- One event, taken from the list of events to come already. -/
def handle (e : Event) (s : State) : Host.Outcome State Fault Refusal :=
  match e with
  | .read addr => .next (s.hostRead addr)
  | .write addr data strb => .next (s.hostWrite addr data strb)
  | .powerOn => .next s.resetBlock
  | .answer a => .next (s.takeAnswer a)
  | .work => .next s.work
  | .finish => blockTurn s

/-- One step: the first event to come; with none to come, the block's turn (log 1). -/
def step (s : State) : Host.Outcome State Fault Refusal :=
  match s.inputs with
  | [] => blockTurn s
  | e :: rest => handle e { s with inputs := rest }

/-- s with the command of these bits (numbered as spec/opcode_table.json numbers them) issued, and the block's turn next:
the block fetches nothing, its instruction register is CMD, which a host write captures at the issue (10_state.md R26,
R31; 20_memory.md R67; log 14). -/
def State.withFetchWord (s : State) (nbits w : Nat) : State :=
  let t := s.issue (BitVec.ofNat 32 (w % 2 ^ nbits))
  { t with inputs := .finish :: t.inputs }

end Sys2Proof.Machine
end

