-- ==== Sys2Proof/Safety.lean ====
section
/-!
DEFINITION. What counts as a safe state and as a right completion, in the terms the statements use (spec 00_scope.md R7;
10_state.md R21, R46; 20_memory.md R62; 60_exceptions.md R191, R193, R194).
-/

namespace Sys2Proof

/-- The legal ranges of the parameters (00_scope.md R7). -/
def Config.Legal (c : Config) : Prop :=
  2 ≤ c.maxLimbs ∧ c.maxLimbs ≤ 2 ^ 26 ∧ 4 ≤ c.bufBytes ∧ c.bufBytes ≤ 65536 ∧ c.bufBytes % 4 = 0

end Sys2Proof

namespace Sys2Proof.Machine

/-! ## What a completion leaves unchanged -/

/-- What no command writes on any path: the parameters, CTRL, CMD, ARG0, ARG1, STATUS.OVR, and the model's own fields
(10_state.md R28, R31, R32, R39). -/
def SameOutside (s t : State) : Prop :=
  t.cfg = s.cfg ∧ t.ctrl = s.ctrl ∧ t.cmd = s.cmd ∧ t.arg0 = s.arg0 ∧ t.arg1 = s.arg1 ∧
    t.status.ovr = s.status.ovr ∧ t.rdata = s.rdata ∧ t.inputs = s.inputs ∧ t.epoch = s.epoch ∧ t.draws = s.draws

/-- Every BigInt register is unchanged. -/
def SameRegs (s t : State) : Prop := ∀ r, t.reg r = s.reg r

/-- Every BigInt register but rd is unchanged. -/
def SameRegsBut (rd : Reg) (s t : State) : Prop := ∀ r, r ≠ rd → t.reg r = s.reg r

/-- LT, EQ and GT are unchanged. -/
def SameFlags (s t : State) : Prop :=
  t.status.lt = s.status.lt ∧ t.status.eq = s.status.eq ∧ t.status.gt = s.status.gt

/-- Every byte of the text buffer reads as before. -/
def SameBuffer (s t : State) : Prop := ∀ a, t.bufByte a = s.bufByte a

/-- Every byte of the text buffer outside `len` bytes from offset `off` on reads as before. -/
def SameBufferOutside (off len : Nat) (s t : State) : Prop :=
  ∀ a, a < off ∨ off + len ≤ a → t.bufByte a = s.bufByte a

/-! ## Completions -/

/-- STATUS after a successful completion with UNDEF = u (60_exceptions.md R193): BUSY 0, WREQ 0, DONE 1, ERR 0,
ERRCODE 0x00. -/
def Succeeded (u : Bool) (t : State) : Prop :=
  t.busy = false ∧ t.wreq = false ∧ t.status.done = true ∧ t.status.err = false ∧ t.status.errcode = .none ∧
    t.status.undef = u

/-- A successful completion that writes x to Vrd and nothing else (10_state.md R46). -/
def WritesReg (rd : Reg) (x : Int) (u : Bool) (s t : State) : Prop :=
  t.reg rd = x ∧ SameRegsBut rd s t ∧ Succeeded u t ∧ SameFlags s t ∧ t.res = s.res ∧ t.dctx = s.dctx ∧
    SameBuffer s t ∧ SameOutside s t

/-- A successful completion with UNDEF = 0 that writes w to RES and nothing else (10_state.md R46). -/
def WritesRes (w : Word) (s t : State) : Prop :=
  t.res = w ∧ SameRegs s t ∧ Succeeded false t ∧ SameFlags s t ∧ t.dctx = s.dctx ∧ SameBuffer s t ∧ SameOutside s t

/-- An error completion of code e (60_exceptions.md R194, R195): BUSY 0, DONE 1, ERR 1, ERRCODE the code, UNDEF 0, and
everything else as it was. -/
def Fails (e : ErrCode) (s t : State) : Prop :=
  t.busy = false ∧ t.wreq = false ∧ t.status.done = true ∧ t.status.err = true ∧ t.status.errcode = e ∧
    t.status.undef = false ∧ SameRegs s t ∧ SameFlags s t ∧ t.res = s.res ∧ t.dctx = s.dctx ∧ SameBuffer s t ∧
    SameOutside s t

/-- x fits a register of the build (10_state.md R22). -/
def Fits (s : State) (x : Int) : Prop := limbs x ≤ s.cfg.maxLimbs

/-- Vrd gets x if it fits, else the command ends with CAPACITY (00_scope.md R16, Capacity). -/
def WritesOrCapacity (rd : Reg) (x : Int) (s t : State) : Prop :=
  (Fits s x → WritesReg rd x false s t) ∧ (¬ Fits s x → Fails .capacity s t)

/-- The state at the issue of a command: its sequencer has done nothing yet (60_exceptions.md R193). -/
def AtIssue (s : State) : Prop := s.seq = some .start

/-- The block's state after a reset of either kind (10_state.md R45; 70_reset_and_hazards.md R211). The buffer's bytes are
unspecified there, so nothing is said of them. -/
def AfterReset (t : State) : Prop :=
  (∀ r, t.reg r = 0) ∧ t.dctx.valid = false ∧ t.dctx.n = 0 ∧ t.ctrlWord = 0 ∧ t.statusWord = 0 ∧ t.cmd = 0 ∧
    t.arg0 = 0 ∧ t.arg1 = 0 ∧ t.res = 0 ∧ t.seq = none ∧ t.busy = false ∧ t.wreq = false ∧ t.wbound = none ∧
    t.irq = false

/-- The event resets the block: power-on reset, or a CTRL write of SRST in a strobed byte 0 (70_reset_and_hazards.md
R210). -/
def ResetsTheBlock (e : Event) : Prop :=
  e = .powerOn ∨ ∃ addr data strb, e = .write addr data strb ∧ wordOffset addr = 0x00C ∧ strb.getLsbD 0 = true ∧
    data.getLsbD 2 = true

/-! ## Primality, as the rules say it -/

/-- One Miller-Rabin iteration of n with witness a passes (45_primality.md R161, R163): with n - 1 = d·2^k, d odd,
a^d ≡ 1 or a^(d·2^j) ≡ -1 (mod n) for some j < k. -/
def PassesIteration (n a : Nat) : Prop :=
  ∃ d k, d % 2 = 1 ∧ n - 1 = d * 2 ^ k ∧
    (a ^ d % n = 1 % n ∨ ∃ j, j < k ∧ a ^ (d * 2 ^ j) % n = n - 1)

/-! ## Per command -/

/-- The word of i is the row's: word AND mask = match (30_encoding.md R73). -/
def HasEncoding (i : Instr) (word mask : Word) : Prop := encode i &&& mask = word

/-- What CMP reports as LT for a before b (43_compare.md R141, R143): the integer order, but for two negative values in
mode LITERAL the order of the magnitudes. -/
def ComparesLess (mode : CmpNegMode) (a b : Int) : Prop :=
  if mode = .literal ∧ a < 0 ∧ b < 0 then a.natAbs < b.natAbs else a < b

/-- A witness in [1, n - 1] whose iteration passes (45_primality.md R156, R163). -/
def GoodWitness (n a : Int) : Prop := 1 ≤ a ∧ a ≤ n - 1 ∧ PassesIteration n.toNat a.toNat

/-- A candidate that is not rejected outright: 2, or odd and at least 3 (45_primality.md R160). -/
def Testable (n : Int) : Prop := n = 2 ∨ (3 ≤ n ∧ n % 2 = 1)

/-- The destination register of a command (10_state.md R21). -/
def destination (i : Instr) : Option Reg :=
  match i with
  | .mov rd _ => some rd
  | .fromint rd => some rd
  | .fromhex rd => some rd
  | .tohex _ => none
  | .add rd _ _ => some rd
  | .sub rd _ _ => some rd
  | .mul rd _ _ => some rd
  | .div rd _ _ => some rd
  | .mod rd _ _ => some rd
  | .or rd _ _ => some rd
  | .xor rd _ _ => some rd
  | .shl rd _ _ => some rd
  | .shr rd _ _ => some rd
  | .bitlen _ => none
  | .getbit _ => none
  | .setbit rd => some rd
  | .cmp _ _ => none
  | .expmod rd _ _ _ => some rd
  | .pow rd _ _ => some rd
  | .isprime _ _ => none
  | .dsetup _ _ => none
  | .digest rd _ => some rd
  | .dgetn rd => some rd

/-- The errors a command can report besides ILLEGAL_COMMAND (60_exceptions.md R191). -/
def reportable (i : Instr) : List ErrCode :=
  match i with
  | .mov _ _ => []
  | .fromint _ => []
  | .fromhex _ => [.bufferRange, .malformedInput, .capacity]
  | .tohex _ => [.bufferRange]
  | .add _ _ _ => [.capacity]
  | .sub _ _ _ => [.capacity]
  | .mul _ _ _ => [.capacity]
  | .div _ _ _ => [.divisionByZero]
  | .mod _ _ _ => [.divisionByZero]
  | .or _ _ _ => []
  | .xor _ _ _ => []
  | .shl _ _ _ => [.capacity]
  | .shr _ _ _ => []
  | .bitlen _ => []
  | .getbit _ => [.outOfRange]
  | .setbit _ => [.outOfRange]
  | .cmp _ _ => []
  | .expmod _ _ _ _ => [.divisionByZero]
  | .pow _ _ _ => [.capacity]
  | .isprime _ _ => [.witnessRange]
  | .dsetup _ _ => [.badModulus, .capacity]
  | .digest _ _ => [.digestNotConfigured, .badOperand, .messageTooLong]
  | .dgetn _ => [.digestNotConfigured]

/-- The commands whose success writes RES (10_state.md R29, R46). -/
def writesResult (i : Instr) : Bool :=
  match i with
  | .tohex _ => true
  | .bitlen _ => true
  | .getbit _ => true
  | .cmp _ _ => true
  | .isprime _ _ => true
  | .mov _ _ => false
  | .fromint _ => false
  | .fromhex _ => false
  | .add _ _ _ => false
  | .sub _ _ _ => false
  | .mul _ _ _ => false
  | .div _ _ _ => false
  | .mod _ _ _ => false
  | .or _ _ _ => false
  | .xor _ _ _ => false
  | .shl _ _ _ => false
  | .shr _ _ _ => false
  | .setbit _ => false
  | .expmod _ _ _ _ => false
  | .pow _ _ _ => false
  | .dsetup _ _ => false
  | .digest _ _ => false
  | .dgetn _ => false

/-! ## Hex text, as the rules say it -/

/-- c is a hex digit of value d (40_construction.md R92): '0'-'9', 'A'-'F', 'a'-'f'. -/
def IsHexDigit (c : Byte) (d : Nat) : Prop :=
  (d ≤ 9 ∧ c.toNat = 0x30 + d) ∨ (10 ≤ d ∧ d ≤ 15 ∧ c.toNat = 0x41 + (d - 10)) ∨
    (10 ≤ d ∧ d ≤ 15 ∧ c.toNat = 0x61 + (d - 10))

/-- c is the lowercase hex digit of value d (40_construction.md R95). -/
def IsLowerDigit (c : Byte) (d : Nat) : Prop :=
  (d ≤ 9 ∧ c.toNat = 0x30 + d) ∨ (10 ≤ d ∧ d ≤ 15 ∧ c.toNat = 0x61 + (d - 10))

/-- t is a well-formed hex text of sign neg and digit values ds, most significant first (40_construction.md R92, R93). -/
def IsHexText (neg : Bool) (ds : List Nat) (t : List Byte) : Prop :=
  ds ≠ [] ∧ ∃ d, List.Forall₂ IsHexDigit d ds ∧ t = if neg then minusByte :: d else d

/-- The number whose base-16 digits, most significant first, are ds. -/
def digitsValue (ds : List Nat) : Nat := ds.foldl (fun m d => 16 * m + d) 0

/-! ## The digest, as the rules say it -/

/-- Round(H, y) with ExpMod as the integer power (46_digest.md R182; 44_expmod_pow.md R147). -/
def RoundValue (modulus n h y : Nat) : Nat :=
  ((((h ^^^ y) ||| 15 * 2 ^ (n - 4)) ^ 257 % modulus) % 2 ^ n) ^^^ h

/-- Expand(v, mk) (46_digest.md R179): nibble j of v becomes byte j, the marker its high nibble. -/
def ExpandValue (h v mk : Nat) : Nat := ∑ j ∈ Finset.range (h / 4), (16 * mk + v / 16 ^ j % 16) * 2 ^ (8 * j)

/-- m is the bit length of the positive number x (46_digest.md, "bitlen"): its highest set bit index plus one. -/
def IsBitLength (x m : Nat) : Prop := 1 ≤ m ∧ 2 ^ (m - 1) ≤ x ∧ x < 2 ^ m

/-! ## The invariant -/

/-- What the sequencer's loop state satisfies while a command runs. -/
def SequencerOk (s : State) : Prop :=
  match s.seq with
  | some (.expmod r _ _) => Fits s r
  | some (.digest _ h) => h < 2 ^ digestBlock s.dctx.n
  | some (.squaring _ _ t) => 0 < t
  | some (.waiting i bound) =>
    s.ctrl.wsrc = false ∧ i < s.arg0Nat ∧
      ∃ rs1 rs2, decode s.cmd = .ok (.isprime rs1 rs2) ∧ bound = s.reg rs1 - 1
  | _ => True

/-- The invariant of the block: what every step from such a state keeps. -/
structure State.Inv (s : State) : Prop where
  /-- The parameters are legal (00_scope.md R7). -/
  legal : s.cfg.Legal
  /-- Every register fits (10_state.md R22). -/
  regs : ∀ r, Fits s (s.reg r)
  /-- The digest context is a modulus of at least 16 bits that fits, or unset with N = 0 (10_state.md R25;
  46_digest.md R170). -/
  context : if s.dctx.valid then 2 ^ 15 ≤ s.dctx.n ∧ Fits s s.dctx.n else s.dctx.n = 0
  /-- The buffer is in its canonical form and within its B bytes (20_memory.md R54). -/
  buffer : Memory.wf s.buf ∧ ∀ c ∈ s.buf, c.1 < s.cfg.bufBytes
  /-- At most one of LT, EQ and GT is set (10_state.md R37). -/
  flags : ¬(s.status.lt ∧ s.status.eq) ∧ ¬(s.status.lt ∧ s.status.gt) ∧ ¬(s.status.eq ∧ s.status.gt)
  /-- ERR = 1 exactly with a nonzero ERRCODE, and then UNDEF = 0 (10_state.md R36, R38). -/
  errors : (s.status.err = true ↔ s.status.errcode ≠ .none) ∧ (s.status.err = true → s.status.undef = false)
  /-- DONE = 0 while a command runs (10_state.md R35). -/
  done : s.busy = true → s.status.done = false
  /-- The sequencer's loop state. -/
  sequencer : SequencerOk s

end Sys2Proof.Machine
end

