-- ==== Sys2Proof/Certificates/Slice0/Obligations.lean ====
section
/-!
DEFINITION. The statements for the provers, one for each claim about the machine, from the numbered rules of spec/. Each
holds for every state, also one no run reaches; where it needs a premise, the premise is in it.
-/

open Sys2Proof Sys2Proof.Machine

/-! ## Encoding -/

/-- 95_test_vectors.md section 3.1, with 30_encoding.md R73, R74: words written out from the encoding. -/
def Obligations.WrittenWordsDecode : Prop :=
  decode 0x00021308 = .ok (.add 3 1 2) ∧ decode 0x00321420 = .ok (.expmod 4 1 2 3) ∧
    decode 0x00FFFF20 = .ok (.expmod 15 15 15 15) ∧ decode 0x00065018 = .ok (.cmp 5 6) ∧
    decode 0x00000F02 = .ok (.fromint 15) ∧ decode 0x0000052A = .ok (.dgetn 5) ∧
    decode 0x00121308 = .error .nonzeroField ∧ decode 0x80021308 = .error .nonzeroField ∧
    decode 0x00000007 = .error (.unassignedOpcode 7)

/-- Decode and encode agree: every command's word decodes to it (30_encoding.md R70, R73, R77). -/
def Obligations.DecodeOfEncodeIsTheCommand : Prop := ∀ i : Instr, decode (encode i) = .ok i

/-- A legal word is the encoding of the command it decodes to: no bit of a word is dropped (30_encoding.md R72, R77). -/
def Obligations.EncodeOfDecodeIsTheWord : Prop := ∀ (w : Word) (i : Instr), decode w = .ok i → encode i = w

/-- 30_encoding.md R73, R77: a word decodes to a row's command exactly when (w AND mask) = match, with its register fields
at the places of R70; and every command's mnemonic has a row. -/
def Obligations.DecoderFollowsTheOpcodeMap : Prop :=
  (∀ row ∈ opcodeRows, ∀ w : Word,
    (w &&& row.2.2 = row.2.1) ↔ ∃ i, decode w = .ok i ∧ mnemonic i = row.1) ∧
  (∀ i : Instr, ∃ row ∈ opcodeRows, row.1 = mnemonic i) ∧
  (∀ (w : Word) (i : Instr), decode w = .ok i → instrFields i = wordFields w)

/-- 30_encoding.md R72, R74: a word is illegal exactly when its OP is unassigned or a field that must be 0 is not. -/
def Obligations.IllegalExactlyWhenIllFormed : Prop :=
  ∀ w : Word, (∃ e, decode w = .error e) ↔ (wordFields w).wellFormed = false

/-! ## Stepping, issue and completion -/

/-- A step runs the decoded command: while a command runs, the block's turn is `exec` of the command CMD decodes to
(30_encoding.md R77; 20_memory.md R67). A turn is the event `finish`, or any step when no event is to come (log 1). -/
def Obligations.StepRunsTheDecodedCommand : Prop :=
  ∀ (s : State) (i : Instr), s.busy = true → decode s.cmd = .ok i →
    (s.inputs = [] → step s = exec i s) ∧
    (∀ rest, s.inputs = .finish :: rest → step s = exec i { s with inputs := rest })

/-- No step stops the machine: no host access can fail or trap (20_memory.md R51), and a command's error and an illegal
word end in a completion (60_exceptions.md R194, R198). That a witness wait (45_primality.md R157; 93 U9: stuck) is a step
that changes nothing, and not a stop, is the model's choice (log 15). -/
def Obligations.EveryStepAnswersANextState : Prop := ∀ s : State, ∃ t, step s = .next t

/-- 10_state.md R31: the CMD register. A full-strobe write while idle captures the word and issues it; with any strobe
clear it is ignored; while busy it is ignored and sets OVR; a read returns the word last captured; reset 0. That a busy write with
a strobe clear sets OVR too is the model's reading (log 12). -/
def Obligations.CmdWriteIssues : Prop :=
  State.reset.cmd = 0 ∧
  ∀ (s : State) (addr : PortAddr) (rest : List Event), wordOffset addr = 0x014 →
    (∀ (w : Word) (strb : Strobes), s.inputs = .write addr w strb :: rest →
      (s.busy = false → strb = 0xF →
        ∃ t, step s = .next t ∧ t.busy = true ∧ t.cmd = w ∧ t.status.done = false ∧
          t = { s with
            cmd := w, seq := some .start, status := { s.status with done := false }, inputs := rest }) ∧
      (s.busy = false → strb ≠ 0xF → step s = .next { s with inputs := rest }) ∧
      (s.busy = true →
        step s = .next { s with status := { s.status with ovr := true }, inputs := rest })) ∧
    (s.inputs = .read addr :: rest → step s = .next { s with inputs := rest, rdata := s.cmd })

/-- 60_exceptions.md R198: an illegal word is issued like any other and then completes with ILLEGAL_COMMAND. That the
completion is a step of its own, the block's next turn after the issue, is the model's reading (log 11). -/
def Obligations.IllegalWordCompletesWithItsError : Prop :=
  ∀ (s : State) (addr : PortAddr) (w : Word) (e : Illegal) (rest : List Event),
    s.busy = false → wordOffset addr = 0x014 → decode w = .error e →
    s.inputs = .write addr w 0xF :: .finish :: rest →
    ∃ t u, step s = .next t ∧ t.busy = true ∧ t.status.done = false ∧ t.cmd = w ∧
      step t = .next u ∧ Fails .illegalCommand { s with cmd := w, inputs := rest } u

/-- 60_exceptions.md R194: an error completion of any command, and of an illegal word, writes BUSY, DONE, ERR, ERRCODE and
UNDEF and nothing else. -/
def Obligations.ErrorCompletionsWriteOnlyStatus : Prop :=
  (∀ (i : Instr) (s t : State), exec i s = .next t → t.busy = false → t.status.err = true →
    Fails t.status.errcode s t) ∧
  (∀ (s : State) (e : Illegal), s.busy = true → decode s.cmd = .error e →
    ∃ t, blockTurn s = .next t ∧ Fails .illegalCommand s t)

/-- 60_exceptions.md R191: which commands can report which error. -/
def Obligations.CommandsReportOnlyTheirErrors : Prop :=
  ∀ (i : Instr) (s t : State), exec i s = .next t → t.busy = false →
    (t.status.err = false ∧ t.status.errcode = .none) ∨
      (t.status.err = true ∧ t.status.errcode ∈ reportable i)

/-- 10_state.md R46, R21, with 60_exceptions.md R193: what a successful completion leaves unchanged, for every command. -/
def Obligations.SuccessWritesOnlyWhatItsRowNames : Prop :=
  ∀ (i : Instr) (s t : State), exec i s = .next t → t.busy = false → t.status.err = false →
    Succeeded t.status.undef t ∧ SameOutside s t ∧
      (t.status.undef = true → ∃ a b c, i = .add a b c ∨ i = .or a b c ∨ i = .xor a b c) ∧
      (∀ r, destination i ≠ some r → t.reg r = s.reg r) ∧
      (writesResult i = false → t.res = s.res) ∧
      ((∀ a b, i ≠ .cmp a b) → SameFlags s t) ∧
      ((∀ a, i ≠ .tohex a) → SameBuffer s t) ∧
      ((∀ a b, i ≠ .dsetup a b) → t.dctx = s.dctx)

/-! ## Construction, copy and hex conversion -/

/-- 40_construction.md R90. -/
def Obligations.MovCopiesTheValue : Prop :=
  ∀ (rd rs1 : Reg) (s : State),
    HasEncoding (.mov rd rs1) 0x00000001 0xFFFF00FF ∧
      ∃ t, exec (.mov rd rs1) s = .next t ∧ WritesReg rd (s.reg rs1) false s t

/-- 40_construction.md R91: ARG0 read as a signed 32-bit number. -/
def Obligations.FromintReadsASignedWord : Prop :=
  ∀ (rd : Reg) (s : State),
    HasEncoding (.fromint rd) 0x00000002 0xFFFFF0FF ∧
      ∃ t, exec (.fromint rd) s = .next t ∧
        WritesReg rd (if s.arg0.toNat < 2 ^ 31 then (s.arg0.toNat : Int) else (s.arg0.toNat : Int) - 2 ^ 32) false s t

/-- 40_construction.md R92: BUFFER_RANGE, then MALFORMED_INPUT, then the value of the text, judged against L. -/
def Obligations.FromhexParsesTheText : Prop :=
  ∀ (rd : Reg) (s : State),
    HasEncoding (.fromhex rd) 0x00000003 0xFFFFF0FF ∧
    (s.arg0.toNat + s.arg1.toNat > s.cfg.bufBytes →
      ∃ t, exec (.fromhex rd) s = .next t ∧ Fails .bufferRange s t) ∧
    (s.arg0.toNat + s.arg1.toNat ≤ s.cfg.bufBytes →
      (¬ ∃ neg ds, IsHexText neg ds (s.bufBytesFrom s.arg0.toNat s.arg1.toNat)) →
      ∃ t, exec (.fromhex rd) s = .next t ∧ Fails .malformedInput s t) ∧
    (∀ neg ds, s.arg0.toNat + s.arg1.toNat ≤ s.cfg.bufBytes →
      IsHexText neg ds (s.bufBytesFrom s.arg0.toNat s.arg1.toNat) →
      ∃ t, exec (.fromhex rd) s = .next t ∧ WritesOrCapacity rd (norm neg (digitsValue ds)) s t)

/-- 40_construction.md R94, R95: the text of the value, lowercase, no leading zero, '-' exactly for a negative value; its
length to RES; every other byte of the buffer unchanged; BUFFER_RANGE where it does not fit. -/
def Obligations.TohexWritesTheText : Prop :=
  ∀ (rs1 : Reg) (s : State),
    HasEncoding (.tohex rs1) 0x00000004 0xFFFF0FFF ∧
    ∃ ds d text, ds ≠ [] ∧ (ds.head? = some 0 → s.reg rs1 = 0 ∧ ds = [0]) ∧
      digitsValue ds = (s.reg rs1).natAbs ∧ List.Forall₂ IsLowerDigit d ds ∧
      text = (if s.reg rs1 < 0 then minusByte :: d else d) ∧
      (s.arg0.toNat + text.length > s.cfg.bufBytes →
        ∃ t, exec (.tohex rs1) s = .next t ∧ Fails .bufferRange s t) ∧
      (s.arg0.toNat + text.length ≤ s.cfg.bufBytes →
        ∃ t, exec (.tohex rs1) s = .next t ∧ t.res = BitVec.ofNat 32 text.length ∧
          (∀ j, ∀ hj : j < text.length, t.bufByte (s.arg0.toNat + j) = text[j]) ∧
          SameBufferOutside s.arg0.toNat text.length s t ∧ SameRegs s t ∧ Succeeded false t ∧
          SameFlags s t ∧ t.dctx = s.dctx ∧ SameOutside s t)

/-- 40_construction.md R96: FROMHEX of the bytes TOHEX wrote (same offset, length RES) gives the value back. -/
def Obligations.HexTextRoundTrip : Prop :=
  ∀ (rs1 rd : Reg) (s t : State), s.cfg.Legal → Fits s (s.reg rs1) →
    exec (.tohex rs1) s = .next t → t.status.err = false →
    ∃ u, exec (.fromhex rd) { t with arg1 := t.res } = .next u ∧
      WritesReg rd (s.reg rs1) false { t with arg1 := t.res } u

/-! ## Arithmetic -/

/-- 41_arithmetic.md R100: a zero operand, or operands of one sign. -/
def Obligations.AddIsExactOffTheMixedCase : Prop :=
  ∀ (rd rs1 rs2 : Reg) (s : State),
    HasEncoding (.add rd rs1 rs2) 0x00000008 0xFFF000FF ∧
    (s.reg rs1 = 0 ∨ s.reg rs2 = 0 ∨ (s.reg rs1 < 0 ↔ s.reg rs2 < 0) →
      ∃ t, exec (.add rd rs1 rs2) s = .next t ∧ WritesOrCapacity rd (s.reg rs1 + s.reg rs2) s t)

/-- 41_arithmetic.md R101: nonzero operands of different signs. The value is one function of the operands, in every state:
the register gets it with UNDEF = 1, or the command ends with CAPACITY. -/
def Obligations.AddMixedIsAFunctionOfTheOperands : Prop :=
  ∃ f : Int → Int → Int, ∀ (rd rs1 rs2 : Reg) (s : State),
    s.reg rs1 ≠ 0 → s.reg rs2 ≠ 0 → ¬(s.reg rs1 < 0 ↔ s.reg rs2 < 0) →
    (Fits s (f (s.reg rs1) (s.reg rs2)) →
      ∃ t, exec (.add rd rs1 rs2) s = .next t ∧ WritesReg rd (f (s.reg rs1) (s.reg rs2)) true s t) ∧
    (¬ Fits s (f (s.reg rs1) (s.reg rs2)) →
      ∃ t, exec (.add rd rs1 rs2) s = .next t ∧ Fails .capacity s t)

/-- 41_arithmetic.md R102: the four branches of SUB; in every one the result is the integer difference (the rule's own
inference), judged against L; CAPACITY only where the signs differ, of operands that fit. -/
def Obligations.SubIsExact : Prop :=
  ∀ (rd rs1 rs2 : Reg) (s : State),
    HasEncoding (.sub rd rs1 rs2) 0x00000009 0xFFF000FF ∧
      ∃ t r, exec (.sub rd rs1 rs2) s = .next t ∧ WritesOrCapacity rd r s t ∧ r = s.reg rs1 - s.reg rs2 ∧
        (s.reg rs1 = s.reg rs2 → r = 0) ∧
        (s.reg rs1 ≠ s.reg rs2 → (s.reg rs1 < 0 ↔ ¬ s.reg rs2 < 0) →
          r = norm (decide (s.reg rs1 < 0)) ((s.reg rs1).natAbs + (s.reg rs2).natAbs)) ∧
        ((s.reg rs1 < 0 ↔ s.reg rs2 < 0) → (s.reg rs2).natAbs < (s.reg rs1).natAbs →
          r = norm (decide (s.reg rs1 < 0)) ((s.reg rs1).natAbs - (s.reg rs2).natAbs)) ∧
        ((s.reg rs1 < 0 ↔ s.reg rs2 < 0) → (s.reg rs1).natAbs < (s.reg rs2).natAbs →
          r = norm (decide (¬ s.reg rs1 < 0)) ((s.reg rs2).natAbs - (s.reg rs1).natAbs)) ∧
        ((s.reg rs1 < 0 ↔ s.reg rs2 < 0) → Fits s (s.reg rs1) → Fits s (s.reg rs2) → Fits s r)

/-- 41_arithmetic.md R104. -/
def Obligations.MulIsExact : Prop :=
  ∀ (rd rs1 rs2 : Reg) (s : State),
    HasEncoding (.mul rd rs1 rs2) 0x0000000A 0xFFF000FF ∧
      ∃ t, exec (.mul rd rs1 rs2) s = .next t ∧ WritesOrCapacity rd (s.reg rs1 * s.reg rs2) s t

/-- 41_arithmetic.md R105: the quotient truncated toward zero; a zero divisor is DIVISION_BY_ZERO. -/
def Obligations.DivTruncates : Prop :=
  ∀ (rd rs1 rs2 : Reg) (s : State),
    HasEncoding (.div rd rs1 rs2) 0x0000000B 0xFFF000FF ∧
    (s.reg rs2 = 0 → ∃ t, exec (.div rd rs1 rs2) s = .next t ∧ Fails .divisionByZero s t) ∧
    (s.reg rs2 ≠ 0 →
      ∃ t, exec (.div rd rs1 rs2) s = .next t ∧ WritesReg rd ((s.reg rs1).tdiv (s.reg rs2)) false s t)

/-- 41_arithmetic.md R106: the remainder with the dividend's sign; a zero divisor is DIVISION_BY_ZERO. -/
def Obligations.ModKeepsTheDividendsSign : Prop :=
  ∀ (rd rs1 rs2 : Reg) (s : State),
    HasEncoding (.mod rd rs1 rs2) 0x0000000C 0xFFF000FF ∧
    (s.reg rs2 = 0 → ∃ t, exec (.mod rd rs1 rs2) s = .next t ∧ Fails .divisionByZero s t) ∧
    (s.reg rs2 ≠ 0 →
      ∃ t r, exec (.mod rd rs1 rs2) s = .next t ∧ WritesReg rd r false s t ∧
        r.natAbs = (s.reg rs1).natAbs % (s.reg rs2).natAbs ∧ (r < 0 → s.reg rs1 < 0) ∧ (0 < r → 0 < s.reg rs1))

/-- 41_arithmetic.md R107: (a / b)·b + (a mod b) = a, |a mod b| < |b|, and a mod b is 0 or of the sign of a. -/
def Obligations.DivAndModObeyTheDivisionLaw : Prop :=
  ∀ (rd rs1 rs2 : Reg) (s t u : State), s.reg rs2 ≠ 0 →
    exec (.div rd rs1 rs2) s = .next t → exec (.mod rd rs1 rs2) s = .next u →
    t.reg rd * s.reg rs2 + u.reg rd = s.reg rs1 ∧ (u.reg rd).natAbs < (s.reg rs2).natAbs ∧
      (u.reg rd = 0 ∨ (u.reg rd < 0 ↔ s.reg rs1 < 0))

/-! ## Bitwise, shift and bit access -/

/-- 42_bitwise_shift.md R120, R121, R122: of two non-negative operands, bit by bit, at every index. -/
def Obligations.OrAndXorActBitByBit : Prop :=
  ∀ (rd rs1 rs2 : Reg) (s : State),
    HasEncoding (.or rd rs1 rs2) 0x00000010 0xFFF000FF ∧ HasEncoding (.xor rd rs1 rs2) 0x00000011 0xFFF000FF ∧
    (0 ≤ s.reg rs1 → 0 ≤ s.reg rs2 →
      (∃ t, ∃ x : Nat, exec (.or rd rs1 rs2) s = .next t ∧ WritesReg rd x false s t ∧
        ∀ j, x.testBit j = ((s.reg rs1).natAbs.testBit j || (s.reg rs2).natAbs.testBit j)) ∧
      (∃ t, ∃ x : Nat, exec (.xor rd rs1 rs2) s = .next t ∧ WritesReg rd x false s t ∧
        ∀ j, x.testBit j = ((s.reg rs1).natAbs.testBit j ^^ (s.reg rs2).natAbs.testBit j)))

/-- 42_bitwise_shift.md R120, R121: with a negative operand the result is one function of the operation and the operands
(and of the build's L), of at most L limbs, with UNDEF = 1. -/
def Obligations.OrAndXorOfANegativeAreOpen : Prop :=
  ∃ f : Nat → BitOp → Int → Int → Int, ∀ (rd rs1 rs2 : Reg) (s : State), 1 ≤ s.cfg.maxLimbs →
    s.reg rs1 < 0 ∨ s.reg rs2 < 0 →
    (Fits s (f s.cfg.maxLimbs .or (s.reg rs1) (s.reg rs2)) ∧
      ∃ t, exec (.or rd rs1 rs2) s = .next t ∧
        WritesReg rd (f s.cfg.maxLimbs .or (s.reg rs1) (s.reg rs2)) true s t) ∧
    (Fits s (f s.cfg.maxLimbs .xor (s.reg rs1) (s.reg rs2)) ∧
      ∃ t, exec (.xor rd rs1 rs2) s = .next t ∧
        WritesReg rd (f s.cfg.maxLimbs .xor (s.reg rs1) (s.reg rs2)) true s t)

/-- 42_bitwise_shift.md R123, R125: the sign kept, the magnitude times 2^c, judged against L; a count ≤ 0 changes
nothing. -/
def Obligations.ShlMultipliesByAPowerOfTwo : Prop :=
  ∀ (rd rs1 rs2 : Reg) (s : State), 1 ≤ s.cfg.maxLimbs →
    HasEncoding (.shl rd rs1 rs2) 0x00000012 0xFFF000FF ∧
      ∃ t, exec (.shl rd rs1 rs2) s = .next t ∧ WritesOrCapacity rd (s.reg rs1 * 2 ^ (s.reg rs2).toNat) s t

/-- 42_bitwise_shift.md R124, R125: the magnitude shifted, the sign kept, so the quotient by 2^c truncated toward zero; a
count ≤ 0 changes nothing. -/
def Obligations.ShrDividesByAPowerOfTwo : Prop :=
  ∀ (rd rs1 rs2 : Reg) (s : State),
    HasEncoding (.shr rd rs1 rs2) 0x00000013 0xFFF000FF ∧
      ∃ t, exec (.shr rd rs1 rs2) s = .next t ∧
        WritesReg rd ((s.reg rs1).tdiv (2 ^ (s.reg rs2).toNat)) false s t

/-- 42_bitwise_shift.md R126, R128: the highest set bit's index plus one, at most 32·L; BITLEN_ZERO for 0. (R126 adds that
32·L is below 2^31; at the largest legal L, 2^26, it is 2^31 exactly.) -/
def Obligations.BitlenIsTheHighestSetBit : Prop :=
  ∀ (rs1 : Reg) (s : State), s.cfg.Legal → Fits s (s.reg rs1) →
    HasEncoding (.bitlen rs1) 0x00000014 0xFFFF0FFF ∧
      ∃ t, ∃ b : Nat, exec (.bitlen rs1) s = .next t ∧ WritesRes (BitVec.ofNat 32 b) s t ∧ b ≤ 32 * s.cfg.maxLimbs ∧
        (s.reg rs1 = 0 → b = s.cfg.bitlenZero.val) ∧ (s.reg rs1 ≠ 0 → IsBitLength (s.reg rs1).natAbs b)

/-- 42_bitwise_shift.md R129, R131: a bit of the magnitude; OUT_OF_RANGE from index 32·limbs on. -/
def Obligations.GetbitReadsABitOfTheMagnitude : Prop :=
  ∀ (rs1 : Reg) (s : State),
    HasEncoding (.getbit rs1) 0x00000015 0xFFFF0FFF ∧
    (s.arg0.toNat ≥ 32 * limbs (s.reg rs1) → ∃ t, exec (.getbit rs1) s = .next t ∧ Fails .outOfRange s t) ∧
    (s.arg0.toNat < 32 * limbs (s.reg rs1) →
      ∃ t, exec (.getbit rs1) s = .next t ∧
        WritesRes (if (s.reg rs1).natAbs.testBit s.arg0.toNat then 1 else 0) s t)

/-- 42_bitwise_shift.md R130, R131: one bit of the magnitude set to ARG1[0], the others and the sign kept; OUT_OF_RANGE
from index 32·limbs on. -/
def Obligations.SetbitWritesOneBitOfTheMagnitude : Prop :=
  ∀ (rd : Reg) (s : State),
    HasEncoding (.setbit rd) 0x00000016 0xFFFFF0FF ∧
    (s.arg0.toNat ≥ 32 * limbs (s.reg rd) → ∃ t, exec (.setbit rd) s = .next t ∧ Fails .outOfRange s t) ∧
    (s.arg0.toNat < 32 * limbs (s.reg rd) →
      ∃ t x, exec (.setbit rd) s = .next t ∧ WritesReg rd x false s t ∧
        (x < 0 → s.reg rd < 0) ∧ (0 < x → 0 ≤ s.reg rd) ∧
        ∀ j, x.natAbs.testBit j =
          if j = s.arg0.toNat then s.arg1.getLsbD 0 else (s.reg rd).natAbs.testBit j)

/-! ## Comparison -/

/-- 43_compare.md R140, R141, R143: RES and exactly one of LT, EQ, GT, by the integer order, but for two negative values
in mode LITERAL by the order of the magnitudes. -/
def Obligations.CmpReportsTheOrder : Prop :=
  ∀ (rs1 rs2 : Reg) (s : State),
    HasEncoding (.cmp rs1 rs2) 0x00000018 0xFFF00FFF ∧
    ∃ t, exec (.cmp rs1 rs2) s = .next t ∧ Succeeded false t ∧ SameRegs s t ∧ t.dctx = s.dctx ∧ SameBuffer s t ∧
      SameOutside s t ∧
      (ComparesLess s.cfg.cmpNegMode (s.reg rs1) (s.reg rs2) →
        t.res = 0xFFFFFFFF ∧ t.status.lt = true ∧ t.status.eq = false ∧ t.status.gt = false) ∧
      (s.reg rs1 = s.reg rs2 →
        t.res = 0 ∧ t.status.lt = false ∧ t.status.eq = true ∧ t.status.gt = false) ∧
      (ComparesLess s.cfg.cmpNegMode (s.reg rs2) (s.reg rs1) →
        t.res = 1 ∧ t.status.lt = false ∧ t.status.eq = false ∧ t.status.gt = true)

/-! ## Modular exponentiation and power -/

/-- 44_expmod_pow.md R147 (with R145, R146): the closed form of EXPMOD for every sign of its operands. -/
def Obligations.ExpmodIsTheModularPower : Prop :=
  ∀ (rd rs1 rs2 rs3 : Reg) (s : State), AtIssue s →
    HasEncoding (.expmod rd rs1 rs2 rs3) 0x00000020 0xFF0000FF ∧
    (s.reg rs2 ≤ 0 → ∃ t, exec (.expmod rd rs1 rs2 rs3) s = .next t ∧ WritesReg rd 1 false s t) ∧
    (0 < s.reg rs2 → s.reg rs3 = 0 →
      ∃ t, exec (.expmod rd rs1 rs2 rs3) s = .next t ∧ Fails .divisionByZero s t) ∧
    (0 < s.reg rs2 → s.reg rs3 ≠ 0 →
      ∃ t, exec (.expmod rd rs1 rs2 rs3) s = .next t ∧
        WritesReg rd
          (norm (decide (s.reg rs1 < 0 ∧ (s.reg rs2).toNat % 2 = 1))
            ((s.reg rs1).natAbs ^ (s.reg rs2).toNat % (s.reg rs3).natAbs)) false s t)

/-- 44_expmod_pow.md R150 (with R149): 1 for an exponent ≤ 0, else the integer power, judged against L. -/
def Obligations.PowIsTheIntegerPower : Prop :=
  ∀ (rd rs1 rs2 : Reg) (s : State), AtIssue s → 1 ≤ s.cfg.maxLimbs →
    HasEncoding (.pow rd rs1 rs2) 0x00000021 0xFFF000FF ∧
      ∃ t, exec (.pow rd rs1 rs2) s = .next t ∧ WritesOrCapacity rd (s.reg rs1 ^ (s.reg rs2).toNat) s t

/-! ## Primality -/

/-- 45_primality.md R160: a candidate below 2, or even and not 2, is composite at once, with no witness requested. -/
def Obligations.IsprimeRejectsOutright : Prop :=
  ∀ (rs1 rs2 : Reg) (s : State), s.reg rs1 < 2 ∨ (s.reg rs1 ≠ 2 ∧ s.reg rs1 % 2 = 0) →
    ∃ t, exec (.isprime rs1 rs2) s = .next t ∧ WritesRes 0 s t

/-- 45_primality.md R155, R156, R158, R163, R164, with register-file witnesses (WSRC = 1): 1 when every iteration passes;
0 at the first iteration that does not; WITNESS_RANGE at the first witness outside [1, n - 1]. The verdict of an iteration
is the one the spec supplies from general knowledge (R163; log 17). -/
def Obligations.IsprimeJudgesRegisterWitnesses : Prop :=
  ∀ (rs1 rs2 : Reg) (s : State), AtIssue s → s.ctrl.wsrc = true → Testable (s.reg rs1) →
    HasEncoding (.isprime rs1 rs2) 0x00000024 0xFFF00FFF ∧
    ∃ w : Nat → Int, (∀ i, ∀ r : Reg, r.val = (rs2.val + i) % 16 → w i = s.reg r) ∧
      ((∀ i, i < s.arg0.toNat → GoodWitness (s.reg rs1) (w i)) →
        ∃ t, exec (.isprime rs1 rs2) s = .next t ∧ WritesRes 1 s t) ∧
      (∀ j, j < s.arg0.toNat → (∀ i, i < j → GoodWitness (s.reg rs1) (w i)) →
        (1 ≤ w j ∧ w j ≤ s.reg rs1 - 1 → ¬ GoodWitness (s.reg rs1) (w j) →
          ∃ t, exec (.isprime rs1 rs2) s = .next t ∧ WritesRes 0 s t) ∧
        (w j < 1 ∨ w j > s.reg rs1 - 1 →
          ∃ t, exec (.isprime rs1 rs2) s = .next t ∧ Fails .witnessRange s t))

/-- 45_primality.md R155, R156, R157 with the witness port (WSRC = 0): the first request, and what each answer leads to.
The verdict of an iteration is the one of R163 (log 17). -/
def Obligations.IsprimeJudgesPortWitnesses : Prop :=
  ∀ (rs1 rs2 : Reg) (s : State), s.ctrl.wsrc = false → Testable (s.reg rs1) →
    (AtIssue s → s.arg0.toNat = 0 → ∃ t, exec (.isprime rs1 rs2) s = .next t ∧ WritesRes 1 s t) ∧
    (AtIssue s → 0 < s.arg0.toNat →
      ∃ t, exec (.isprime rs1 rs2) s = .next t ∧ t = { s with seq := some (.waiting 0 (s.reg rs1 - 1)) } ∧
        t.busy = true ∧ t.wreq = true ∧ t.wbound = some (s.reg rs1 - 1)) ∧
    (∀ i a, s.seq = some (.answered i a) →
      (a < 1 ∨ a > s.reg rs1 - 1 → ∃ t, exec (.isprime rs1 rs2) s = .next t ∧ Fails .witnessRange s t) ∧
      (1 ≤ a → a ≤ s.reg rs1 - 1 → ¬ GoodWitness (s.reg rs1) a →
        ∃ t, exec (.isprime rs1 rs2) s = .next t ∧ WritesRes 0 s t) ∧
      (GoodWitness (s.reg rs1) a → s.arg0.toNat ≤ i + 1 →
        ∃ t, exec (.isprime rs1 rs2) s = .next t ∧ WritesRes 1 s t) ∧
      (GoodWitness (s.reg rs1) a → i + 1 < s.arg0.toNat →
        exec (.isprime rs1 rs2) s = .next { s with seq := some (.waiting (i + 1) (s.reg rs1 - 1)) }))

/-- 45_primality.md R159: for a prime p every witness in [1, p - 1] passes an iteration. So a prime is not reported
composite, from either source: an answer in range on the witness port leads to the next request or, after the last
iteration, to 1; and with register-file witnesses in range the command reports 1. The spec supplies this from general
knowledge (93 G5; log 17). -/
def Obligations.PrimesAlwaysReportProbablyPrime : Prop :=
  ∀ p : Nat, p.Prime →
    (∀ a : Int, 1 ≤ a → a ≤ (p : Int) - 1 → GoodWitness p a) ∧
    (∀ (rs1 rs2 : Reg) (s : State) (i : Nat) (a : Int), s.ctrl.wsrc = false → s.reg rs1 = p →
      s.seq = some (.answered i a) → 1 ≤ a → a ≤ (p : Int) - 1 →
      (s.arg0.toNat ≤ i + 1 → ∃ t, exec (.isprime rs1 rs2) s = .next t ∧ WritesRes 1 s t) ∧
      (i + 1 < s.arg0.toNat →
        exec (.isprime rs1 rs2) s = .next { s with seq := some (.waiting (i + 1) ((p : Int) - 1)) })) ∧
    (∀ (rs1 rs2 : Reg) (s : State), AtIssue s → s.ctrl.wsrc = true → s.reg rs1 = p →
      (∀ r : Reg, 1 ≤ s.reg r ∧ s.reg r ≤ (p : Int) - 1 ∨ (∀ i, i < s.arg0.toNat → r.val ≠ (rs2.val + i) % 16)) →
      ∃ t, exec (.isprime rs1 rs2) s = .next t ∧ WritesRes 1 s t)

/-- 45_primality.md R157; 70_reset_and_hazards.md R213, R222: a request stays outstanding through every step that is no
answer and no reset: host accesses are taken, and the block's turns change nothing. An answer lowers WREQ in its step and
is taken; a reset lowers it and abandons the command; with no request outstanding an answer is ignored. The events are the
model's (log 1, log 10). -/
def Obligations.WitnessWaitEndsOnlyByAnAnswerOrAReset : Prop :=
  (∀ (s : State) (i : Nat) (bound : Int) (rs1 rs2 : Reg),
    s.seq = some (.waiting i bound) → decode s.cmd = .ok (.isprime rs1 rs2) → Testable (s.reg rs1) →
    s.wreq = true ∧ s.wbound = some bound ∧
      (s.inputs = [] → step s = .next s) ∧
      (∀ e rest, s.inputs = e :: rest → (∀ a, e ≠ .answer a) → ¬ ResetsTheBlock e →
        ∃ t, step s = .next t ∧ t.seq = some (.waiting i bound) ∧ t.busy = true ∧ t.wreq = true ∧
          t.wbound = some bound ∧ t.inputs = rest) ∧
      (∀ rest, s.inputs = .finish :: rest ∨ s.inputs = .work :: rest → step s = .next { s with inputs := rest }) ∧
      (∀ a rest, s.inputs = .answer a :: rest →
        ∃ t, step s = .next t ∧ t.wreq = false ∧ t.busy = true ∧
          t = { s with seq := some (.answered i a), inputs := rest }) ∧
      (∀ e rest, s.inputs = e :: rest → ResetsTheBlock e →
        ∃ t, step s = .next t ∧ t.wreq = false ∧ t.busy = false ∧ t.status.done = false ∧ t.inputs = rest)) ∧
  (∀ (s : State) (a : Int) (rest : List Event), s.wreq = false → s.inputs = .answer a :: rest →
    step s = .next { s with inputs := rest })

/-! ## Digest -/

/-- 46_digest.md R170: N = p·q becomes the modulus; BAD_MODULUS where it is not positive or has fewer than 16 bits, then
CAPACITY. -/
def Obligations.DsetupEstablishesTheModulus : Prop :=
  ∀ (rs1 rs2 : Reg) (s : State),
    HasEncoding (.dsetup rs1 rs2) 0x00000028 0xFFF00FFF ∧
    (s.reg rs1 * s.reg rs2 < 2 ^ 15 → ∃ t, exec (.dsetup rs1 rs2) s = .next t ∧ Fails .badModulus s t) ∧
    (2 ^ 15 ≤ s.reg rs1 * s.reg rs2 → ¬ Fits s (s.reg rs1 * s.reg rs2) →
      ∃ t, exec (.dsetup rs1 rs2) s = .next t ∧ Fails .capacity s t) ∧
    (2 ^ 15 ≤ s.reg rs1 * s.reg rs2 → Fits s (s.reg rs1 * s.reg rs2) →
      ∃ t, exec (.dsetup rs1 rs2) s = .next t ∧ t.dctx.valid = true ∧ t.dctx.n = s.reg rs1 * s.reg rs2 ∧
        SameRegs s t ∧ Succeeded false t ∧ SameFlags s t ∧ t.res = s.res ∧ SameBuffer s t ∧ SameOutside s t)

/-- 46_digest.md R173, R175, R176; 60_exceptions.md R192: DIGEST's errors, in their order. -/
def Obligations.DigestChecksInOrder : Prop :=
  ∀ (rd rs1 : Reg) (s : State),
    HasEncoding (.digest rd rs1) 0x00000029 0xFFFF00FF ∧
    (s.dctx.valid = false → ∃ t, exec (.digest rd rs1) s = .next t ∧ Fails .digestNotConfigured s t) ∧
    (s.dctx.valid = true → s.reg rs1 < 0 → ∃ t, exec (.digest rd rs1) s = .next t ∧ Fails .badOperand s t) ∧
    (∀ m b : Nat, s.dctx.valid = true → 0 < s.reg rs1 → 0 < s.dctx.n → IsBitLength s.dctx.n.toNat m →
      IsBitLength (s.reg rs1).toNat b → b > 2 ^ (8 * (m / 16) - 1) →
      ∃ t, exec (.digest rd rs1) s = .next t ∧ Fails .messageTooLong s t)

/-- 46_digest.md R173 to R184: the digest is the accumulator after one round per chunk, the most significant first, and
the finalization round keyed on the bit length; it is below 2^n. The round constant, H_0 and the interleave are the ones
the spec supplies from general knowledge (R179 to R181; log 16). -/
def Obligations.DigestFollowsTheRounds : Prop :=
  ∀ (rd rs1 : Reg) (s : State) (m n h b k c : Nat), AtIssue s → s.dctx.valid = true → 2 ^ 15 ≤ s.dctx.n →
    0 ≤ s.reg rs1 → IsBitLength s.dctx.n.toNat m → n = 16 * (m / 16) → h = n / 2 →
    (s.reg rs1 = 0 ∧ b = s.cfg.bitlenZero.val ∨ IsBitLength (s.reg rs1).toNat b) →
    b ≤ 2 ^ (h - 1) → k = (h - b % h) % h → c = (b + k) / h →
    ∃ H : Nat → Nat, H 0 = 0 ∧
      (∀ i, i < c → H (i + 1) =
        RoundValue s.dctx.n.toNat n (H i)
          (ExpandValue h ((s.reg rs1).toNat * 2 ^ k / 2 ^ (h * (c - (i + 1))) % 2 ^ h) 15)) ∧
      RoundValue s.dctx.n.toNat n (H c) (ExpandValue h b 10) < 2 ^ n ∧
      ∃ t, exec (.digest rd rs1) s = .next t ∧
        WritesReg rd (RoundValue s.dctx.n.toNat n (H c) (ExpandValue h b 10) : Nat) false s t

/-- 46_digest.md R172. -/
def Obligations.DgetnReadsTheModulus : Prop :=
  ∀ (rd : Reg) (s : State),
    HasEncoding (.dgetn rd) 0x0000002A 0xFFFFF0FF ∧
    (s.dctx.valid = false → ∃ t, exec (.dgetn rd) s = .next t ∧ Fails .digestNotConfigured s t) ∧
    (s.dctx.valid = true → ∃ t, exec (.dgetn rd) s = .next t ∧ WritesReg rd s.dctx.n false s t)

/-! ## The host port -/

/-- 20_memory.md R60: no read has a side effect on the block's state. (The read data path and the count of busy reads are
the port's and the model's: log 7, log 13.) -/
def Obligations.ReadsHaveNoSideEffect : Prop :=
  ∀ (s : State) (addr : PortAddr) (rest : List Event), s.inputs = .read addr :: rest →
    ∃ t, step s = .next t ∧ ∃ w d, t = { s with inputs := rest, rdata := w, draws := d }

/-- 10_state.md R27, R32, R41, R42; 20_memory.md R52, R53, R63: what a read returns; RES and the buffer when idle. -/
def Obligations.ReadsReturnTheRegisterMap : Prop :=
  ∀ (s t : State) (addr : PortAddr) (rest : List Event), s.cfg.Legal → s.inputs = .read addr :: rest →
    step s = .next t →
    (wordOffset addr = 0x000 → t.rdata = 0x4D534832) ∧
    (wordOffset addr = 0x004 → t.rdata.toNat = s.cfg.maxLimbs) ∧
    (wordOffset addr = 0x008 → t.rdata.toNat = s.cfg.bufBytes) ∧
    (wordOffset addr = 0x00C →
      ∀ j, t.rdata.getLsbD j = if j = 0 then s.ctrl.irqEn else if j = 1 then s.ctrl.wsrc else false) ∧
    (wordOffset addr = 0x010 → t.rdata = s.statusWord) ∧
    (wordOffset addr = 0x014 → t.rdata = s.cmd) ∧
    (wordOffset addr = 0x018 → t.rdata = s.arg0) ∧
    (wordOffset addr = 0x01C → t.rdata = s.arg1) ∧
    (wordOffset addr = 0x020 → s.busy = false → t.rdata = s.res) ∧
    (0x024 ≤ wordOffset addr ∧ wordOffset addr < 0x10000 ∨ 0x10000 + s.cfg.bufBytes ≤ wordOffset addr →
      t.rdata = 0) ∧
    (0x10000 ≤ wordOffset addr → wordOffset addr < 0x10000 + s.cfg.bufBytes → s.busy = false →
      ∀ lane, lane < 4 → t.rdata.extractLsb' (8 * lane) 8 = s.bufByte (wordOffset addr - 0x10000 + lane))

/-- 10_state.md R33: where each field stands in STATUS; the reserved bits read 0; ERRCODE is the code of 60_exceptions.md
R190, all twelve of them listed. -/
def Obligations.StatusFieldsStandInTheirBits : Prop :=
  (errByte .none = 0x00 ∧ errByte .malformedInput = 0x01 ∧ errByte .divisionByZero = 0x02 ∧
    errByte .outOfRange = 0x03 ∧ errByte .messageTooLong = 0x04 ∧ errByte .illegalCommand = 0x10 ∧
    errByte .capacity = 0x11 ∧ errByte .bufferRange = 0x12 ∧ errByte .digestNotConfigured = 0x13 ∧
    errByte .badModulus = 0x14 ∧ errByte .badOperand = 0x15 ∧ errByte .witnessRange = 0x16) ∧
  ∀ s : State,
    s.statusWord.getLsbD 0 = s.busy ∧ s.statusWord.getLsbD 1 = s.status.done ∧
    s.statusWord.getLsbD 2 = s.status.err ∧ s.statusWord.getLsbD 3 = s.status.lt ∧
    s.statusWord.getLsbD 4 = s.status.eq ∧ s.statusWord.getLsbD 5 = s.status.gt ∧
    s.statusWord.getLsbD 6 = s.status.undef ∧ s.statusWord.getLsbD 7 = s.status.ovr ∧
    s.statusWord.getLsbD 8 = s.wreq ∧ s.statusWord.extractLsb' 9 7 = 0 ∧
    s.statusWord.extractLsb' 16 8 = errByte s.status.errcode ∧ s.statusWord.extractLsb' 24 8 = 0

/-- 20_memory.md R62; 10_state.md R31, R32, R39, R42: a write while a command runs. -/
def Obligations.BusyWritesAreRefused : Prop :=
  ∀ (s : State) (addr : PortAddr) (data : Word) (strb : Strobes) (rest : List Event), s.busy = true →
    s.inputs = .write addr data strb :: rest →
    (wordOffset addr = 0x014 ∨ wordOffset addr = 0x018 ∨ wordOffset addr = 0x01C ∨
      (wordOffset addr = 0x00C ∧ ¬(strb.getLsbD 0 = true ∧ data.getLsbD 2 = true)) ∨
      (0x10000 ≤ wordOffset addr ∧ wordOffset addr < 0x10000 + s.cfg.bufBytes) →
      step s = .next { s with status := { s.status with ovr := true }, inputs := rest }) ∧
    (wordOffset addr < 0x00C ∨ (0x020 ≤ wordOffset addr ∧ wordOffset addr < 0x10000) ∨
      0x10000 + s.cfg.bufBytes ≤ wordOffset addr → step s = .next { s with inputs := rest })

/-- 20_memory.md R55, R59; 10_state.md R28, R42: a write while idle takes exactly the strobed byte lanes of ARG0, ARG1 and
the buffer, and read-only and reserved offsets ignore it. -/
def Obligations.IdleWritesTakeTheStrobedLanes : Prop :=
  ∀ (s : State) (addr : PortAddr) (data : Word) (strb : Strobes) (rest : List Event), s.busy = false →
    s.inputs = .write addr data strb :: rest →
    (wordOffset addr = 0x018 → ∃ w, step s = .next { s with arg0 := w, inputs := rest } ∧
      ∀ lane, lane < 4 → w.extractLsb' (8 * lane) 8 =
        if strb.getLsbD lane then data.extractLsb' (8 * lane) 8 else s.arg0.extractLsb' (8 * lane) 8) ∧
    (wordOffset addr = 0x01C → ∃ w, step s = .next { s with arg1 := w, inputs := rest } ∧
      ∀ lane, lane < 4 → w.extractLsb' (8 * lane) 8 =
        if strb.getLsbD lane then data.extractLsb' (8 * lane) 8 else s.arg1.extractLsb' (8 * lane) 8) ∧
    (0x10000 ≤ wordOffset addr → wordOffset addr < 0x10000 + s.cfg.bufBytes →
      ∃ t, step s = .next t ∧ (∃ m, t = { s with buf := m, inputs := rest }) ∧
        (∀ lane, lane < 4 → t.bufByte (wordOffset addr - 0x10000 + lane) =
          if strb.getLsbD lane then data.extractLsb' (8 * lane) 8
          else s.bufByte (wordOffset addr - 0x10000 + lane)) ∧
        SameBufferOutside (wordOffset addr - 0x10000) 4 s t) ∧
    (wordOffset addr < 0x00C ∨ (0x020 ≤ wordOffset addr ∧ wordOffset addr < 0x10000) ∨
      0x10000 + s.cfg.bufBytes ≤ wordOffset addr → step s = .next { s with inputs := rest })

/-- 10_state.md R33, R35, R39; 20_memory.md R59, R62: a STATUS write clears DONE and OVR where a 1 is written to them in a
strobed lane, idle or busy, and changes nothing else. -/
def Obligations.StatusWriteClearsDoneAndOvr : Prop :=
  ∀ (s : State) (addr : PortAddr) (data : Word) (strb : Strobes) (rest : List Event), wordOffset addr = 0x010 →
    s.inputs = .write addr data strb :: rest →
    ∃ d o, step s = .next { s with status := { s.status with done := d, ovr := o }, inputs := rest } ∧
      (d = true ↔ s.status.done = true ∧ ¬(strb.getLsbD 0 = true ∧ data.getLsbD 1 = true)) ∧
      (o = true ↔ s.status.ovr = true ∧ ¬(strb.getLsbD 0 = true ∧ data.getLsbD 7 = true))

/-- 10_state.md R32; 20_memory.md R59: a CTRL write while idle that requests no soft reset. -/
def Obligations.IdleCtrlWriteSetsItsFields : Prop :=
  ∀ (s : State) (addr : PortAddr) (data : Word) (strb : Strobes) (rest : List Event), s.busy = false →
    wordOffset addr = 0x00C → s.inputs = .write addr data strb :: rest →
    (strb.getLsbD 0 = true → data.getLsbD 2 = false →
      step s = .next
        { s with ctrl := { irqEn := data.getLsbD 0, wsrc := data.getLsbD 1 }, inputs := rest }) ∧
    (strb.getLsbD 0 = false → step s = .next { s with inputs := rest })

/-- 70_reset_and_hazards.md R210 to R213; 10_state.md R45: power-on reset and soft reset, whatever the block is doing, and
the state the machine starts from. -/
def Obligations.ResetPutsEveryPieceAtItsValue : Prop :=
  AfterReset State.reset ∧
  (∀ (s : State) (rest : List Event), s.inputs = .powerOn :: rest →
    ∃ t, step s = .next t ∧ AfterReset t ∧ t.cfg = s.cfg ∧ t.inputs = rest) ∧
  (∀ (s : State) (addr : PortAddr) (data : Word) (strb : Strobes) (rest : List Event), wordOffset addr = 0x00C →
    strb.getLsbD 0 = true → data.getLsbD 2 = true → s.inputs = .write addr data strb :: rest →
    ∃ t, step s = .next t ∧ AfterReset t ∧ t.cfg = s.cfg ∧ t.inputs = rest)

/-! ## Whole-machine rules -/

/-- 10_state.md R44, 60_exceptions.md R199, R200: in every state IRQ is CTRL.IRQ_EN AND STATUS.DONE, bit 0 of CTRL and
bit 1 of STATUS as the host reads them; and it rises only by a completion, or by a CTRL write that enables it while
DONE = 1. -/
def Obligations.OnlyCompletionsRaiseTheInterrupt : Prop :=
  (∀ s : State, s.irq = (s.ctrlWord.getLsbD 0 && s.statusWord.getLsbD 1)) ∧
  (∀ s t : State, step s = .next t → s.irq = false → t.irq = true →
    (s.busy = true ∧ t.busy = false ∧ t.status.done = true) ∨
      (s.status.done = true ∧ ∃ addr data strb rest, s.inputs = .write addr data strb :: rest ∧
        wordOffset addr = 0x00C))

/-- 20_memory.md R62: while a command runs and stays running, no step changes an operand it reads, CMD, RES, the flags or
the digest context. -/
def Obligations.OperandsKeepTheirValuesWhileBusy : Prop :=
  ∀ s t : State, step s = .next t → s.busy = true → t.busy = true →
    SameRegs s t ∧ t.arg0 = s.arg0 ∧ t.arg1 = s.arg1 ∧ t.ctrl = s.ctrl ∧ t.cmd = s.cmd ∧ t.res = s.res ∧
      t.dctx = s.dctx ∧ SameFlags s t ∧ SameBuffer s t ∧ (t.status.done = true → s.status.done = true) ∧
      t.status.err = s.status.err ∧ t.status.errcode = s.status.errcode ∧ t.status.undef = s.status.undef

/-- 10_state.md R20, R21, R25, R29, R37: without a reset, a BigInt register, RES, LT/EQ/GT and the digest context change
only at the successful completion of a command that writes them. -/
def Obligations.ResultsChangeOnlyByTheirCommands : Prop :=
  ∀ s t : State, step s = .next t → t.epoch = s.epoch →
    (∀ r, t.reg r ≠ s.reg r → s.busy = true ∧ t.busy = false ∧ t.status.err = false ∧
      ∃ i, decode s.cmd = .ok i ∧ destination i = some r) ∧
    (t.res ≠ s.res → s.busy = true ∧ t.busy = false ∧ t.status.err = false ∧
      ∃ i, decode s.cmd = .ok i ∧ writesResult i = true) ∧
    (¬ SameFlags s t → s.busy = true ∧ t.busy = false ∧ t.status.err = false ∧
      ∃ rs1 rs2, decode s.cmd = .ok (.cmp rs1 rs2)) ∧
    (t.dctx ≠ s.dctx → s.busy = true ∧ t.busy = false ∧ t.status.err = false ∧
      ∃ rs1 rs2, decode s.cmd = .ok (.dsetup rs1 rs2))

/-- 70_reset_and_hazards.md R224; 10_state.md R43: how many iterations the sequencer does before the block's turn changes
nothing of what the turn leads to, and an iteration changes nothing but the sequencer's own state. -/
def Obligations.ResultsDoNotDependOnTiming : Prop :=
  ∀ s : State, s.Inv →
    blockTurn s.work = blockTurn s ∧ s.work.busy = s.busy ∧ ∃ q, s.work = { s with seq := q }

/-- Every step keeps the invariant: every register and the modulus fit L limbs (10_state.md R22; 46_digest.md R187), the
buffer keeps its canonical form within B bytes, at most one of LT, EQ, GT is set (10_state.md R37), ERR and ERRCODE agree
(R36), UNDEF is 0 after an error (R38), DONE is 0 while a command runs (R35), and a witness request is outstanding only for
an ISPRIME that began with WSRC = 0, with bound n - 1 (R40; 45_primality.md R157). -/
def Obligations.EveryStepKeepsTheInvariant : Prop := ∀ s t : State, s.Inv → step s = .next t → t.Inv

/-- The invariant holds at reset. -/
def Obligations.ResetMeetsTheInvariant : Prop := State.reset.Inv
end

