-- ==== Sys2Proof/Laws/BigInt.lean ====
section
/-!
SUPPORT. The small laws of BigInt values: bit length, sign and magnitude, limb count, and the order of 43_compare.md.
-/

namespace Sys2Proof.Machine

/-! ## Bit length -/

@[simp] theorem bitlen_zero : bitlen 0 = 0 := rfl

theorem bitlen_of_ne_zero {m : Nat} (h : m ≠ 0) : bitlen m = m.log2 + 1 := by simp [bitlen, h]

theorem lt_two_pow_bitlen (m : Nat) : m < 2 ^ bitlen m := by
  by_cases h : m = 0
  · simp [h]
  · rw [bitlen_of_ne_zero h]; exact Nat.lt_log2_self

theorem two_pow_bitlen_le {m : Nat} (h : m ≠ 0) : 2 ^ (bitlen m - 1) ≤ m := by
  rw [bitlen_of_ne_zero h]; exact Nat.log2_self_le h

theorem bitlen_pos {m : Nat} (h : m ≠ 0) : 0 < bitlen m := by rw [bitlen_of_ne_zero h]; omega

theorem bitlen_le_iff (m k : Nat) : bitlen m ≤ k ↔ m < 2 ^ k := by
  constructor
  · intro h
    exact lt_of_lt_of_le (lt_two_pow_bitlen m) (Nat.pow_le_pow_right (by norm_num) h)
  · intro h
    by_cases hm : m = 0
    · simp [hm]
    · by_contra hc
      have h1 : k ≤ bitlen m - 1 := by omega
      have h2 := two_pow_bitlen_le hm
      have h3 : 2 ^ k ≤ 2 ^ (bitlen m - 1) := Nat.pow_le_pow_right (by norm_num) h1
      omega

theorem lt_bitlen_iff (m k : Nat) : k < bitlen m ↔ 2 ^ k ≤ m := by
  have := bitlen_le_iff m k; omega

theorem bitlen_half {m : Nat} (h : m ≠ 0) : bitlen (m / 2) = bitlen m - 1 := by
  have hp := bitlen_pos h
  have h1 := lt_two_pow_bitlen m
  have h2 := two_pow_bitlen_le h
  have e : 2 ^ bitlen m = 2 * 2 ^ (bitlen m - 1) := by
    conv_lhs => rw [show bitlen m = (bitlen m - 1) + 1 by omega, pow_succ]
    ring
  apply le_antisymm
  · rw [bitlen_le_iff]; omega
  · by_contra hc
    have h3 : bitlen (m / 2) ≤ bitlen m - 2 := by omega
    rw [bitlen_le_iff] at h3
    have h4 : 1 < bitlen m := by omega
    have e2 : 2 ^ (bitlen m - 1) = 2 * 2 ^ (bitlen m - 2) := by
      conv_lhs => rw [show bitlen m - 1 = (bitlen m - 2) + 1 by omega, pow_succ]
      ring
    omega

theorem bitlen_double {m : Nat} (h : m ≠ 0) : bitlen (2 * m) = bitlen m + 1 := by
  have h1 : 2 * m ≠ 0 := by omega
  have h2 := bitlen_half h1
  have h3 := bitlen_pos h1
  rw [show 2 * m / 2 = m by omega] at h2
  omega

theorem bitlen_mul_two_pow {m : Nat} (h : m ≠ 0) (c : Nat) : bitlen (m * 2 ^ c) = bitlen m + c := by
  induction c with
  | zero => simp
  | succ c ih =>
    rw [pow_succ, show m * (2 ^ c * 2) = 2 * (m * 2 ^ c) by ring,
      bitlen_double (by positivity), ih]
    omega

/-! ## Sign, magnitude, Norm -/

@[simp] theorem mag_norm (s : Bool) (m : Nat) : mag (norm s m) = m := by
  cases s <;> simp [mag, norm]

@[simp] theorem norm_zero (s : Bool) : norm s 0 = 0 := by cases s <;> simp [norm]

@[simp] theorem norm_sgn_mag (x : Int) : norm (sgn x) (mag x) = x := by
  by_cases h : x < 0
  · have hs : sgn x = true := by simp [sgn, h]
    rw [hs]; simp only [norm, mag, if_true]; omega
  · have hs : sgn x = false := by simp [sgn]; omega
    rw [hs]; simp only [norm, mag, Bool.false_eq_true, if_false]; omega

theorem sgn_norm {s : Bool} {m : Nat} (h : m ≠ 0) : sgn (norm s m) = s := by
  cases s
  · simp [sgn, norm]
  · simp [sgn, norm]; omega

theorem norm_eq_zero_iff (s : Bool) (m : Nat) : norm s m = 0 ↔ m = 0 := by
  cases s <;> simp [norm]

@[simp] theorem mag_eq_zero_iff (x : Int) : mag x = 0 ↔ x = 0 := by simp [mag]

@[simp] theorem mag_zero : mag 0 = 0 := rfl

theorem mag_natCast (m : Nat) : mag (m : Int) = m := by simp [mag]

theorem norm_false (m : Nat) : norm false m = (m : Int) := rfl

theorem norm_true (m : Nat) : norm true m = -(m : Int) := rfl

/-! ## Limbs -/

theorem limbs_pos (x : Int) : 1 ≤ limbs x := by
  unfold limbs
  split
  · exact le_rfl
  · rename_i h
    have := bitlen_pos (m := mag x) (by simpa using h)
    omega

/-- A value fits L limbs exactly when its magnitude is below 2^(32·L). -/
theorem limbs_le_iff {k : Nat} (hk : 1 ≤ k) (x : Int) : limbs x ≤ k ↔ mag x < 2 ^ (32 * k) := by
  unfold limbs
  split
  · rename_i h; subst h; simp [hk]
  · rename_i h
    rw [← bitlen_le_iff]
    constructor <;> intro h' <;> omega

theorem limbs_eq_of_mag_eq {x y : Int} (h : mag x = mag y) : limbs x = limbs y := by
  unfold limbs
  have : x = 0 ↔ y = 0 := by rw [← mag_eq_zero_iff, ← mag_eq_zero_iff, h]
  simp [h, this]

theorem limbs_norm (s : Bool) (m : Nat) : limbs (norm s m) = limbs (m : Int) :=
  limbs_eq_of_mag_eq (by simp [mag_natCast])

theorem limbs_mono {x y : Int} (h : mag x ≤ mag y) : limbs x ≤ limbs y := by
  have hy := limbs_pos y
  rw [limbs_le_iff hy]
  exact lt_of_le_of_lt h ((limbs_le_iff hy y).1 le_rfl)

theorem mag_lt_of_limbs (x : Int) : mag x < 2 ^ (32 * limbs x) := (limbs_le_iff (limbs_pos x) x).1 le_rfl

/-- A value of more limbs has the larger magnitude. -/
theorem mag_lt_of_limbs_lt {x y : Int} (h : limbs x < limbs y) : mag x < mag y := by
  by_contra hc
  have := limbs_mono (x := y) (y := x) (by omega)
  omega

/-! ## ModOp -/

theorem modOp_zero_left (m : Int) : modOp 0 m = 0 := by simp [modOp, sgn, mag, norm]

theorem mag_modOp (p m : Int) : mag (modOp p m) = mag p % mag m := by simp [modOp]

theorem mag_modOp_lt (p : Int) {m : Int} (h : m ≠ 0) : mag (modOp p m) < mag m := by
  rw [mag_modOp]; exact Nat.mod_lt _ (Nat.pos_of_ne_zero (by simpa using h))

/-- The remainder of MOD is the truncating remainder of the integers. -/
theorem modOp_eq_tmod (p m : Int) : modOp p m = p.tmod m := by
  unfold modOp
  by_cases h : p < 0
  · have hp : p = -(mag p : Int) := by unfold mag; omega
    have hs : sgn p = true := by simp [sgn, h]
    rw [hs, norm_true]
    conv_rhs => rw [hp, Int.neg_tmod]
    rw [Int.tmod_eq_emod_of_nonneg (by positivity)]
    simp [mag, Int.emod_abs]
  · have hp : p = (mag p : Int) := by unfold mag; omega
    have hs : sgn p = false := by simp [sgn]; omega
    rw [hs, norm_false]
    conv_rhs => rw [hp]
    rw [Int.tmod_eq_emod_of_nonneg (by positivity)]
    simp [mag, Int.emod_abs]

/-! ## Order -/

theorem limb_eq_digit (a : Int) (j : Nat) :
    mag a % 2 ^ (32 * (j + 1)) = mag a % 2 ^ (32 * j) + 2 ^ (32 * j) * limb a j := by
  unfold limb
  rw [show 32 * (j + 1) = 32 * j + 32 by ring, pow_add, Nat.mod_mul]

/-- Comparing limbs from index k - 1 down compares the low k limbs as numbers. -/
theorem compareLimbs_spec (a b : Int) (k : Nat) :
    compareLimbs a b k =
      if mag a % 2 ^ (32 * k) < mag b % 2 ^ (32 * k) then -1
      else if mag a % 2 ^ (32 * k) = mag b % 2 ^ (32 * k) then 0 else 1 := by
  induction k with
  | zero => simp [compareLimbs, Nat.mod_one]
  | succ j ih =>
    have ha := limb_eq_digit a j
    have hb := limb_eq_digit b j
    have la : mag a % 2 ^ (32 * j) < 2 ^ (32 * j) := Nat.mod_lt _ (by positivity)
    have lb : mag b % 2 ^ (32 * j) < 2 ^ (32 * j) := Nat.mod_lt _ (by positivity)
    rw [ha, hb, compareLimbs, ih]
    generalize mag a % 2 ^ (32 * j) = x at *
    generalize mag b % 2 ^ (32 * j) = y at *
    generalize 2 ^ (32 * j) = p at *
    generalize limb a j = u at *
    generalize limb b j = v at *
    by_cases h1 : u > v
    · have : p * (v + 1) ≤ p * u := Nat.mul_le_mul_left _ h1
      rw [mul_add, mul_one] at this
      rw [if_pos h1, if_neg (by omega), if_neg (by omega)]
    · by_cases h2 : u < v
      · have : p * (u + 1) ≤ p * v := Nat.mul_le_mul_left _ h2
        rw [mul_add, mul_one] at this
        rw [if_neg h1, if_pos h2, if_pos (by omega)]
      · have : u = v := by omega
        subst this
        simp

/-- The length-then-limbs comparison is the comparison of magnitudes (43_compare.md R141). -/
theorem compareMagnitudes_spec (a b : Int) :
    compareMagnitudes a b = if mag a < mag b then -1 else if mag a = mag b then 0 else 1 := by
  unfold compareMagnitudes
  by_cases h : limbs a = limbs b
  · have ha := mag_lt_of_limbs a
    have hb := mag_lt_of_limbs b
    rw [if_neg (by simpa using h), compareLimbs_spec, Nat.mod_eq_of_lt ha, Nat.mod_eq_of_lt (h ▸ hb)]
  · rw [if_pos h]
    by_cases h2 : limbs a > limbs b
    · have := mag_lt_of_limbs_lt h2
      rw [if_pos h2, if_neg (by omega), if_neg (by omega)]
    · have := mag_lt_of_limbs_lt (x := a) (y := b) (by omega)
      rw [if_neg h2, if_pos this]

end Sys2Proof.Machine
end

