-- ==== Sys2Proof/Laws/Values.lean ====
section
/-!
SUPPORT. The values the arithmetic and bitwise meanings compute, as integers (spec 41_arithmetic.md, 42_bitwise_shift.md).
-/

namespace Sys2Proof.Machine

theorem sgn_eq_true_iff (x : Int) : sgn x = true ↔ x < 0 := by simp [sgn]

theorem sgn_eq_false_iff (x : Int) : sgn x = false ↔ 0 ≤ x := by simp [sgn]

theorem natCast_mag_of_nonneg {x : Int} (h : 0 ≤ x) : (mag x : Int) = x := by unfold mag; omega

theorem natCast_mag_of_neg {x : Int} (h : x < 0) : (mag x : Int) = -x := by unfold mag; omega

/-- The four branches of SUB give the integer difference in every case (41_arithmetic.md R102). -/
theorem subValue_eq (a b : Int) : subValue a b = a - b := by
  unfold subValue
  by_cases hab : a = b
  · simp [hab]
  rw [if_neg hab]
  rcases lt_or_ge a 0 with ha | ha <;> rcases lt_or_ge b 0 with hb | hb
  · have sa := (sgn_eq_true_iff a).2 ha
    have sb := (sgn_eq_true_iff b).2 hb
    have ma := natCast_mag_of_neg ha
    have mb := natCast_mag_of_neg hb
    simp only [sa, sb, ne_eq, not_true_eq_false, if_false, Bool.not_true, norm_true, norm_false]
    split <;> omega
  · have sa := (sgn_eq_true_iff a).2 ha
    have sb := (sgn_eq_false_iff b).2 hb
    have ma := natCast_mag_of_neg ha
    have mb := natCast_mag_of_nonneg hb
    rw [if_pos (by simp [sa, sb]), sa, norm_true]; omega
  · have sa := (sgn_eq_false_iff a).2 ha
    have sb := (sgn_eq_true_iff b).2 hb
    have ma := natCast_mag_of_nonneg ha
    have mb := natCast_mag_of_neg hb
    rw [if_pos (by simp [sa, sb]), sa, norm_false]; omega
  · have sa := (sgn_eq_false_iff a).2 ha
    have sb := (sgn_eq_false_iff b).2 hb
    have ma := natCast_mag_of_nonneg ha
    have mb := natCast_mag_of_nonneg hb
    simp only [sa, sb, ne_eq, not_true_eq_false, if_false, Bool.not_false, norm_true, norm_false]
    split <;> omega

/-- ADD takes the ADD_MIXED path exactly for nonzero operands of different signs (41_arithmetic.md R101). -/
theorem addIsMixed_iff (a b : Int) :
    addIsMixed a b = true ↔ a ≠ 0 ∧ b ≠ 0 ∧ (a < 0 ↔ ¬ b < 0) := by
  unfold addIsMixed
  simp only [sgn, Bool.and_eq_true, decide_eq_true_eq, bne_iff_ne, ne_eq, decide_eq_decide]
  tauto

/-- Off the ADD_MIXED path ADD gives the integer sum (41_arithmetic.md R100). -/
theorem addValue_eq {a b : Int} (h : addIsMixed a b = false) : addValue a b = a + b := by
  unfold addValue
  by_cases hb : b = 0
  · simp [hb]
  by_cases ha : a = 0
  · simp [ha, hb]
  have hs : sgn a = sgn b := by
    simpa [addIsMixed, ha, hb] using h
  rw [if_neg hb, if_neg ha, if_pos hs]
  rcases lt_or_ge a 0 with h1 | h1
  · have sa := (sgn_eq_true_iff a).2 h1
    have hb' : b < 0 := (sgn_eq_true_iff b).1 (hs ▸ sa)
    have ma := natCast_mag_of_neg h1
    have mb := natCast_mag_of_neg hb'
    rw [sa, norm_true]; omega
  · have sa := (sgn_eq_false_iff a).2 h1
    have hb' : 0 ≤ b := (sgn_eq_false_iff b).1 (hs ▸ sa)
    have ma := natCast_mag_of_nonneg h1
    have mb := natCast_mag_of_nonneg hb'
    rw [sa, norm_false]; omega

/-- On the ADD_MIXED path ADD's value is the open function (41_arithmetic.md R101). -/
theorem addValue_mixed {a b : Int} (h : addIsMixed a b = true) : addValue a b = Config.addMixed a b := by
  have h' := h
  simp only [addIsMixed, Bool.and_eq_true, decide_eq_true_eq, bne_iff_ne, ne_eq] at h'
  obtain ⟨⟨hb, ha⟩, hs⟩ := h'
  simp [addValue, ha, hb, hs]

/-- A sign and a magnitude as a product (00_scope.md R12). -/
theorem norm_eq_sign_mul (s : Bool) (m : Nat) : norm s m = (if s then -1 else 1) * (m : Int) := by
  cases s <;> simp [norm]

/-- MUL's value is the integer product (41_arithmetic.md R104). -/
theorem mul_value_eq (a b : Int) : norm (sgn a ^^ sgn b) (mag a * mag b) = a * b := by
  conv_rhs => rw [← norm_sgn_mag a, ← norm_sgn_mag b, norm_eq_sign_mul, norm_eq_sign_mul]
  rw [norm_eq_sign_mul]
  cases sgn a <;> cases sgn b <;> push_cast <;> simp

/-- DIV's value is the integer quotient truncated toward zero (41_arithmetic.md R105). -/
theorem div_value_eq (a b : Int) : norm (sgn a ^^ sgn b) (mag a / mag b) = a.tdiv b := by
  rcases lt_or_ge a 0 with ha | ha <;> rcases lt_or_ge b 0 with hb | hb
  · have ea : a = -(mag a : Int) := by rw [natCast_mag_of_neg ha]; omega
    have eb : b = -(mag b : Int) := by rw [natCast_mag_of_neg hb]; omega
    rw [(sgn_eq_true_iff a).2 ha, (sgn_eq_true_iff b).2 hb]
    conv_rhs => rw [ea, eb, Int.neg_tdiv, Int.tdiv_neg, neg_neg, ← Int.ofNat_tdiv]
    rfl
  · have ea : a = -(mag a : Int) := by rw [natCast_mag_of_neg ha]; omega
    have eb : b = (mag b : Int) := (natCast_mag_of_nonneg hb).symm
    rw [(sgn_eq_true_iff a).2 ha, (sgn_eq_false_iff b).2 hb]
    conv_rhs => rw [ea, eb, Int.neg_tdiv, ← Int.ofNat_tdiv]
    rfl
  · have ea : a = (mag a : Int) := (natCast_mag_of_nonneg ha).symm
    have eb : b = -(mag b : Int) := by rw [natCast_mag_of_neg hb]; omega
    rw [(sgn_eq_false_iff a).2 ha, (sgn_eq_true_iff b).2 hb]
    conv_rhs => rw [ea, eb, Int.tdiv_neg, ← Int.ofNat_tdiv]
    rfl
  · have ea : a = (mag a : Int) := (natCast_mag_of_nonneg ha).symm
    have eb : b = (mag b : Int) := (natCast_mag_of_nonneg hb).symm
    rw [(sgn_eq_false_iff a).2 ha, (sgn_eq_false_iff b).2 hb]
    conv_rhs => rw [ea, eb, ← Int.ofNat_tdiv]
    rfl

/-- A left shift of the magnitude is a multiplication (42_bitwise_shift.md R123). -/
theorem shl_value_eq (a : Int) (c : Nat) : norm (sgn a) (mag a * 2 ^ c) = a * 2 ^ c := by
  conv_rhs => rw [← norm_sgn_mag a, norm_eq_sign_mul]
  rw [norm_eq_sign_mul]; push_cast; ring

/-- A right shift of the magnitude is a division truncated toward zero (42_bitwise_shift.md R124). -/
theorem shr_value_eq (a : Int) (c : Nat) : norm (sgn a) (mag a / 2 ^ c) = a.tdiv (2 ^ c) := by
  have h := div_value_eq a (2 ^ c)
  have hs : sgn (2 ^ c : Int) = false := (sgn_eq_false_iff _).2 (by positivity)
  have hm : mag (2 ^ c : Int) = 2 ^ c := by simp [mag, Int.natAbs_pow]
  rw [hs, hm, Bool.xor_false] at h
  exact h

/-- The result of SHL fits L limbs exactly when bitlen + c is at most 32·L (42_bitwise_shift.md R123). -/
theorem limbs_shl_le_iff {k : Nat} (hk : 1 ≤ k) {a : Int} (ha : a ≠ 0) (c : Nat) :
    limbs (a * 2 ^ c) ≤ k ↔ bitlen (mag a) + c ≤ 32 * k := by
  rw [limbs_le_iff hk, ← bitlen_le_iff, ← shl_value_eq, mag_norm,
    bitlen_mul_two_pow (by simpa using ha)]

/-! ## Bits -/

theorem bit_eq_testBit (m i : Nat) : m / 2 ^ i % 2 = (m.testBit i).toNat := by
  rw [Nat.testBit_eq_decide_div_mod_eq]
  rcases Nat.mod_two_eq_zero_or_one (m / 2 ^ i) with h | h <;> simp [h]

/-- SETBIT changes bit i and no other bit of the magnitude (42_bitwise_shift.md R130). -/
theorem setBitTo_testBit (m i : Nat) (v : Bool) (j : Nat) :
    (setBitTo m i v).testBit j = if j = i then v else m.testBit j := by
  unfold setBitTo
  have hlow : m % 2 ^ i < 2 ^ i := Nat.mod_lt _ (by positivity)
  have e : m / 2 ^ (i + 1) * 2 ^ (i + 1) + v.toNat * 2 ^ i + m % 2 ^ i
      = 2 ^ i * (2 * (m / 2 ^ (i + 1)) + v.toNat) + m % 2 ^ i := by ring
  rw [e, Nat.testBit_two_pow_mul_add _ hlow]
  by_cases h1 : j < i
  · rw [if_pos h1, if_neg (by omega), Nat.testBit_mod_two_pow]; simp [h1]
  · rw [if_neg h1]
    by_cases h2 : j = i
    · subst h2
      rw [if_pos rfl, Nat.sub_self, Nat.testBit_zero]
      cases v <;> simp [Nat.add_mod]
    · rw [if_neg h2]
      obtain ⟨k, rfl⟩ : ∃ k, j = i + 1 + k := ⟨j - (i + 1), by omega⟩
      rw [show i + 1 + k - i = k + 1 by omega, Nat.testBit_succ,
        show (2 * (m / 2 ^ (i + 1)) + v.toNat) / 2 = m / 2 ^ (i + 1) by cases v <;> simp; omega,
        Nat.testBit_div_two_pow, show k + (i + 1) = i + 1 + k by ring]

theorem setBitTo_lt {m i k : Nat} (v : Bool) (hm : m < 2 ^ k) (hi : i < k) : setBitTo m i v < 2 ^ k := by
  apply Nat.lt_pow_two_of_testBit
  intro j hj
  rw [setBitTo_testBit, if_neg (by omega)]
  exact Nat.testBit_lt_two_pow (lt_of_lt_of_le hm (Nat.pow_le_pow_right (by norm_num) hj))

/-- The open function of OR and XOR gives a value of at most L limbs (42_bitwise_shift.md R120). -/
theorem limbs_bitopNegValue {k : Nat} (hk : 1 ≤ k) (op : BitOp) (a b : Int) : limbs (bitopNegValue k op a b) ≤ k := by
  rw [limbs_le_iff hk, bitopNegValue, mag_norm]
  exact Nat.mod_lt _ (by positivity)

end Sys2Proof.Machine
end

