-- ==== Sys2Proof/Laws/Compare.lean ====
section
/-!
SUPPORT. The order CMP computes is the order of Safety.lean (spec 43_compare.md R141, R143).
-/

namespace Sys2Proof.Machine

theorem order_of_less {mode : CmpNegMode} {a b : Int} (h : ComparesLess mode a b) : order mode a b = -1 := by
  unfold order; rw [compareMagnitudes_spec]; unfold ComparesLess at h
  rcases lt_or_ge a 0 with ha | ha <;> rcases lt_or_ge b 0 with hb | hb
  · rw [(sgn_eq_true_iff a).2 ha, (sgn_eq_true_iff b).2 hb]
    cases mode
    · rw [if_pos ⟨rfl, ha, hb⟩] at h
      simp only [mag, ne_eq, not_true_eq_false, if_false, reduceCtorEq, and_false]; omega
    · rw [if_neg (by simp)] at h
      simp only [mag, ne_eq, not_true_eq_false, if_false, and_self, if_true]; split_ifs <;> omega
  · rw [(sgn_eq_true_iff a).2 ha, (sgn_eq_false_iff b).2 hb]; simp
  · rw [if_neg (by omega)] at h; omega
  · rw [if_neg (by omega)] at h
    rw [(sgn_eq_false_iff a).2 ha, (sgn_eq_false_iff b).2 hb]
    simp only [mag, ne_eq, not_true_eq_false, if_false, Bool.false_eq_true, false_and]; split_ifs <;> omega

theorem order_self (mode : CmpNegMode) (a : Int) : order mode a a = 0 := by
  unfold order; rw [compareMagnitudes_spec]; simp

theorem order_of_greater {mode : CmpNegMode} {a b : Int} (h : ComparesLess mode b a) : order mode a b = 1 := by
  unfold order; rw [compareMagnitudes_spec]; unfold ComparesLess at h
  rcases lt_or_ge a 0 with ha | ha <;> rcases lt_or_ge b 0 with hb | hb
  · rw [(sgn_eq_true_iff a).2 ha, (sgn_eq_true_iff b).2 hb]
    cases mode
    · rw [if_pos ⟨rfl, hb, ha⟩] at h
      simp only [mag, ne_eq, not_true_eq_false, if_false, reduceCtorEq, and_false]; split_ifs <;> omega
    · rw [if_neg (by simp)] at h
      simp only [mag, ne_eq, not_true_eq_false, if_false, and_self, if_true]; split_ifs <;> omega
  · rw [if_neg (by omega)] at h; omega
  · rw [(sgn_eq_false_iff a).2 ha, (sgn_eq_true_iff b).2 hb]; simp
  · rw [if_neg (by omega)] at h
    rw [(sgn_eq_false_iff a).2 ha, (sgn_eq_false_iff b).2 hb]
    simp only [mag, ne_eq, not_true_eq_false, if_false, Bool.false_eq_true, false_and]; split_ifs <;> omega

end Sys2Proof.Machine
end

