-- ==== Sys2Proof/Laws/State.lean ====
section
/-!
SUPPORT. The state after each named update, field by field, so that no later proof unfolds a record update.
-/

namespace Sys2Proof.Machine

/-! ## writeReg -/

@[simp] theorem State.writeReg_cfg (s : State) (r : Reg) (x : Int) : (s.writeReg r x).cfg = s.cfg := rfl
@[simp] theorem State.writeReg_v (s : State) (r : Reg) (x : Int) : (s.writeReg r x).v = s.v.set r x := rfl
@[simp] theorem State.writeReg_dctx (s : State) (r : Reg) (x : Int) : (s.writeReg r x).dctx = s.dctx := rfl
@[simp] theorem State.writeReg_ctrl (s : State) (r : Reg) (x : Int) : (s.writeReg r x).ctrl = s.ctrl := rfl
@[simp] theorem State.writeReg_status (s : State) (r : Reg) (x : Int) : (s.writeReg r x).status = s.status := rfl
@[simp] theorem State.writeReg_cmd (s : State) (r : Reg) (x : Int) : (s.writeReg r x).cmd = s.cmd := rfl
@[simp] theorem State.writeReg_arg0 (s : State) (r : Reg) (x : Int) : (s.writeReg r x).arg0 = s.arg0 := rfl
@[simp] theorem State.writeReg_arg1 (s : State) (r : Reg) (x : Int) : (s.writeReg r x).arg1 = s.arg1 := rfl
@[simp] theorem State.writeReg_res (s : State) (r : Reg) (x : Int) : (s.writeReg r x).res = s.res := rfl
@[simp] theorem State.writeReg_buf (s : State) (r : Reg) (x : Int) : (s.writeReg r x).buf = s.buf := rfl
@[simp] theorem State.writeReg_seq (s : State) (r : Reg) (x : Int) : (s.writeReg r x).seq = s.seq := rfl
@[simp] theorem State.writeReg_rdata (s : State) (r : Reg) (x : Int) : (s.writeReg r x).rdata = s.rdata := rfl
@[simp] theorem State.writeReg_inputs (s : State) (r : Reg) (x : Int) : (s.writeReg r x).inputs = s.inputs := rfl
@[simp] theorem State.writeReg_epoch (s : State) (r : Reg) (x : Int) : (s.writeReg r x).epoch = s.epoch := rfl
@[simp] theorem State.writeReg_draws (s : State) (r : Reg) (x : Int) : (s.writeReg r x).draws = s.draws := rfl
@[simp] theorem State.writeReg_bufByte (s : State) (r : Reg) (x : Int) (a : Nat) : (s.writeReg r x).bufByte a = s.bufByte a := rfl

/-! ## writeRes -/

@[simp] theorem State.writeRes_cfg (s : State) (w : Word) : (s.writeRes w).cfg = s.cfg := rfl
@[simp] theorem State.writeRes_v (s : State) (w : Word) : (s.writeRes w).v = s.v := rfl
@[simp] theorem State.writeRes_dctx (s : State) (w : Word) : (s.writeRes w).dctx = s.dctx := rfl
@[simp] theorem State.writeRes_ctrl (s : State) (w : Word) : (s.writeRes w).ctrl = s.ctrl := rfl
@[simp] theorem State.writeRes_status (s : State) (w : Word) : (s.writeRes w).status = s.status := rfl
@[simp] theorem State.writeRes_cmd (s : State) (w : Word) : (s.writeRes w).cmd = s.cmd := rfl
@[simp] theorem State.writeRes_arg0 (s : State) (w : Word) : (s.writeRes w).arg0 = s.arg0 := rfl
@[simp] theorem State.writeRes_arg1 (s : State) (w : Word) : (s.writeRes w).arg1 = s.arg1 := rfl
@[simp] theorem State.writeRes_res (s : State) (w : Word) : (s.writeRes w).res = w := rfl
@[simp] theorem State.writeRes_buf (s : State) (w : Word) : (s.writeRes w).buf = s.buf := rfl
@[simp] theorem State.writeRes_seq (s : State) (w : Word) : (s.writeRes w).seq = s.seq := rfl
@[simp] theorem State.writeRes_rdata (s : State) (w : Word) : (s.writeRes w).rdata = s.rdata := rfl
@[simp] theorem State.writeRes_inputs (s : State) (w : Word) : (s.writeRes w).inputs = s.inputs := rfl
@[simp] theorem State.writeRes_epoch (s : State) (w : Word) : (s.writeRes w).epoch = s.epoch := rfl
@[simp] theorem State.writeRes_draws (s : State) (w : Word) : (s.writeRes w).draws = s.draws := rfl
@[simp] theorem State.writeRes_bufByte (s : State) (w : Word) (a : Nat) : (s.writeRes w).bufByte a = s.bufByte a := rfl
@[simp] theorem State.writeRes_reg (s : State) (w : Word) (q : Reg) : (s.writeRes w).reg q = s.reg q := rfl

/-! ## issue -/

@[simp] theorem State.issue_cfg (s : State) (w : Word) : (s.issue w).cfg = s.cfg := rfl
@[simp] theorem State.issue_v (s : State) (w : Word) : (s.issue w).v = s.v := rfl
@[simp] theorem State.issue_dctx (s : State) (w : Word) : (s.issue w).dctx = s.dctx := rfl
@[simp] theorem State.issue_ctrl (s : State) (w : Word) : (s.issue w).ctrl = s.ctrl := rfl
@[simp] theorem State.issue_status (s : State) (w : Word) : (s.issue w).status = { s.status with done := false } := rfl
@[simp] theorem State.issue_cmd (s : State) (w : Word) : (s.issue w).cmd = w := rfl
@[simp] theorem State.issue_arg0 (s : State) (w : Word) : (s.issue w).arg0 = s.arg0 := rfl
@[simp] theorem State.issue_arg1 (s : State) (w : Word) : (s.issue w).arg1 = s.arg1 := rfl
@[simp] theorem State.issue_res (s : State) (w : Word) : (s.issue w).res = s.res := rfl
@[simp] theorem State.issue_buf (s : State) (w : Word) : (s.issue w).buf = s.buf := rfl
@[simp] theorem State.issue_seq (s : State) (w : Word) : (s.issue w).seq = some .start := rfl
@[simp] theorem State.issue_rdata (s : State) (w : Word) : (s.issue w).rdata = s.rdata := rfl
@[simp] theorem State.issue_inputs (s : State) (w : Word) : (s.issue w).inputs = s.inputs := rfl
@[simp] theorem State.issue_epoch (s : State) (w : Word) : (s.issue w).epoch = s.epoch := rfl
@[simp] theorem State.issue_draws (s : State) (w : Word) : (s.issue w).draws = s.draws := rfl
@[simp] theorem State.issue_bufByte (s : State) (w : Word) (a : Nat) : (s.issue w).bufByte a = s.bufByte a := rfl
@[simp] theorem State.issue_reg (s : State) (w : Word) (q : Reg) : (s.issue w).reg q = s.reg q := rfl

/-! ## complete -/

@[simp] theorem State.complete_cfg (s : State) (u : Bool) : (s.complete u).cfg = s.cfg := rfl
@[simp] theorem State.complete_v (s : State) (u : Bool) : (s.complete u).v = s.v := rfl
@[simp] theorem State.complete_dctx (s : State) (u : Bool) : (s.complete u).dctx = s.dctx := rfl
@[simp] theorem State.complete_ctrl (s : State) (u : Bool) : (s.complete u).ctrl = s.ctrl := rfl
@[simp] theorem State.complete_status (s : State) (u : Bool) : (s.complete u).status = { s.status with done := true, err := false, undef := u, errcode := .none } := rfl
@[simp] theorem State.complete_cmd (s : State) (u : Bool) : (s.complete u).cmd = s.cmd := rfl
@[simp] theorem State.complete_arg0 (s : State) (u : Bool) : (s.complete u).arg0 = s.arg0 := rfl
@[simp] theorem State.complete_arg1 (s : State) (u : Bool) : (s.complete u).arg1 = s.arg1 := rfl
@[simp] theorem State.complete_res (s : State) (u : Bool) : (s.complete u).res = s.res := rfl
@[simp] theorem State.complete_buf (s : State) (u : Bool) : (s.complete u).buf = s.buf := rfl
@[simp] theorem State.complete_seq (s : State) (u : Bool) : (s.complete u).seq = none := rfl
@[simp] theorem State.complete_rdata (s : State) (u : Bool) : (s.complete u).rdata = s.rdata := rfl
@[simp] theorem State.complete_inputs (s : State) (u : Bool) : (s.complete u).inputs = s.inputs := rfl
@[simp] theorem State.complete_epoch (s : State) (u : Bool) : (s.complete u).epoch = s.epoch := rfl
@[simp] theorem State.complete_draws (s : State) (u : Bool) : (s.complete u).draws = s.draws := rfl
@[simp] theorem State.complete_bufByte (s : State) (u : Bool) (a : Nat) : (s.complete u).bufByte a = s.bufByte a := rfl
@[simp] theorem State.complete_reg (s : State) (u : Bool) (q : Reg) : (s.complete u).reg q = s.reg q := rfl

/-! ## fail -/

@[simp] theorem State.fail_cfg (s : State) (e : ErrCode) : (s.fail e).cfg = s.cfg := rfl
@[simp] theorem State.fail_v (s : State) (e : ErrCode) : (s.fail e).v = s.v := rfl
@[simp] theorem State.fail_dctx (s : State) (e : ErrCode) : (s.fail e).dctx = s.dctx := rfl
@[simp] theorem State.fail_ctrl (s : State) (e : ErrCode) : (s.fail e).ctrl = s.ctrl := rfl
@[simp] theorem State.fail_status (s : State) (e : ErrCode) : (s.fail e).status = { s.status with done := true, err := true, undef := false, errcode := e } := rfl
@[simp] theorem State.fail_cmd (s : State) (e : ErrCode) : (s.fail e).cmd = s.cmd := rfl
@[simp] theorem State.fail_arg0 (s : State) (e : ErrCode) : (s.fail e).arg0 = s.arg0 := rfl
@[simp] theorem State.fail_arg1 (s : State) (e : ErrCode) : (s.fail e).arg1 = s.arg1 := rfl
@[simp] theorem State.fail_res (s : State) (e : ErrCode) : (s.fail e).res = s.res := rfl
@[simp] theorem State.fail_buf (s : State) (e : ErrCode) : (s.fail e).buf = s.buf := rfl
@[simp] theorem State.fail_seq (s : State) (e : ErrCode) : (s.fail e).seq = none := rfl
@[simp] theorem State.fail_rdata (s : State) (e : ErrCode) : (s.fail e).rdata = s.rdata := rfl
@[simp] theorem State.fail_inputs (s : State) (e : ErrCode) : (s.fail e).inputs = s.inputs := rfl
@[simp] theorem State.fail_epoch (s : State) (e : ErrCode) : (s.fail e).epoch = s.epoch := rfl
@[simp] theorem State.fail_draws (s : State) (e : ErrCode) : (s.fail e).draws = s.draws := rfl
@[simp] theorem State.fail_bufByte (s : State) (e : ErrCode) (a : Nat) : (s.fail e).bufByte a = s.bufByte a := rfl
@[simp] theorem State.fail_reg (s : State) (e : ErrCode) (q : Reg) : (s.fail e).reg q = s.reg q := rfl

/-! ## writeOrder -/

@[simp] theorem State.writeOrder_cfg (s : State) (c : Int) : (s.writeOrder c).cfg = s.cfg := rfl
@[simp] theorem State.writeOrder_v (s : State) (c : Int) : (s.writeOrder c).v = s.v := rfl
@[simp] theorem State.writeOrder_dctx (s : State) (c : Int) : (s.writeOrder c).dctx = s.dctx := rfl
@[simp] theorem State.writeOrder_ctrl (s : State) (c : Int) : (s.writeOrder c).ctrl = s.ctrl := rfl
@[simp] theorem State.writeOrder_status (s : State) (c : Int) : (s.writeOrder c).status = { s.status with lt := decide (c = -1), eq := decide (c = 0), gt := decide (c = 1) } := rfl
@[simp] theorem State.writeOrder_cmd (s : State) (c : Int) : (s.writeOrder c).cmd = s.cmd := rfl
@[simp] theorem State.writeOrder_arg0 (s : State) (c : Int) : (s.writeOrder c).arg0 = s.arg0 := rfl
@[simp] theorem State.writeOrder_arg1 (s : State) (c : Int) : (s.writeOrder c).arg1 = s.arg1 := rfl
@[simp] theorem State.writeOrder_res (s : State) (c : Int) : (s.writeOrder c).res = s.res := rfl
@[simp] theorem State.writeOrder_buf (s : State) (c : Int) : (s.writeOrder c).buf = s.buf := rfl
@[simp] theorem State.writeOrder_seq (s : State) (c : Int) : (s.writeOrder c).seq = s.seq := rfl
@[simp] theorem State.writeOrder_rdata (s : State) (c : Int) : (s.writeOrder c).rdata = s.rdata := rfl
@[simp] theorem State.writeOrder_inputs (s : State) (c : Int) : (s.writeOrder c).inputs = s.inputs := rfl
@[simp] theorem State.writeOrder_epoch (s : State) (c : Int) : (s.writeOrder c).epoch = s.epoch := rfl
@[simp] theorem State.writeOrder_draws (s : State) (c : Int) : (s.writeOrder c).draws = s.draws := rfl
@[simp] theorem State.writeOrder_bufByte (s : State) (c : Int) (a : Nat) : (s.writeOrder c).bufByte a = s.bufByte a := rfl
@[simp] theorem State.writeOrder_reg (s : State) (c : Int) (q : Reg) : (s.writeOrder c).reg q = s.reg q := rfl

/-! ## refuseWrite -/

@[simp] theorem State.refuseWrite_cfg (s : State) : s.refuseWrite.cfg = s.cfg := rfl
@[simp] theorem State.refuseWrite_v (s : State) : s.refuseWrite.v = s.v := rfl
@[simp] theorem State.refuseWrite_dctx (s : State) : s.refuseWrite.dctx = s.dctx := rfl
@[simp] theorem State.refuseWrite_ctrl (s : State) : s.refuseWrite.ctrl = s.ctrl := rfl
@[simp] theorem State.refuseWrite_status (s : State) : s.refuseWrite.status = { s.status with ovr := true } := rfl
@[simp] theorem State.refuseWrite_cmd (s : State) : s.refuseWrite.cmd = s.cmd := rfl
@[simp] theorem State.refuseWrite_arg0 (s : State) : s.refuseWrite.arg0 = s.arg0 := rfl
@[simp] theorem State.refuseWrite_arg1 (s : State) : s.refuseWrite.arg1 = s.arg1 := rfl
@[simp] theorem State.refuseWrite_res (s : State) : s.refuseWrite.res = s.res := rfl
@[simp] theorem State.refuseWrite_buf (s : State) : s.refuseWrite.buf = s.buf := rfl
@[simp] theorem State.refuseWrite_seq (s : State) : s.refuseWrite.seq = s.seq := rfl
@[simp] theorem State.refuseWrite_rdata (s : State) : s.refuseWrite.rdata = s.rdata := rfl
@[simp] theorem State.refuseWrite_inputs (s : State) : s.refuseWrite.inputs = s.inputs := rfl
@[simp] theorem State.refuseWrite_epoch (s : State) : s.refuseWrite.epoch = s.epoch := rfl
@[simp] theorem State.refuseWrite_draws (s : State) : s.refuseWrite.draws = s.draws := rfl
@[simp] theorem State.refuseWrite_bufByte (s : State) (a : Nat) : s.refuseWrite.bufByte a = s.bufByte a := rfl
@[simp] theorem State.refuseWrite_reg (s : State) (q : Reg) : s.refuseWrite.reg q = s.reg q := rfl

/-! ## resetBlock -/

@[simp] theorem State.resetBlock_cfg (s : State) : s.resetBlock.cfg = s.cfg := rfl
@[simp] theorem State.resetBlock_v (s : State) : s.resetBlock.v = State.reset.v := rfl
@[simp] theorem State.resetBlock_dctx (s : State) : s.resetBlock.dctx = State.reset.dctx := rfl
@[simp] theorem State.resetBlock_ctrl (s : State) : s.resetBlock.ctrl = State.reset.ctrl := rfl
@[simp] theorem State.resetBlock_status (s : State) : s.resetBlock.status = State.reset.status := rfl
@[simp] theorem State.resetBlock_cmd (s : State) : s.resetBlock.cmd = 0 := rfl
@[simp] theorem State.resetBlock_arg0 (s : State) : s.resetBlock.arg0 = 0 := rfl
@[simp] theorem State.resetBlock_arg1 (s : State) : s.resetBlock.arg1 = 0 := rfl
@[simp] theorem State.resetBlock_res (s : State) : s.resetBlock.res = 0 := rfl
@[simp] theorem State.resetBlock_buf (s : State) : s.resetBlock.buf = [] := rfl
@[simp] theorem State.resetBlock_seq (s : State) : s.resetBlock.seq = none := rfl
@[simp] theorem State.resetBlock_rdata (s : State) : s.resetBlock.rdata = s.rdata := rfl
@[simp] theorem State.resetBlock_inputs (s : State) : s.resetBlock.inputs = s.inputs := rfl
@[simp] theorem State.resetBlock_epoch (s : State) : s.resetBlock.epoch = s.epoch + 1 := rfl
@[simp] theorem State.resetBlock_draws (s : State) : s.resetBlock.draws = s.draws := rfl

/-! ## Reading registers -/

@[simp] theorem State.writeReg_reg (s : State) (r : Reg) (x : Int) (q : Reg) :
    (s.writeReg r x).reg q = if q = r then x else s.reg q := by
  by_cases h : q = r
  · subst h; simp [State.reg, State.writeReg]
  · have h' : r.val ≠ q.val := fun e => h (Fin.ext e.symm)
    simp [State.reg, State.writeReg, h, h']

@[simp] theorem State.reset_reg (r : Reg) : State.reset.reg r = 0 := by
  simp [State.reg, State.reset]

@[simp] theorem State.resetBlock_reg (s : State) (r : Reg) : s.resetBlock.reg r = 0 := by
  simp [State.reg, State.reset]

@[simp] theorem State.resetBlock_bufByte (s : State) (a : Nat) :
    s.resetBlock.bufByte a = Config.resetByte (s.epoch + 1) a := rfl

/-! ## Views -/

theorem State.busy_eq (s : State) : s.busy = s.seq.isSome := rfl

@[simp] theorem State.complete_busy (s : State) (u : Bool) : (s.complete u).busy = false := rfl

@[simp] theorem State.fail_busy (s : State) (e : ErrCode) : (s.fail e).busy = false := rfl

@[simp] theorem State.issue_busy (s : State) (w : Word) : (s.issue w).busy = true := rfl

theorem State.wreq_eq_false_of_idle {s : State} (h : s.seq = none) : s.wreq = false := by
  simp [State.wreq, State.wbound, h]

/-- What a sequencer's move leaves unchanged: everything but the sequencer. -/
theorem State.setSeq_reg (s : State) (q : Option Sequencer) (r : Reg) : { s with seq := q }.reg r = s.reg r := rfl

end Sys2Proof.Machine
end

