-- ==== Sys2Proof/Laws/Completion.lean ====
section
/-!
SUPPORT. What each completion does, said once in the terms of Safety.lean: the meanings end in one of these.
-/

namespace Sys2Proof.Machine

theorem finishReg_writesReg (s : State) (rd : Reg) (x : Int) (u : Bool) :
    WritesReg rd x u s (s.finishReg rd x u) := by
  refine ⟨?_, ?_, ?_, ?_, rfl, rfl, ?_, ?_⟩
  · simp [State.finishReg]
  · intro r hr; simp [State.finishReg, hr]
  · exact ⟨rfl, rfl, rfl, rfl, rfl, rfl⟩
  · exact ⟨rfl, rfl, rfl⟩
  · intro a; rfl
  · exact ⟨rfl, rfl, rfl, rfl, rfl, rfl, rfl, rfl, rfl, rfl⟩

theorem finishRes_writesRes (s : State) (w : Word) : WritesRes w s (s.finishRes w) :=
  ⟨rfl, fun _ => rfl, ⟨rfl, rfl, rfl, rfl, rfl, rfl⟩, ⟨rfl, rfl, rfl⟩, rfl, fun _ => rfl,
    ⟨rfl, rfl, rfl, rfl, rfl, rfl, rfl, rfl, rfl, rfl⟩⟩

theorem fail_fails (s : State) (e : ErrCode) : Fails e s (s.fail e) :=
  ⟨rfl, rfl, rfl, rfl, rfl, rfl, fun _ => rfl, ⟨rfl, rfl, rfl⟩, rfl, rfl, fun _ => rfl,
    ⟨rfl, rfl, rfl, rfl, rfl, rfl, rfl, rfl, rfl, rfl⟩⟩

theorem fits_iff (s : State) (x : Int) : s.fits x = true ↔ Fits s x := by simp [State.fits, Fits]

theorem finishCapacity_of_fits {s : State} {x : Int} (h : Fits s x) (rd : Reg) (u : Bool) :
    s.finishCapacity rd x u = s.finishReg rd x u := by
  simp [State.finishCapacity, (fits_iff s x).2 h]

theorem finishCapacity_of_not_fits {s : State} {x : Int} (h : ¬ Fits s x) (rd : Reg) (u : Bool) :
    s.finishCapacity rd x u = s.fail .capacity := by
  have : s.fits x = false := by simpa [State.fits, Fits] using h
  simp [State.finishCapacity, this]

theorem finishCapacity_writesOrCapacity (s : State) (rd : Reg) (x : Int) :
    WritesOrCapacity rd x s (s.finishCapacity rd x false) := by
  refine ⟨fun h => ?_, fun h => ?_⟩
  · rw [finishCapacity_of_fits h]; exact finishReg_writesReg s rd x false
  · rw [finishCapacity_of_not_fits h]; exact fail_fails s .capacity

end Sys2Proof.Machine
end

