-- ==== Sys2Proof/Laws/Decode.lean ====
section
/-!
SUPPORT. The fields of a word and the word of fields are inverse (spec 30_encoding.md R70), and a register field and its
register number are inverse (R71).
-/

namespace Sys2Proof

theorem wordFields_fieldsWord (f : Fields) : wordFields (fieldsWord f) = f := by
  obtain ⟨op, rd, rs1, rs2, rs3, reserved⟩ := f
  simp only [wordFields, fieldsWord, Fields.mk.injEq]
  refine ⟨?_, ?_, ?_, ?_, ?_, ?_⟩ <;>
    (apply BitVec.eq_of_getLsbD_eq
     intro i hi
     simp only [BitVec.getLsbD_extractLsb', BitVec.getLsbD_append, hi, decide_true, Bool.true_and]
     repeat' (first | rw [if_pos (by omega)] | rw [if_neg (by omega)])
     try congr 1
     try omega)

theorem fieldsWord_wordFields (w : Word) : fieldsWord (wordFields w) = w := by
  apply BitVec.eq_of_getLsbD_eq
  intro i hi
  simp only [wordFields, fieldsWord, BitVec.getLsbD_append, BitVec.getLsbD_extractLsb']
  by_cases h1 : i < 8
  · simp [h1]
  by_cases h2 : i < 12
  · simp [h1, show i - 8 < 4 by omega, show 8 + (i - 8) = i by omega]
  by_cases h3 : i < 16
  · simp [h1, show ¬ i - 8 < 4 by omega, show i - 8 - 4 < 4 by omega, show 12 + (i - 8 - 4) = i by omega]
  by_cases h4 : i < 20
  · simp [h1, show ¬ i - 8 < 4 by omega, show ¬ i - 8 - 4 < 4 by omega, show i - 8 - 4 - 4 < 4 by omega,
      show 16 + (i - 8 - 4 - 4) = i by omega]
  by_cases h5 : i < 24
  · simp [h1, show ¬ i - 8 < 4 by omega, show ¬ i - 8 - 4 < 4 by omega, show ¬ i - 8 - 4 - 4 < 4 by omega,
      show i - 8 - 4 - 4 - 4 < 4 by omega, show 20 + (i - 8 - 4 - 4 - 4) = i by omega]
  · simp [h1, show ¬ i - 8 < 4 by omega, show ¬ i - 8 - 4 < 4 by omega, show ¬ i - 8 - 4 - 4 < 4 by omega,
      show ¬ i - 8 - 4 - 4 - 4 < 4 by omega, show i - 8 - 4 - 4 - 4 - 4 < 8 by omega,
      show 24 + (i - 8 - 4 - 4 - 4 - 4) = i by omega]

@[simp] theorem fieldReg_regField (r : Reg) : fieldReg (regField r) = r := by revert r; decide

@[simp] theorem regField_fieldReg (b : BitVec 4) : regField (fieldReg b) = b := by revert b; decide

theorem regField_zero : regField 0 = 0 := rfl

/-- Two words are ANDed field by field. -/
theorem fieldsWord_and (f g : Fields) :
    fieldsWord f &&& fieldsWord g =
      fieldsWord
        { op := f.op &&& g.op, rd := f.rd &&& g.rd, rs1 := f.rs1 &&& g.rs1, rs2 := f.rs2 &&& g.rs2,
          rs3 := f.rs3 &&& g.rs3, reserved := f.reserved &&& g.reserved } := by
  apply BitVec.eq_of_getLsbD_eq
  intro i hi
  simp only [fieldsWord, BitVec.getLsbD_and, BitVec.getLsbD_append]
  split_ifs <;> rfl

/-- A command's word under a mask, field by field (30_encoding.md R73). -/
theorem encode_and (i : Instr) (m : Word) :
    encode i &&& m =
      fieldsWord
        { op := (instrFields i).op &&& (wordFields m).op, rd := (instrFields i).rd &&& (wordFields m).rd,
          rs1 := (instrFields i).rs1 &&& (wordFields m).rs1, rs2 := (instrFields i).rs2 &&& (wordFields m).rs2,
          rs3 := (instrFields i).rs3 &&& (wordFields m).rs3,
          reserved := (instrFields i).reserved &&& (wordFields m).reserved } := by
  conv_lhs => rw [encode, ← fieldsWord_wordFields m]
  exact fieldsWord_and _ _

/-- The decoder reads a word's fields from its encoding (R70). -/
theorem decode_fieldsWord (f : Fields) : decode (fieldsWord f) = decodeFields f := by
  rw [decode, wordFields_fieldsWord]

theorem requireZero_eq_ok_iff (z : Bool) (i j : Instr) : requireZero z i = .ok j ↔ z = true ∧ i = j := by
  unfold requireZero; cases z <;> simp

/-- One row of the decoder's chain: it decodes here, or further on. -/
theorem decodeRow_eq_ok {c : Prop} [Decidable c] {z : Bool} {i j : Instr} {e : Except Illegal Instr}
    (h : (if c then requireZero z i else e) = .ok j) : (c ∧ z = true ∧ i = j) ∨ e = .ok j := by
  split_ifs at h with hc
  · rw [requireZero_eq_ok_iff] at h; exact Or.inl ⟨hc, h.1, h.2⟩
  · exact Or.inr h

end Sys2Proof
end

