-- ==== Sys2Proof/Laws/Power.lean ====
section
/-!
SUPPORT. The two square-and-multiply loops in closed form (spec 44_expmod_pow.md R147, R150), and that one iteration less
of fuel after one iteration gives the same result.
-/

namespace Sys2Proof.Machine

theorem modOp_mul_left (x y m : Int) : modOp (modOp x m * y) m = modOp (x * y) m := by
  simp only [modOp_eq_tmod]
  rw [Int.mul_tmod, Int.tmod_tmod, ← Int.mul_tmod]

theorem modOp_mul_right (x y m : Int) : modOp (x * modOp y m) m = modOp (x * y) m := by
  rw [mul_comm, modOp_mul_left, mul_comm]

theorem modOp_mul_pow (x y m : Int) (k : Nat) : modOp (x * modOp y m ^ k) m = modOp (x * y ^ k) m := by
  induction k generalizing x with
  | zero => simp
  | succ k ih =>
    rw [pow_succ, pow_succ, ← mul_assoc, ← mul_assoc, modOp_mul_right, mul_right_comm, ih, mul_right_comm]

/-- The loop of ExpMod with a positive exponent (44_expmod_pow.md R147). -/
theorem expModLoop_closed (m : Int) (fuel : Nat) (r b : Int) (e : Nat) (hf : bitlen e ≤ fuel) (he : 0 < e) :
    expModLoop m fuel r b e = modOp (r * b ^ e) m := by
  induction fuel generalizing r b e with
  | zero =>
    have := bitlen_pos (m := e) (by omega); omega
  | succ f ih =>
    have hh := bitlen_half (m := e) (by omega)
    rw [expModLoop, if_neg (by omega)]
    have hsplit : e = 2 * (e / 2) + e % 2 := by omega
    by_cases h0 : e / 2 = 0
    · have e1 : e = 1 := by omega
      subst e1
      cases f <;> simp [expModLoop]
    · rw [ih _ _ _ (by omega) (by omega), modOp_mul_pow]
      rcases Nat.mod_two_eq_zero_or_one e with h | h
      · rw [if_neg (by omega)]
        conv_rhs => rw [hsplit, h, add_zero, pow_mul, pow_two]
      · rw [if_pos h, modOp_mul_left]
        conv_rhs => rw [hsplit, h, pow_add, pow_mul, pow_one, pow_two]
        congr 1; ring

theorem expModLoop_zero (m : Int) (fuel : Nat) (r b : Int) : expModLoop m fuel r b 0 = r := by
  cases fuel <;> simp [expModLoop]

/-- One iteration does not change what the loop ends with (44_expmod_pow.md R146). -/
theorem expModLoop_iterate (m r b : Int) {e : Nat} (he : e ≠ 0) :
    expModLoop m (bitlen (e / 2)) (if e % 2 = 1 then modOp (r * b) m else r) (modOp (b * b) m) (e / 2)
      = expModLoop m (bitlen e) r b e := by
  have hp := bitlen_pos he
  rw [bitlen_half he]
  conv_rhs => rw [show bitlen e = (bitlen e - 1) + 1 by omega, expModLoop, if_neg he]

/-- ExpMod(B, E, M) for M ≠ 0 (44_expmod_pow.md R147). -/
theorem expMod_closed (b : Int) (e : Nat) (m : Int) (he : 0 < e) : expMod b e m = modOp (b ^ e) m := by
  rw [expMod, expModLoop_closed m _ _ _ _ le_rfl he, one_mul]

theorem expMod_zero (b m : Int) : expMod b 0 m = 1 := expModLoop_zero m _ 1 b

/-- The loop of POW (44_expmod_pow.md R150). -/
theorem powLoop_closed (fuel : Nat) (r b : Int) (e : Nat) (hf : bitlen e ≤ fuel) : powLoop fuel r b e = r * b ^ e := by
  induction fuel generalizing r b e with
  | zero =>
    by_cases h : e = 0
    · simp [powLoop, h]
    · have := bitlen_pos h; omega
  | succ f ih =>
    rw [powLoop]
    by_cases h : e = 0
    · simp [h]
    · have hh := bitlen_half h
      rw [if_neg h, ih _ _ _ (by omega)]
      have hsplit : e = 2 * (e / 2) + e % 2 := by omega
      rcases Nat.mod_two_eq_zero_or_one e with h2 | h2
      · rw [if_neg (by omega)]
        conv_rhs => rw [hsplit, h2, add_zero, pow_mul, pow_two]
      · rw [if_pos h2]
        conv_rhs => rw [hsplit, h2, pow_add, pow_mul, pow_one, pow_two]
        ring

/-- A power judged too large for its exponent alone does not fit (44_expmod_pow.md R150). -/
theorem limbs_of_powIsHuge {k : Nat} (hk : 1 ≤ k) {r b : Int} {e : Nat} (h : powIsHuge k r b e = true) :
    ¬ limbs (r * b ^ e) ≤ k := by
  simp only [powIsHuge, Bool.and_eq_true, decide_eq_true_eq] at h
  obtain ⟨⟨hr, hb⟩, he⟩ := h
  rw [limbs_le_iff hk, not_lt]
  have hm : mag (r * b ^ e) = mag r * mag b ^ e := by simp [mag, Int.natAbs_mul, Int.natAbs_pow]
  have h1 : 1 ≤ mag r := Nat.one_le_iff_ne_zero.2 (by simpa using hr)
  calc 2 ^ (32 * k) ≤ 2 ^ e := Nat.pow_le_pow_right (by norm_num) he.le
    _ ≤ mag b ^ e := Nat.pow_le_pow_left hb e
    _ ≤ mag r * mag b ^ e := Nat.le_mul_of_pos_left _ h1
    _ = _ := hm.symm

end Sys2Proof.Machine
end

