-- ==== Sys2Proof/Laws/Digest.lean ====
section
/-!
SUPPORT. The digest pipeline (spec 46_digest.md): the expansion's bound, one round in closed form and its bound, and that
the accumulator stays below 2^n.
-/

namespace Sys2Proof.Machine

theorem digestBlock_mod (modulus : Int) : digestBlock modulus = 2 * digestHalf modulus ∧ digestHalf modulus % 8 = 0 := by
  unfold digestHalf digestBlock; omega

theorem digestBlock_le_bitlen (modulus : Int) : digestBlock modulus ≤ bitlen (mag modulus) := by
  unfold digestBlock; omega

/-- A modulus of at least 16 bits has a block (46_digest.md R174). -/
theorem digestBlock_ge {modulus : Int} (h : 2 ^ 15 ≤ modulus) : 16 ≤ digestBlock modulus := by
  have : 16 ≤ bitlen (mag modulus) := by
    have h1 : 15 < bitlen (mag modulus) := by
      rw [lt_bitlen_iff]
      have := natCast_mag_of_nonneg (x := modulus) (by linarith)
      norm_num at h ⊢; omega
    omega
  unfold digestBlock; omega

theorem digestHalf_ge {modulus : Int} (h : 2 ^ 15 ≤ modulus) : 8 ≤ digestHalf modulus := by
  have := digestBlock_ge h; unfold digestHalf; omega

theorem expand_sum_lt (v mk c : Nat) (hmk : mk < 16) :
    ((List.range c).map (fun j => (16 * mk + v / 16 ^ j % 16) * 2 ^ (8 * j))).sum < 2 ^ (8 * c) := by
  induction c with
  | zero => simp
  | succ c ih =>
    rw [List.sum_range_succ]
    have h1 : v / 16 ^ c % 16 < 16 := Nat.mod_lt _ (by norm_num)
    have h2 : (16 * mk + v / 16 ^ c % 16) * 2 ^ (8 * c) ≤ 255 * 2 ^ (8 * c) := Nat.mul_le_mul_right _ (by omega)
    rw [show 8 * (c + 1) = 8 * c + 8 by ring, pow_add]
    omega

/-- Expand in the terms of Safety.lean (46_digest.md R179). -/
theorem expandNibbles_eq (h v mk : Nat) : expandNibbles h v mk = ExpandValue h v mk := by
  unfold expandNibbles ExpandValue
  induction h / 4 with
  | zero => rfl
  | succ c ih => rw [List.sum_range_succ, Finset.sum_range_succ, ih]

/-- The bit length of the rules is `bitlen` (46_digest.md, "bitlen"). -/
theorem bitlen_of_isBitLength {x m : Nat} (h : IsBitLength x m) : bitlen x = m := by
  obtain ⟨h1, h2, h3⟩ := h
  have a := (bitlen_le_iff x m).2 h3
  have b := (lt_bitlen_iff x (m - 1)).2 h2
  omega

/-- Expand(v, mk) has at most n bits (46_digest.md R179). -/
theorem expandNibbles_lt (modulus : Int) (v mk : Nat) (hmk : mk < 16) :
    expandNibbles (digestHalf modulus) v mk < 2 ^ digestBlock modulus := by
  have h := expand_sum_lt v mk (digestHalf modulus / 4) hmk
  have e := digestBlock_mod modulus
  rw [show 8 * (digestHalf modulus / 4) = digestBlock modulus by omega] at h
  exact h

/-- Every accumulator is below 2^n (46_digest.md R182). -/
theorem digestRound_lt (modulus : Int) {h : Nat} (y : Nat) (hh : h < 2 ^ digestBlock modulus) :
    digestRound modulus h y < 2 ^ digestBlock modulus := by
  unfold digestRound
  exact Nat.xor_lt_two_pow (Nat.mod_lt _ (by positivity)) hh

theorem digestRounds_lt (modulus : Int) (b m k i : Nat) {acc : Nat} (h : acc < 2 ^ digestBlock modulus) :
    digestRounds modulus b m k i acc < 2 ^ digestBlock modulus := by
  induction k generalizing i acc with
  | zero => exact h
  | succ k ih => exact ih (i + 1) (digestRound_lt modulus _ h)

theorem digestFrom_lt (modulus : Int) (b m i : Nat) {acc : Nat} (h : acc < 2 ^ digestBlock modulus) :
    digestFrom modulus b m i acc < 2 ^ digestBlock modulus :=
  digestRound_lt modulus _ (digestRounds_lt modulus b m _ i h)

/-- One round in closed form for a positive modulus (46_digest.md R182; 44_expmod_pow.md R147). -/
theorem digestRound_closed {modulus : Int} (hm : 0 < modulus) (h y : Nat) :
    digestRound modulus h y = RoundValue modulus.toNat (digestBlock modulus) h y := by
  unfold digestRound RoundValue roundConstant
  obtain ⟨N, rfl⟩ : ∃ N : Nat, modulus = N := ⟨modulus.toNat, by omega⟩
  simp only
  rw [expMod_closed _ _ _ (by norm_num)]
  have : ∀ x : Nat, (modOp ((x : Int) ^ 257) (N : Int)).toNat = x ^ 257 % N := by
    intro x
    rw [show ((x : Int) ^ 257) = ((x ^ 257 : Nat) : Int) by push_cast; rfl]
    rw [modOp, (sgn_eq_false_iff _).2 (Int.natCast_nonneg _), norm_false, mag_natCast, mag_natCast, Int.toNat_natCast]
  rw [this, Int.toNat_natCast]

/-- The rounds follow the recurrence of R173 from any accumulator on. -/
theorem digestRounds_recurrence (modulus : Int) (b m k i acc : Nat) :
    ∃ H : Nat → Nat, H 0 = acc ∧
      (∀ j, j < k → H (j + 1) =
        digestRound modulus (H j) (expandNibbles (digestHalf modulus)
          (messageChunk (digestHalf modulus) b m (i + j + 1)) 15)) ∧
      digestRounds modulus b m k i acc = H k := by
  induction k generalizing i acc with
  | zero => exact ⟨fun _ => acc, rfl, fun j hj => by omega, rfl⟩
  | succ k ih =>
    obtain ⟨H, h0, h1, h2⟩ := ih (i + 1) (digestRound modulus acc (expandNibbles (digestHalf modulus)
      (messageChunk (digestHalf modulus) b m (i + 1)) 15))
    refine ⟨fun j => match j with | 0 => acc | j + 1 => H j, rfl, ?_, h2⟩
    intro j hj
    cases j with
    | zero => exact h0
    | succ j =>
      have := h1 j (by omega)
      rw [show i + 1 + j + 1 = i + (j + 1) + 1 by ring] at this
      exact this

/-- One chunk round less remains after one chunk round (46_digest.md R173). -/
theorem digestFrom_iterate (modulus : Int) (b m i acc : Nat) (h : i < chunkCount (digestHalf modulus) b) :
    digestFrom modulus b m (i + 1)
        (digestRound modulus acc (expandNibbles (digestHalf modulus)
          (messageChunk (digestHalf modulus) b m (i + 1)) 15))
      = digestFrom modulus b m i acc := by
  unfold digestFrom
  conv_rhs => rw [show chunkCount (digestHalf modulus) b - i = (chunkCount (digestHalf modulus) b - (i + 1)) + 1 by omega,
    digestRounds]

/-- A value below 2^n fits wherever the modulus does (46_digest.md R187): its bit length is at most the modulus's. -/
theorem limbs_digest_le {modulus : Int} {x : Nat} (h : x < 2 ^ digestBlock modulus) (h0 : modulus ≠ 0) :
    limbs (x : Int) ≤ limbs modulus := by
  have hb := (bitlen_le_iff x _).2 h
  have hn := digestBlock_le_bitlen modulus
  have hp := limbs_pos modulus
  rw [limbs_le_iff hp, mag_natCast, ← bitlen_le_iff]
  have : limbs modulus = (bitlen (mag modulus) + 31) / 32 := by simp [limbs, h0]
  omega

end Sys2Proof.Machine
end

