-- ==== Sys2Proof/Laws/Fits.lean ====
section
/-!
SUPPORT. The values that are written to a register without a capacity check fit all the same (spec 10_state.md R22;
41_arithmetic.md R105, R106; 42_bitwise_shift.md R120, R124; 44_expmod_pow.md R145; 46_digest.md R187).
-/

namespace Sys2Proof.Machine

theorem fits_of_mag_le {s : State} {x y : Int} (h : mag x ≤ mag y) (hy : Fits s y) : Fits s x :=
  le_trans (limbs_mono h) hy

theorem fits_of_limbs_le_two {s : State} (h : s.cfg.Legal) {x : Int} (hx : limbs x ≤ 2) : Fits s x :=
  le_trans hx h.1

theorem fits_of_mag_lt {s : State} (h : s.cfg.Legal) {x : Int} (hx : mag x < 2 ^ 64) : Fits s x :=
  fits_of_limbs_le_two h ((limbs_le_iff (by norm_num) x).2 (by norm_num at hx ⊢; exact hx))

theorem fits_zero {s : State} (h : s.cfg.Legal) : Fits s 0 := fits_of_mag_lt h (by norm_num)

theorem fits_one {s : State} (h : s.cfg.Legal) : Fits s 1 := fits_of_mag_lt h (by norm_num [mag])

theorem fits_arg0Int {s : State} (h : s.cfg.Legal) : Fits s s.arg0Int := by
  apply fits_of_mag_lt h
  unfold mag State.arg0Int
  have h1 := BitVec.toInt_lt (x := s.arg0)
  have h2 := BitVec.le_toInt (x := s.arg0)
  norm_num at h1 h2 ⊢; omega

theorem fits_div {s : State} {a b : Int} (ha : Fits s a) : Fits s (norm (sgn a ^^ sgn b) (mag a / mag b)) :=
  fits_of_mag_le (by rw [mag_norm]; exact Nat.div_le_self _ _) ha

theorem fits_modOp {s : State} {a b : Int} (ha : Fits s a) : Fits s (modOp a b) :=
  fits_of_mag_le (by rw [mag_modOp]; exact Nat.mod_le _ _) ha

theorem fits_modOp_modulus {s : State} {p m : Int} (h0 : m ≠ 0) (hm : Fits s m) : Fits s (modOp p m) :=
  fits_of_mag_le (mag_modOp_lt p h0).le hm

theorem fits_iff_mag {s : State} (h : s.cfg.Legal) (x : Int) : Fits s x ↔ mag x < 2 ^ (32 * s.cfg.maxLimbs) :=
  limbs_le_iff (by have := h.1; omega) x

theorem fits_or {s : State} (h : s.cfg.Legal) {a b : Int} (ha : Fits s a) (hb : Fits s b) :
    Fits s (norm false (mag a ||| mag b)) := by
  rw [fits_iff_mag h, mag_norm]
  exact Nat.or_lt_two_pow ((fits_iff_mag h a).1 ha) ((fits_iff_mag h b).1 hb)

theorem fits_xor {s : State} (h : s.cfg.Legal) {a b : Int} (ha : Fits s a) (hb : Fits s b) :
    Fits s (norm false (mag a ^^^ mag b)) := by
  rw [fits_iff_mag h, mag_norm]
  exact Nat.xor_lt_two_pow ((fits_iff_mag h a).1 ha) ((fits_iff_mag h b).1 hb)

theorem fits_bitopNegValue {s : State} (h : s.cfg.Legal) (op : BitOp) (a b : Int) :
    Fits s (bitopNegValue s.cfg.maxLimbs op a b) := limbs_bitopNegValue (by have := h.1; omega) op a b

theorem fits_shl {s : State} (h : s.cfg.Legal) {a : Int} {c : Nat} (ha : a ≠ 0)
    (hc : bitlen (mag a) + c ≤ 32 * s.cfg.maxLimbs) : Fits s (norm (sgn a) (mag a * 2 ^ c)) := by
  rw [shl_value_eq]
  exact (limbs_shl_le_iff (by have := h.1; omega) ha c).2 hc

theorem fits_shr {s : State} {a : Int} {c : Nat} (ha : Fits s a) : Fits s (norm (sgn a) (mag a / 2 ^ c)) :=
  fits_of_mag_le (by rw [mag_norm]; exact Nat.div_le_self _ _) ha

theorem fits_setBitTo {s : State} {a : Int} {i : Nat} (v : Bool) (ha : Fits s a) (hi : i < 32 * limbs a) :
    Fits s (norm (sgn a) (setBitTo (mag a) i v)) := by
  refine le_trans ?_ ha
  rw [limbs_le_iff (limbs_pos a), mag_norm]
  exact setBitTo_lt v (mag_lt_of_limbs a) hi

theorem fits_expModLoop {s : State} {m : Int} (fuel : Nat) {r b : Int} {e : Nat} (hr : Fits s r) (hm : Fits s m)
    (h0 : e ≠ 0 → m ≠ 0) : Fits s (expModLoop m fuel r b e) := by
  induction fuel generalizing r b e with
  | zero => exact hr
  | succ f ih =>
    rw [expModLoop]
    split
    · exact hr
    · rename_i he
      apply ih
      · split
        · exact fits_modOp_modulus (h0 he) hm
        · exact hr
      · intro _; exact h0 he

theorem fits_expmodLoop_result {s : State} (h : s.Inv) (rs1 rs2 : Reg) : Fits s (s.expmodLoop rs1 rs2).1 := by
  have hs := h.sequencer
  unfold State.expmodLoop
  split
  · rename_i r b e hq
    simp only [SequencerOk, hq] at hs; exact hs
  · exact fits_one h.legal

theorem context_of_valid {s : State} (h : s.Inv) (hv : s.dctx.valid = true) : 2 ^ 15 ≤ s.dctx.n ∧ Fits s s.dctx.n := by
  have := h.context; rw [if_pos hv] at this; exact this

theorem digestLoop_lt {s : State} (h : s.Inv) : s.digestLoop.2 < 2 ^ digestBlock s.dctx.n := by
  have hs := h.sequencer
  unfold State.digestLoop
  split
  · rename_i i a hq
    simp only [SequencerOk, hq] at hs; exact hs
  · simp

theorem fits_digestFrom {s : State} (h : s.Inv) (hv : s.dctx.valid = true) (b m i : Nat) :
    Fits s ((digestFrom s.dctx.n b m i s.digestLoop.2 : Nat) : Int) := by
  obtain ⟨h1, h2⟩ := context_of_valid h hv
  exact le_trans (limbs_digest_le (digestFrom_lt _ _ _ _ (digestLoop_lt h)) (by intro h0; rw [h0] at h1; norm_num at h1)) h2

end Sys2Proof.Machine
end

