-- ==== Sys2Proof/Laws/Prime.lean ====
section
/-!
SUPPORT. The primality sequencer (spec 45_primality.md): the odd part, the squaring loop, and the verdict of one
iteration as the two congruences of R163.
-/

namespace Sys2Proof.Machine

/-! ## The odd part -/

theorem halveWhileEven_spec (fuel m : Nat) (hm : m ≠ 0) (hf : bitlen m ≤ fuel) :
    halveWhileEven fuel m % 2 = 1 ∧ m = halveWhileEven fuel m * 2 ^ (bitlen m - bitlen (halveWhileEven fuel m)) ∧
      bitlen (halveWhileEven fuel m) ≤ bitlen m := by
  induction fuel generalizing m with
  | zero => have := bitlen_pos hm; omega
  | succ f ih =>
    rw [halveWhileEven]
    by_cases h : m % 2 = 0
    · rw [if_pos h]
      have h2 : m / 2 ≠ 0 := by omega
      have hb := bitlen_half hm
      have hp := bitlen_pos hm
      obtain ⟨h3, h4, h5⟩ := ih (m / 2) h2 (by omega)
      refine ⟨h3, ?_, by omega⟩
      generalize halveWhileEven f (m / 2) = d at *
      have e : bitlen m - bitlen d = (bitlen (m / 2) - bitlen d) + 1 := by omega
      rw [e, pow_succ, ← mul_assoc, ← h4]; omega
    · rw [if_neg h]; exact ⟨by omega, by simp, le_rfl⟩

/-- d is odd and n - 1 = d·2^s with s = squareFuel n d (45_primality.md R161). -/
theorem oddPart_spec {n : Int} (hn : 2 ≤ n) :
    oddPart n % 2 = 1 ∧ (n - 1).toNat = oddPart n * 2 ^ squareFuel n (oddPart n) := by
  have h := halveWhileEven_spec (bitlen (n - 1).toNat) (n - 1).toNat (by omega) le_rfl
  exact ⟨h.1, h.2.1⟩

theorem odd_part_unique {d e k l : Nat} (hd : d % 2 = 1) (he : e % 2 = 1) (h : d * 2 ^ k = e * 2 ^ l) :
    d = e ∧ k = l := by
  induction k generalizing l with
  | zero =>
    cases l with
    | zero => simpa using h
    | succ l => rw [pow_zero, mul_one, pow_succ, ← mul_assoc] at h; omega
  | succ k ih =>
    cases l with
    | zero => rw [pow_zero, mul_one, pow_succ, ← mul_assoc] at h; omega
    | succ l =>
      rw [pow_succ, pow_succ, ← mul_assoc, ← mul_assoc] at h
      have := ih (l := l) (by omega)
      exact ⟨this.1, by omega⟩

/-! ## Values of the loop as powers -/

theorem modOp_natCast (p n : Nat) : modOp (p : Int) (n : Int) = ((p % n : Nat) : Int) := by
  simp [modOp, sgn, norm, mag]

theorem expMod_natCast (a d n : Nat) (hd : 0 < d) : expMod (a : Int) d (n : Int) = ((a ^ d % n : Nat) : Int) := by
  rw [expMod_closed _ _ _ hd, show ((a : Int) ^ d) = ((a ^ d : Nat) : Int) by push_cast; rfl, modOp_natCast]

theorem sq_value (a d n j : Nat) :
    modOp (((a ^ (d * 2 ^ j) % n : Nat) : Int) * ((a ^ (d * 2 ^ j) % n : Nat) : Int)) (n : Int)
      = ((a ^ (d * 2 ^ (j + 1)) % n : Nat) : Int) := by
  rw [← Nat.cast_mul, modOp_natCast, ← Nat.mul_mod, ← pow_add, pow_succ, ← mul_assoc, mul_two]

/-- A number all of whose prime factors are 1 mod m is 1 mod m. -/
theorem modEq_one_of_prime_factors {m : Nat} (n : Nat) (hn : n ≠ 0)
    (h : ∀ p, p.Prime → p ∣ n → p ≡ 1 [MOD m]) : n ≡ 1 [MOD m] := by
  induction n using Nat.recOnMul with
  | zero => exact absurd rfl hn
  | one => rfl
  | prime p hp => exact h p hp dvd_rfl
  | mul a b iha ihb =>
    have ha : a ≠ 0 := by rintro rfl; simp at hn
    have hb : b ≠ 0 := by rintro rfl; simp at hn
    have h1 := iha ha fun p hp hd => h p hp (hd.mul_right b)
    have h2 := ihb hb fun p hp hd => h p hp (hd.mul_left a)
    simpa using h1.mul h2

/-- a^(n-1) is never -1 modulo an odd n ≥ 3: the tracker's last value decides nothing (45_primality.md R163). -/
theorem pow_pred_ne_neg_one {n a d s : Nat} (hn : 3 ≤ n) (hd : d % 2 = 1) (hs : n - 1 = d * 2 ^ s) (hs1 : 1 ≤ s) :
    a ^ (d * 2 ^ s) % n ≠ n - 1 := by
  intro h
  have hdvd : n ∣ a ^ (d * 2 ^ s) + 1 := by
    have := Nat.div_add_mod (a ^ (d * 2 ^ s)) n
    rw [h] at this
    refine ⟨a ^ (d * 2 ^ s) / n + 1, ?_⟩
    rw [mul_add, mul_one]; omega
  have hodd : n % 2 = 1 := by
    have : 2 ∣ d * 2 ^ s := Dvd.dvd.mul_left (dvd_pow_self 2 (by omega)) d
    omega
  have key : n ≡ 1 [MOD 2 ^ (s + 1)] := by
    refine modEq_one_of_prime_factors n (by omega) fun p hp hpn => ?_
    have := Fact.mk hp
    have hp2 : p ≠ 2 := by rintro rfl; omega
    have e0 : ((a ^ (d * 2 ^ s) + 1 : Nat) : ZMod p) = 0 := by
      rw [ZMod.natCast_eq_zero_iff]; exact hpn.trans hdvd
    have e1 : ((a : ZMod p) ^ d) ^ (2 ^ s) = -1 := by
      rw [← pow_mul]; push_cast at e0; exact eq_neg_of_add_eq_zero_left e0
    have : Fact (2 < p) := ⟨lt_of_le_of_ne hp.two_le (Ne.symm hp2)⟩
    have hne : (-1 : ZMod p) ≠ 1 := ZMod.neg_one_ne_one
    have ho : orderOf ((a : ZMod p) ^ d) = 2 ^ (s + 1) :=
      orderOf_eq_prime_pow (by rw [e1]; exact hne) (by rw [pow_succ, pow_mul, e1]; norm_num)
    have hb : ((a : ZMod p) ^ d) ≠ 0 := by
      intro hz; rw [hz, zero_pow (by positivity)] at e1
      exact one_ne_zero (neg_eq_zero.1 e1.symm)
    have hdv := ZMod.orderOf_dvd_card_sub_one hb
    rw [ho] at hdv
    exact ((Nat.modEq_iff_dvd' hp.one_lt.le).2 hdv).symm
  have h3 : 2 ^ (s + 1) ∣ n - 1 := (Nat.modEq_iff_dvd' (by omega)).1 key.symm
  rw [hs, pow_succ] at h3
  have h4 : 2 ∣ d := by
    rw [mul_comm d] at h3
    exact Nat.dvd_of_mul_dvd_mul_left (by positivity) h3
  omega

/-! ## The squaring loop -/

/-- Where the squaring loop of R162 ends, from the j-th squaring on: it passes exactly when x is -1 at some later point
before the tracker is n - 1, or when it was 1 at the very start. -/
theorem squareLoop_passes {n a d s : Nat} (hn : 3 ≤ n) (hd : d % 2 = 1) (hs : n - 1 = d * 2 ^ s) (hs1 : 1 ≤ s)
    (f j : Nat) (hj : j + f = s) :
    iterationPasses (n : Int) (squareLoop n f ((a ^ (d * 2 ^ j) % n : Nat) : Int) (d * 2 ^ j)) = true ↔
      (j = 0 ∧ a ^ d % n = 1) ∨ ∃ i, j ≤ i ∧ i < s ∧ a ^ (d * 2 ^ i) % n = n - 1 := by
  induction f generalizing j with
  | zero =>
    have hjs : j = s := by omega
    subst hjs
    have hne := pow_pred_ne_neg_one (a := a) hn hd hs hs1
    have heven : d * 2 ^ j % 2 = 0 := by
      obtain ⟨k, rfl⟩ : ∃ k, j = k + 1 := ⟨j - 1, by omega⟩
      rw [pow_succ, ← mul_assoc]; omega
    simp only [squareLoop, iterationPasses, heven]
    have h1 : ((a ^ (d * 2 ^ j) % n : Nat) : Int) ≠ (n : Int) - 1 := by omega
    simp only [h1, ne_eq, not_false_eq_true, decide_true, Bool.and_self, Bool.not_true, Bool.false_eq_true,
      false_iff, not_or, not_and, not_exists]
    exact ⟨fun h => by omega, fun i h1 h2 => by omega⟩
  | succ f ih =>
    rw [squareLoop]
    have htr : ((d * 2 ^ j : Nat) : Int) ≠ (n : Int) - 1 := by
      intro h
      have h2 : d * 2 ^ j = d * 2 ^ s := by omega
      have := (odd_part_unique hd hd h2).2
      omega
    by_cases hgo : squaringGoesOn n ((a ^ (d * 2 ^ j) % n : Nat) : Int) (d * 2 ^ j) = true
    · rw [if_pos hgo, sq_value, show 2 * (d * 2 ^ j) = d * 2 ^ (j + 1) by rw [pow_succ]; ring, ih (j + 1) (by omega)]
      simp only [squaringGoesOn, Bool.and_eq_true, decide_eq_true_eq] at hgo
      obtain ⟨⟨_, hx1⟩, hx2⟩ := hgo
      constructor
      · rintro (h | ⟨i, h1, h2, h3⟩)
        · omega
        · exact Or.inr ⟨i, by omega, h2, h3⟩
      · rintro (⟨h0, h1⟩ | ⟨i, h1, h2, h3⟩)
        · subst h0; rw [pow_zero, mul_one, h1] at hx1; simp at hx1
        · right
          refine ⟨i, ?_, h2, h3⟩
          by_contra hc
          have : i = j := by omega
          subst this; omega
    · rw [if_neg hgo]
      have hgo' : ((a ^ (d * 2 ^ j) % n : Nat) : Int) = 1 ∨ ((a ^ (d * 2 ^ j) % n : Nat) : Int) = (n : Int) - 1 := by
        by_contra hc
        apply hgo
        simp only [squaringGoesOn, Bool.and_eq_true, decide_eq_true_eq]
        tauto
      rcases hgo' with h1 | h1
      · have h1' : a ^ (d * 2 ^ j) % n = 1 := by exact_mod_cast h1
        have hnm : (1 : Int) ≠ (n : Int) - 1 := by omega
        simp only [iterationPasses, h1, hnm, ne_eq, not_false_eq_true, decide_true, Bool.true_and,
          Bool.not_eq_true', decide_eq_false_iff_not]
        have hlater : ∀ i, j ≤ i → a ^ (d * 2 ^ i) % n = 1 := by
          intro i hi
          obtain ⟨k, rfl⟩ : ∃ k, i = j + k := ⟨i - j, by omega⟩
          rw [pow_add, ← mul_assoc, pow_mul, Nat.pow_mod, h1', one_pow, Nat.mod_eq_of_lt (by omega)]
        constructor
        · intro ht
          left
          have hj0 : j = 0 := by
            by_contra hc
            obtain ⟨k, rfl⟩ : ∃ k, j = k + 1 := ⟨j - 1, by omega⟩
            apply ht; rw [pow_succ, ← mul_assoc]; omega
          subst hj0
          exact ⟨rfl, by simpa using h1'⟩
        · rintro (⟨h0, _⟩ | ⟨i, h2, h3, h4⟩)
          · subst h0; omega
          · have := hlater i h2; omega
      · simp only [iterationPasses, h1, ne_eq, not_true_eq_false, decide_false, Bool.false_and, Bool.not_false,
          true_iff]
        right
        exact ⟨j, le_rfl, by omega, by omega⟩

/-- The verdict of one iteration with a witness in range is that of the two congruences (45_primality.md R163). -/
theorem iterationVerdict_ok {n : Int} (hr : rejectedOutright n = false) {a : Int} (ha : witnessOutside n a = false) :
    ∃ passed, iterationVerdict n a = .ok passed ∧ (passed = true ↔ PassesIteration n.toNat a.toNat) := by
  refine ⟨_, by rw [iterationVerdict, ha]; rfl, ?_⟩
  simp only [rejectedOutright, Bool.or_eq_false_iff, Bool.and_eq_false_iff, decide_eq_false_iff_not, not_lt,
    not_not] at hr
  obtain ⟨hn2, hodd⟩ := hr
  simp only [witnessOutside, Bool.or_eq_false_iff, decide_eq_false_iff_not, not_lt] at ha
  obtain ⟨ha1, ha2⟩ := ha
  obtain ⟨hd, hs⟩ := oddPart_spec hn2
  obtain ⟨N, rfl⟩ : ∃ N : Nat, n = N := ⟨n.toNat, by omega⟩
  obtain ⟨A, rfl⟩ : ∃ A : Nat, a = A := ⟨a.toNat, by omega⟩
  generalize oddPart N = d at *
  generalize squareFuel N d = s at *
  have hs' : N - 1 = d * 2 ^ s := by omega
  rw [expMod_natCast _ _ _ (by omega)]
  simp only [Int.toNat_natCast]
  by_cases h2 : N = 2
  · subst h2
    have hA : A = 1 := by omega
    subst hA
    have hd1 : d = 1 ∧ s = 0 := odd_part_unique hd (by norm_num) (by simpa using hs'.symm)
    obtain ⟨rfl, rfl⟩ := hd1
    constructor
    · intro _; exact ⟨1, 0, by norm_num, by norm_num, Or.inl (by norm_num)⟩
    · intro _; decide
  · have hN : 3 ≤ N := by omega
    have hs1 : 1 ≤ s := by
      by_contra hc
      have : s = 0 := by omega
      subst this
      rcases hodd with h | h
      · omega
      · simp only [mag, Int.natAbs_natCast] at h; rw [pow_zero, mul_one] at hs'; omega
    have := squareLoop_passes (a := A) hN hd hs' hs1 s 0 (by omega)
    rw [pow_zero, mul_one] at this
    rw [this]
    constructor
    · rintro (⟨_, h⟩ | ⟨i, _, h1, h3⟩)
      · exact ⟨d, s, hd, hs', Or.inl (by rw [h, Nat.mod_eq_of_lt (by omega)])⟩
      · exact ⟨d, s, hd, hs', Or.inr ⟨i, h1, h3⟩⟩
    · rintro ⟨d', s', hd', hs'', h⟩
      obtain ⟨rfl, rfl⟩ := odd_part_unique hd' hd (hs''.symm.trans hs')
      rcases h with h | ⟨i, h1, h3⟩
      · exact Or.inl ⟨rfl, by rwa [Nat.mod_eq_of_lt (show 1 < N by omega)] at h⟩
      · exact Or.inr ⟨i, Nat.zero_le _, h1, h3⟩

theorem iterationVerdict_outside {n a : Int} (ha : witnessOutside n a = true) :
    iterationVerdict n a = .error .witnessRange := by
  rw [iterationVerdict, ha]; rfl

theorem testable_iff {n : Int} : Testable n ↔ rejectedOutright n = false := by
  unfold Testable rejectedOutright mag; simp; omega

/-- An iteration passes exactly with a good witness (45_primality.md R156, R163). -/
theorem iterationVerdict_passes_iff {n a : Int} (hn : Testable n) :
    iterationVerdict n a = .ok true ↔ GoodWitness n a := by
  by_cases h : witnessOutside n a = true
  · rw [iterationVerdict_outside h]
    simp only [witnessOutside, Bool.or_eq_true, decide_eq_true_eq] at h
    unfold GoodWitness
    constructor
    · simp
    · rintro ⟨h1, h2, _⟩; omega
  · obtain ⟨p, h1, h2⟩ := iterationVerdict_ok (testable_iff.1 hn) (by simpa using h)
    simp only [witnessOutside, Bool.or_eq_true, decide_eq_true_eq, not_or, not_lt] at h
    rw [h1]; unfold GoodWitness; rw [← h2]
    constructor
    · intro h3; simp only [Except.ok.injEq] at h3; exact ⟨h.1, by omega, h3⟩
    · rintro ⟨_, _, h3⟩; rw [h3]

/-- A witness in range that is not good decides "composite" (45_primality.md R163). -/
theorem iterationVerdict_composite {n a : Int} (hn : Testable n) (h : 1 ≤ a ∧ a ≤ n - 1) (hg : ¬ GoodWitness n a) :
    iterationVerdict n a = .ok false := by
  rw [← iterationVerdict_passes_iff hn] at hg
  obtain ⟨p, h2, _⟩ := iterationVerdict_ok (testable_iff.1 hn) (a := a) (by unfold witnessOutside; simp; omega)
  rw [h2] at hg ⊢
  cases p <;> simp_all

/-- A witness out of range (45_primality.md R158). -/
theorem iterationVerdict_range {n a : Int} (h : a < 1 ∨ a > n - 1) : iterationVerdict n a = .error .witnessRange :=
  iterationVerdict_outside (by unfold witnessOutside; simp; omega)

/-- The only error of the iterations (45_primality.md R158; 60_exceptions.md R191). -/
theorem iterationVerdict_error {n a : Int} {e : ErrCode} (h : iterationVerdict n a = .error e) : e = .witnessRange := by
  unfold iterationVerdict at h
  split at h
  · exact (Except.error.inj h).symm
  · simp at h

theorem registerIterations_error {n : Int} {w : Nat → Int} {k i : Nat} {e : ErrCode}
    (h : registerIterations n w k i = .error e) : e = .witnessRange := by
  induction k generalizing i with
  | zero => simp [registerIterations] at h
  | succ k ih =>
    rw [registerIterations] at h
    split at h
    · rename_i e' he; rw [Except.error.inj h] at he; exact iterationVerdict_error he
    · simp at h
    · exact ih h

/-- The iterations before a deciding one pass, and it decides (45_primality.md R164). -/
theorem registerIterations_of_prefix {n : Int} {w : Nat → Int} {k i j : Nat} (hj : j < k)
    (hp : ∀ l, l < j → iterationVerdict n (w (i + l)) = .ok true)
    (hd : iterationVerdict n (w (i + j)) ≠ .ok true) :
    registerIterations n w k i = iterationVerdict n (w (i + j)) := by
  induction k generalizing i j with
  | zero => omega
  | succ k ih =>
    rw [registerIterations]
    cases j with
    | zero =>
      simp only [Nat.add_zero] at hd ⊢
      cases hv : iterationVerdict n (w i) with
      | error e => rfl
      | ok b =>
        cases b
        · rfl
        · exact absurd hv hd
    | succ j =>
      have h0 := hp 0 (by omega)
      rw [Nat.add_zero] at h0
      rw [h0]
      simp only
      rw [ih (i := i + 1) (j := j) (by omega)]
      · rw [show i + 1 + j = i + (j + 1) by ring]
      · intro l hl; have := hp (l + 1) (by omega); rwa [show i + (l + 1) = i + 1 + l by ring] at this
      · rwa [show i + 1 + j = i + (j + 1) by ring]

theorem registerIterations_all {n : Int} {w : Nat → Int} {k i : Nat}
    (hp : ∀ l, l < k → iterationVerdict n (w (i + l)) = .ok true) : registerIterations n w k i = .ok true := by
  induction k generalizing i with
  | zero => rfl
  | succ k ih =>
    have h0 := hp 0 (by omega)
    rw [Nat.add_zero] at h0
    rw [registerIterations, h0]
    apply ih
    intro l hl; have := hp (l + 1) (by omega); rwa [show i + (l + 1) = i + 1 + l by ring] at this

end Sys2Proof.Machine
end

