-- ==== Sys2Proof/Laws/Exec.lean ====
section
/-!
SUPPORT. Everything a command can do, said once: `exec` always answers a next state, and it is one of a few shapes.
-/

namespace Sys2Proof.Machine

/-- The shapes of what `exec i s` answers. -/
inductive ExecShape (i : Instr) (s : State) : State → Prop where
  /-- An error completion with a code the command can report (60_exceptions.md R191, R194). -/
  | fail (e : ErrCode) (he : e ∈ reportable i) : ExecShape i s (s.fail e)
  /-- A register write of a value that fits from every state of the invariant (R22); UNDEF can be 1 only for ADD, OR and
  XOR (10_state.md R46). -/
  | reg (rd : Reg) (x : Int) (u : Bool) (hd : destination i = some rd) (hw : writesResult i = false)
      (hu : u = true → ∃ a b c, i = .add a b c ∨ i = .or a b c ∨ i = .xor a b c)
      (hf : s.Inv → Fits s x) : ExecShape i s (s.finishReg rd x u)
  /-- A result in RES alone. -/
  | res (w : Word) (hw : writesResult i = true) (hd : destination i = none) : ExecShape i s (s.finishRes w)
  /-- TOHEX: text into the buffer, inside it, and its length to RES. -/
  | text (rs1 : Reg) (t : List Byte) (hi : i = .tohex rs1) (hb : s.arg0Nat + t.length ≤ s.cfg.bufBytes)
      (ht : t = hexString (s.reg rs1)) :
      ExecShape i s
        ({ s with buf := Memory.setBytes s.buf s.arg0Nat t }.finishRes (BitVec.ofNat 32 t.length))
  /-- CMP: the flags and RES. -/
  | order (rs1 rs2 : Reg) (c : Int) (hi : i = .cmp rs1 rs2) (hc : c = order s.cfg.cmpNegMode (s.reg rs1) (s.reg rs2)) :
      ExecShape i s ((s.writeOrder c).finishRes (orderWord c))
  /-- DSETUP: the digest context. -/
  | context (rs1 rs2 : Reg) (n : Int) (hi : i = .dsetup rs1 rs2) (hn : 0 < n ∧ 16 ≤ bitlen (mag n)) (hf : Fits s n) :
      ExecShape i s ({ s with dctx := { valid := true, n := n } }.complete false)
  /-- ISPRIME: a witness request (45_primality.md R156, R157). -/
  | request (rs1 rs2 : Reg) (k : Nat) (hi : i = .isprime rs1 rs2) (hs : s.ctrl.wsrc = false) (hk : k < s.arg0Nat) :
      ExecShape i s { s with seq := some (.waiting k (s.reg rs1 - 1)) }
  /-- ISPRIME: the wait for an answer (45_primality.md R157). -/
  | wait (rs1 rs2 : Reg) (k : Nat) (bound : Int) (hi : i = .isprime rs1 rs2) (hs : s.seq = some (.waiting k bound)) :
      ExecShape i s s

theorem finishCapacity_shape {i : Instr} {s : State} (rd : Reg) (x : Int) (u : Bool)
    (hc : .capacity ∈ reportable i) (hd : destination i = some rd) (hw : writesResult i = false)
    (hu : u = true → ∃ a b c, i = .add a b c ∨ i = .or a b c ∨ i = .xor a b c) :
    ExecShape i s (s.finishCapacity rd x u) := by
  unfold State.finishCapacity
  split
  · rename_i h; exact .reg rd x u hd hw hu fun _ => (fits_iff s x).1 h
  · exact .fail .capacity hc

theorem primeFrom_shape (rs1 rs2 : Reg) (s : State) (k : Nat) :
    ExecShape (.isprime rs1 rs2) s (s.primeFrom (s.reg rs1) rs2 k) := by
  unfold State.primeFrom
  split
  · unfold State.reportIterations
    split
    · rename_i e he; rw [registerIterations_error he]; exact .fail _ (by simp [reportable])
    · exact .res _ rfl rfl
  · split
    · rename_i h1 h2; exact .request rs1 rs2 k rfl (by simpa using h1) h2
    · exact .res _ rfl rfl

theorem primeAfter_shape (rs1 rs2 : Reg) (s : State) (k : Nat) (passed : Bool) :
    ExecShape (.isprime rs1 rs2) s (s.primeAfter (s.reg rs1) rs2 k passed) := by
  unfold State.primeAfter
  split
  · exact primeFrom_shape rs1 rs2 s (k + 1)
  · exact .res _ rfl rfl

/-- The inversion lemma of `exec`: it never stops the machine, and what it answers has one of the shapes. -/
theorem exec_shape (i : Instr) (s : State) : ∃ t, exec i s = .next t ∧ ExecShape i s t := by
  cases i with
  | mov rd rs1 => exact ⟨_, rfl, .reg rd _ _ rfl rfl (by simp) (fun h => h.regs rs1)⟩
  | fromint rd => exact ⟨_, rfl, .reg rd _ _ rfl rfl (by simp) (fun h => fits_arg0Int h.legal)⟩
  | fromhex rd =>
    simp only [exec, execFromhex]
    split
    · exact ⟨_, rfl, .fail _ (by simp [reportable])⟩
    · split
      · exact ⟨_, rfl, .fail _ (by simp [reportable])⟩
      · exact ⟨_, rfl, finishCapacity_shape rd _ _ (by simp [reportable]) rfl rfl (by simp)⟩
  | tohex rs1 =>
    simp only [exec, execTohex]
    split
    · exact ⟨_, rfl, .fail _ (by simp [reportable])⟩
    · exact ⟨_, rfl, .text rs1 _ rfl (by omega) rfl⟩
  | add rd rs1 rs2 =>
    exact ⟨_, rfl, finishCapacity_shape rd _ _ (by simp [reportable]) rfl rfl fun _ => ⟨rd, rs1, rs2, by simp⟩⟩
  | sub rd rs1 rs2 => exact ⟨_, rfl, finishCapacity_shape rd _ _ (by simp [reportable]) rfl rfl (by simp)⟩
  | mul rd rs1 rs2 => exact ⟨_, rfl, finishCapacity_shape rd _ _ (by simp [reportable]) rfl rfl (by simp)⟩
  | div rd rs1 rs2 =>
    simp only [exec, execDiv]
    split
    · exact ⟨_, rfl, .fail _ (by simp [reportable])⟩
    · exact ⟨_, rfl, .reg rd _ _ rfl rfl (by simp) (fun h => fits_div (h.regs rs1))⟩
  | mod rd rs1 rs2 =>
    simp only [exec, execMod]
    split
    · exact ⟨_, rfl, .fail _ (by simp [reportable])⟩
    · exact ⟨_, rfl, .reg rd _ _ rfl rfl (by simp) (fun h => fits_modOp (h.regs rs1))⟩
  | or rd rs1 rs2 =>
    simp only [exec, execOr]
    split
    · exact ⟨_, rfl, .reg rd _ _ rfl rfl (fun _ => ⟨rd, rs1, rs2, by simp⟩) (fun h => fits_bitopNegValue h.legal _ _ _)⟩
    · exact ⟨_, rfl, .reg rd _ _ rfl rfl (by simp) (fun h => fits_or h.legal (h.regs rs1) (h.regs rs2))⟩
  | xor rd rs1 rs2 =>
    simp only [exec, execXor]
    split
    · exact ⟨_, rfl, .reg rd _ _ rfl rfl (fun _ => ⟨rd, rs1, rs2, by simp⟩) (fun h => fits_bitopNegValue h.legal _ _ _)⟩
    · exact ⟨_, rfl, .reg rd _ _ rfl rfl (by simp) (fun h => fits_xor h.legal (h.regs rs1) (h.regs rs2))⟩
  | shl rd rs1 rs2 =>
    simp only [exec, execShl]
    split
    · exact ⟨_, rfl, finishCapacity_shape rd _ _ (by simp [reportable]) rfl rfl (by simp)⟩
    · split
      · exact ⟨_, rfl, finishCapacity_shape rd _ _ (by simp [reportable]) rfl rfl (by simp)⟩
      · split
        · exact ⟨_, rfl, .reg rd _ _ rfl rfl (by simp) (fun h => fits_shl h.legal ‹_› ‹_›)⟩
        · exact ⟨_, rfl, .fail _ (by simp [reportable])⟩
  | shr rd rs1 rs2 =>
    simp only [exec, execShr]
    split
    · exact ⟨_, rfl, .reg rd _ _ rfl rfl (by simp) (fun h => h.regs rs1)⟩
    · split
      · exact ⟨_, rfl, .reg rd _ _ rfl rfl (by simp) (fun h => fits_zero h.legal)⟩
      · exact ⟨_, rfl, .reg rd _ _ rfl rfl (by simp) (fun h => fits_shr (h.regs rs1))⟩
  | bitlen rs1 => exact ⟨_, rfl, .res _ rfl rfl⟩
  | getbit rs1 =>
    simp only [exec, execGetbit]
    split
    · exact ⟨_, rfl, .fail _ (by simp [reportable])⟩
    · exact ⟨_, rfl, .res _ rfl rfl⟩
  | setbit rd =>
    simp only [exec, execSetbit]
    split
    · exact ⟨_, rfl, .fail _ (by simp [reportable])⟩
    · exact ⟨_, rfl, .reg rd _ _ rfl rfl (by simp) (fun h => fits_setBitTo _ (h.regs rd) (by omega))⟩
  | cmp rs1 rs2 => exact ⟨_, rfl, .order rs1 rs2 _ rfl rfl⟩
  | expmod rd rs1 rs2 rs3 =>
    simp only [exec, execExpmod]
    split
    · exact ⟨_, rfl, .fail _ (by simp [reportable])⟩
    · exact ⟨_, rfl, .reg rd _ _ rfl rfl (by simp) (fun h => fits_expModLoop _ (fits_expmodLoop_result h rs1 rs2) (h.regs rs3) (by tauto))⟩
  | pow rd rs1 rs2 =>
    simp only [exec, execPow]
    split
    · exact ⟨_, rfl, .fail _ (by simp [reportable])⟩
    · exact ⟨_, rfl, finishCapacity_shape rd _ _ (by simp [reportable]) rfl rfl (by simp)⟩
  | isprime rs1 rs2 =>
    simp only [exec, execIsprime]
    split
    · exact ⟨_, rfl, .res _ rfl rfl⟩
    · split
      · rename_i hs; exact ⟨_, rfl, .wait rs1 rs2 _ _ rfl hs⟩
      · split
        · rename_i h; rw [iterationVerdict_error h]; exact ⟨_, rfl, .fail _ (by simp [reportable])⟩
        · exact ⟨_, rfl, primeAfter_shape rs1 rs2 s _ _⟩
      · exact ⟨_, rfl, primeAfter_shape rs1 rs2 s _ _⟩
      · exact ⟨_, rfl, primeFrom_shape rs1 rs2 s _⟩
      · exact ⟨_, rfl, primeFrom_shape rs1 rs2 s _⟩
  | dsetup rs1 rs2 =>
    simp only [exec, execDsetup]
    split
    · exact ⟨_, rfl, .fail _ (by simp [reportable])⟩
    · rename_i h1
      split
      · rename_i h2
        exact ⟨_, rfl, .context rs1 rs2 _ rfl (by omega) ((fits_iff s _).1 h2)⟩
      · exact ⟨_, rfl, .fail _ (by simp [reportable])⟩
  | digest rd rs1 =>
    simp only [exec, execDigest]
    split
    · rename_i e he
      refine ⟨_, rfl, .fail _ ?_⟩
      unfold State.digestError at he
      split at he
      · simp only [Option.some.injEq] at he; simp [reportable, ← he]
      · split at he
        · simp only [Option.some.injEq] at he; simp [reportable, ← he]
        · split at he
          · simp only [Option.some.injEq] at he; simp [reportable, ← he]
          · simp at he
    · exact ⟨_, rfl, .reg rd _ _ rfl rfl (by simp) (fun h => fits_digestFrom h (by by_contra hv; simp_all [State.digestError]) _ _ _)⟩
  | dgetn rd =>
    simp only [exec, execDgetn]
    split
    · exact ⟨_, rfl, .reg rd _ _ rfl rfl (by simp) (fun h => (context_of_valid h ‹_›).2)⟩
    · exact ⟨_, rfl, .fail _ (by simp [reportable])⟩

/-- No code a command can report is 0x00 (60_exceptions.md R190). -/
theorem none_not_mem_reportable (i : Instr) : ErrCode.none ∉ reportable i := by
  cases i <;> simp [reportable]

end Sys2Proof.Machine
end

