-- ==== Sys2Proof/Laws/Memory.lean ====
section
/-!
SUPPORT. The laws of the text buffer (spec 20_memory.md R56): a read after a write to the same byte gives the byte
written, a write leaves every other byte alone, every operation keeps the canonical form, and equal bytes are equal data.
-/

namespace Sys2Proof.Machine

/-! ## Read after write -/

@[simp] theorem Memory.get?_nil (a : Nat) : Memory.get? [] a = none := rfl

theorem Memory.get?_cons (x : Nat) (b : Byte) (m : Memory) (a : Nat) :
    Memory.get? ((x, b) :: m) a = if x = a then some b else Memory.get? m a := rfl

theorem Memory.get?_set (m : Memory) (a : Nat) (v : Byte) (c : Nat) :
    Memory.get? (Memory.set m a v) c = if c = a then some v else Memory.get? m c := by
  induction m with
  | nil =>
    rw [Memory.set, Memory.get?_cons]
    by_cases h : a = c <;> simp [h, eq_comm]
  | cons e rest ih =>
    obtain ⟨x, b⟩ := e
    rw [Memory.set]
    by_cases h1 : a < x
    · rw [if_pos h1, Memory.get?_cons]
      by_cases h : a = c <;> simp [h, eq_comm]
    · by_cases h2 : a = x
      · subst h2
        rw [if_neg h1, if_pos rfl, Memory.get?_cons, Memory.get?_cons]
        by_cases h : a = c
        · simp [h]
        · simp [h, Ne.symm h]
      · rw [if_neg h1, if_neg h2, Memory.get?_cons, Memory.get?_cons, ih]
        by_cases h : x = c
        · subst h; simp [Ne.symm h2]
        · simp [h]

theorem Memory.get?_setBytes (m : Memory) (a : Nat) (bytes : List Byte) (c : Nat) :
    Memory.get? (Memory.setBytes m a bytes) c =
      if a ≤ c ∧ c < a + bytes.length then bytes[c - a]? else Memory.get? m c := by
  induction bytes generalizing m a with
  | nil =>
    rw [Memory.setBytes, if_neg (by simp)]
  | cons b bs ih =>
    rw [Memory.setBytes, ih, Memory.get?_set, List.length_cons]
    by_cases h1 : c = a
    · subst h1
      rw [if_neg (by omega), if_pos rfl, if_pos (by omega)]; simp
    · by_cases h2 : a + 1 ≤ c ∧ c < a + 1 + bs.length
      · rw [if_pos h2, if_pos (by omega), show c - a = (c - (a + 1)) + 1 by omega, List.getElem?_cons_succ]
      · rw [if_neg h2, if_neg h1, if_neg (by omega)]

/-! ## The canonical form -/

theorem Memory.mem_set {m : Memory} {a : Nat} {v : Byte} {c : Host.Cell} (h : c ∈ Memory.set m a v) :
    c = (a, v) ∨ c ∈ m := by
  induction m with
  | nil => simpa [Memory.set] using h
  | cons e rest ih =>
    obtain ⟨x, b⟩ := e
    rw [Memory.set] at h
    split at h
    · simpa using h
    · split at h
      · rcases List.mem_cons.1 h with h | h
        · exact Or.inl h
        · exact Or.inr (List.mem_cons_of_mem _ h)
      · rcases List.mem_cons.1 h with h | h
        · exact Or.inr (h ▸ List.mem_cons_self)
        · rcases ih h with h | h
          · exact Or.inl h
          · exact Or.inr (List.mem_cons_of_mem _ h)

theorem Memory.wf_nil : Memory.wf [] := List.Pairwise.nil

/-- A write keeps the canonical form. -/
theorem Memory.wf_set {m : Memory} (h : Memory.wf m) (a : Nat) (v : Byte) : Memory.wf (Memory.set m a v) := by
  induction m with
  | nil => simp [Memory.set, Memory.wf]
  | cons e rest ih =>
    obtain ⟨x, b⟩ := e
    have h' := List.pairwise_cons.1 h
    rw [Memory.set]
    split
    · rename_i hlt
      refine List.pairwise_cons.2 ⟨?_, h⟩
      intro c hc
      rcases List.mem_cons.1 hc with hc | hc
      · rw [hc]; exact hlt
      · exact lt_trans hlt (h'.1 c hc)
    · split
      · rename_i _ heq
        subst heq
        exact List.pairwise_cons.2 ⟨h'.1, h'.2⟩
      · rename_i hlt hne
        refine List.pairwise_cons.2 ⟨?_, ih h'.2⟩
        intro c hc
        rcases Memory.mem_set hc with hc | hc
        · rw [hc]; simp only; omega
        · exact h'.1 c hc

theorem Memory.wf_setBytes {m : Memory} (h : Memory.wf m) (a : Nat) (bytes : List Byte) :
    Memory.wf (Memory.setBytes m a bytes) := by
  induction bytes generalizing m a with
  | nil => exact h
  | cons b bs ih => exact ih (Memory.wf_set h a b) (a + 1)

theorem Memory.mem_setBytes {m : Memory} {a : Nat} {bytes : List Byte} {c : Host.Cell}
    (h : c ∈ Memory.setBytes m a bytes) : (a ≤ c.1 ∧ c.1 < a + bytes.length) ∨ c ∈ m := by
  induction bytes generalizing m a with
  | nil => exact Or.inr h
  | cons b bs ih =>
    rcases ih h with h | h
    · left; rw [List.length_cons]; omega
    · rcases Memory.mem_set h with h | h
      · left; subst h; simp
      · exact Or.inr h

theorem writeLane_wf {m : Memory} (h : Memory.wf m) (o : Nat) (data : Word) (strb : Strobes) (lane : Nat) :
    Memory.wf (writeLane m o data strb lane) := by
  unfold writeLane; split
  · exact Memory.wf_set h _ _
  · exact h

theorem writeLanes_wf {m : Memory} (h : Memory.wf m) (o : Nat) (data : Word) (strb : Strobes) :
    Memory.wf (writeLanes m o data strb) :=
  writeLane_wf (writeLane_wf (writeLane_wf (writeLane_wf h o data strb 0) o data strb 1) o data strb 2) o data strb 3

theorem mem_writeLane {m : Memory} {o : Nat} {data : Word} {strb : Strobes} {lane : Nat} {c : Host.Cell}
    (h : c ∈ writeLane m o data strb lane) : c.1 = o + lane ∨ c ∈ m := by
  unfold writeLane at h; split at h
  · rcases Memory.mem_set h with h | h
    · left; rw [h]
    · exact Or.inr h
  · exact Or.inr h

theorem mem_writeLanes {m : Memory} {o : Nat} {data : Word} {strb : Strobes} {c : Host.Cell}
    (h : c ∈ writeLanes m o data strb) : (o ≤ c.1 ∧ c.1 < o + 4) ∨ c ∈ m := by
  rcases mem_writeLane h with h | h
  · left; omega
  rcases mem_writeLane h with h | h
  · left; omega
  rcases mem_writeLane h with h | h
  · left; omega
  rcases mem_writeLane h with h | h
  · left; omega
  · exact Or.inr h

/-- A listed offset of a canonical buffer reads as its entry. -/
theorem Memory.get?_of_mem {m : Memory} (h : Memory.wf m) {c : Host.Cell} (hc : c ∈ m) :
    Memory.get? m c.1 = some c.2 := by
  induction m with
  | nil => simp at hc
  | cons e rest ih =>
    obtain ⟨x, b⟩ := e
    have h' := List.pairwise_cons.1 h
    rw [Memory.get?_cons]
    rcases List.mem_cons.1 hc with hc | hc
    · subst hc; simp
    · have := h'.1 c hc
      rw [if_neg (by simp only at this; omega), ih h'.2 hc]

theorem Memory.mem_of_get? {m : Memory} {a : Nat} {b : Byte} (h : Memory.get? m a = some b) : (a, b) ∈ m := by
  induction m with
  | nil => simp at h
  | cons e rest ih =>
    obtain ⟨x, c⟩ := e
    rw [Memory.get?_cons] at h
    split at h
    · rename_i hx; subst hx; simp at h; subst h; exact List.mem_cons_self
    · exact List.mem_cons_of_mem _ (ih h)

/-- Two canonical buffers with equal bytes are equal data. -/
theorem Memory.ext_of_wf {m n : Memory} (hm : Memory.wf m) (hn : Memory.wf n)
    (h : ∀ a, Memory.get? m a = Memory.get? n a) : m = n := by
  induction m generalizing n with
  | nil =>
    cases n with
    | nil => rfl
    | cons e rest =>
      have := h e.1
      rw [Memory.get?_of_mem hn List.mem_cons_self] at this
      simp at this
  | cons d ds ih =>
    cases n with
    | nil =>
      have := h d.1
      rw [Memory.get?_of_mem hm List.mem_cons_self] at this
      simp at this
    | cons e es =>
      have hd := List.pairwise_cons.1 hm
      have he := List.pairwise_cons.1 hn
      have md : d ∈ e :: es := Memory.mem_of_get? (by rw [← h, Memory.get?_of_mem hm List.mem_cons_self])
      have me : e ∈ d :: ds := Memory.mem_of_get? (by rw [h, Memory.get?_of_mem hn List.mem_cons_self])
      have hde : d = e := by
        rcases List.mem_cons.1 md with h1 | h1
        · exact h1
        · rcases List.mem_cons.1 me with h2 | h2
          · exact h2.symm
          · have := he.1 d h1; have := hd.1 e h2; omega
      subst hde
      congr 1
      apply ih hd.2 he.2
      intro a
      have := h a
      obtain ⟨x, b⟩ := d
      rw [Memory.get?_cons, Memory.get?_cons] at this
      by_cases hx : x = a
      · subst hx
        have l1 : Memory.get? ds x = none := by
          by_contra hc
          obtain ⟨v, hv⟩ := Option.ne_none_iff_exists'.1 hc
          have := hd.1 _ (Memory.mem_of_get? hv); simp at this
        have l2 : Memory.get? es x = none := by
          by_contra hc
          obtain ⟨v, hv⟩ := Option.ne_none_iff_exists'.1 hc
          have := he.1 _ (Memory.mem_of_get? hv); simp at this
        rw [l1, l2]
      · simpa [hx] using this

/-! ## Bytes of BUF -/

theorem State.bufByte_eq (s : State) (a : Nat) :
    s.bufByte a = (Memory.get? s.buf a).getD (Config.resetByte s.epoch a) := by
  unfold State.bufByte; cases Memory.get? s.buf a <;> rfl

theorem bufByte_setBytes_inside (s : State) (off : Nat) (t : List Byte) {j : Nat} (h : j < t.length) :
    State.bufByte { s with buf := Memory.setBytes s.buf off t } (off + j) = t[j] := by
  rw [State.bufByte_eq, Memory.get?_setBytes, if_pos (by omega)]
  simp [h]

theorem bufByte_setBytes_outside (s : State) (off : Nat) (t : List Byte) {a : Nat}
    (h : a < off ∨ off + t.length ≤ a) :
    State.bufByte { s with buf := Memory.setBytes s.buf off t } a = s.bufByte a := by
  rw [State.bufByte_eq, Memory.get?_setBytes, if_neg (by omega), State.bufByte_eq]

/-- Reading back the bytes just written gives them. -/
theorem bufBytesFrom_setBytes (s : State) (off : Nat) (t : List Byte) :
    State.bufBytesFrom { s with buf := Memory.setBytes s.buf off t } off t.length = t := by
  apply List.ext_getElem
  · simp [State.bufBytesFrom]
  · intro j h1 h2
    simp only [State.bufBytesFrom, List.getElem_map, List.getElem_range]
    exact bufByte_setBytes_inside s off t h2

end Sys2Proof.Machine
end

