-- ==== Sys2Proof/Laws/PerInstr.lean ====
section
/-!
SUPPORT. One family of statements over the commands as syntax: each command's word holds its fields where 30_encoding.md
R70 puts them, and they pass the independent check of R72 to R74.
-/

namespace Sys2Proof.Laws

/-- The word of the command holds its fields, and they form a legal command. -/
def EncodesLegally.Statement (i : Instr) : Prop :=
  wordFields (encode i) = instrFields i ∧ (instrFields i).wellFormed = true

theorem EncodesLegally.mov (rd rs1 : Reg) : EncodesLegally.Statement (.mov rd rs1) :=
  ⟨wordFields_fieldsWord _, by simp [instrFields, commandFields, Fields.wellFormed, opcodeUses, fieldAllowed, regField_zero]⟩

theorem EncodesLegally.fromint (rd : Reg) : EncodesLegally.Statement (.fromint rd) :=
  ⟨wordFields_fieldsWord _, by simp [instrFields, commandFields, Fields.wellFormed, opcodeUses, List.lookup, fieldAllowed, regField_zero]⟩

theorem EncodesLegally.fromhex (rd : Reg) : EncodesLegally.Statement (.fromhex rd) :=
  ⟨wordFields_fieldsWord _, by simp [instrFields, commandFields, Fields.wellFormed, opcodeUses, List.lookup, fieldAllowed, regField_zero]⟩

theorem EncodesLegally.tohex (rs1 : Reg) : EncodesLegally.Statement (.tohex rs1) :=
  ⟨wordFields_fieldsWord _, by simp [instrFields, commandFields, Fields.wellFormed, opcodeUses, List.lookup, fieldAllowed, regField_zero]⟩

theorem EncodesLegally.add (rd rs1 rs2 : Reg) : EncodesLegally.Statement (.add rd rs1 rs2) :=
  ⟨wordFields_fieldsWord _, by simp [instrFields, commandFields, Fields.wellFormed, opcodeUses, List.lookup, fieldAllowed, regField_zero]⟩

theorem EncodesLegally.sub (rd rs1 rs2 : Reg) : EncodesLegally.Statement (.sub rd rs1 rs2) :=
  ⟨wordFields_fieldsWord _, by simp [instrFields, commandFields, Fields.wellFormed, opcodeUses, List.lookup, fieldAllowed, regField_zero]⟩

theorem EncodesLegally.mul (rd rs1 rs2 : Reg) : EncodesLegally.Statement (.mul rd rs1 rs2) :=
  ⟨wordFields_fieldsWord _, by simp [instrFields, commandFields, Fields.wellFormed, opcodeUses, List.lookup, fieldAllowed, regField_zero]⟩

theorem EncodesLegally.div (rd rs1 rs2 : Reg) : EncodesLegally.Statement (.div rd rs1 rs2) :=
  ⟨wordFields_fieldsWord _, by simp [instrFields, commandFields, Fields.wellFormed, opcodeUses, List.lookup, fieldAllowed, regField_zero]⟩

theorem EncodesLegally.mod (rd rs1 rs2 : Reg) : EncodesLegally.Statement (.mod rd rs1 rs2) :=
  ⟨wordFields_fieldsWord _, by simp [instrFields, commandFields, Fields.wellFormed, opcodeUses, List.lookup, fieldAllowed, regField_zero]⟩

theorem EncodesLegally.or (rd rs1 rs2 : Reg) : EncodesLegally.Statement (.or rd rs1 rs2) :=
  ⟨wordFields_fieldsWord _, by simp [instrFields, commandFields, Fields.wellFormed, opcodeUses, List.lookup, fieldAllowed, regField_zero]⟩

theorem EncodesLegally.xor (rd rs1 rs2 : Reg) : EncodesLegally.Statement (.xor rd rs1 rs2) :=
  ⟨wordFields_fieldsWord _, by simp [instrFields, commandFields, Fields.wellFormed, opcodeUses, List.lookup, fieldAllowed, regField_zero]⟩

theorem EncodesLegally.shl (rd rs1 rs2 : Reg) : EncodesLegally.Statement (.shl rd rs1 rs2) :=
  ⟨wordFields_fieldsWord _, by simp [instrFields, commandFields, Fields.wellFormed, opcodeUses, List.lookup, fieldAllowed, regField_zero]⟩

theorem EncodesLegally.shr (rd rs1 rs2 : Reg) : EncodesLegally.Statement (.shr rd rs1 rs2) :=
  ⟨wordFields_fieldsWord _, by simp [instrFields, commandFields, Fields.wellFormed, opcodeUses, List.lookup, fieldAllowed, regField_zero]⟩

theorem EncodesLegally.bitlen (rs1 : Reg) : EncodesLegally.Statement (.bitlen rs1) :=
  ⟨wordFields_fieldsWord _, by simp [instrFields, commandFields, Fields.wellFormed, opcodeUses, List.lookup, fieldAllowed, regField_zero]⟩

theorem EncodesLegally.getbit (rs1 : Reg) : EncodesLegally.Statement (.getbit rs1) :=
  ⟨wordFields_fieldsWord _, by simp [instrFields, commandFields, Fields.wellFormed, opcodeUses, List.lookup, fieldAllowed, regField_zero]⟩

theorem EncodesLegally.setbit (rd : Reg) : EncodesLegally.Statement (.setbit rd) :=
  ⟨wordFields_fieldsWord _, by simp [instrFields, commandFields, Fields.wellFormed, opcodeUses, List.lookup, fieldAllowed, regField_zero]⟩

theorem EncodesLegally.cmp (rs1 rs2 : Reg) : EncodesLegally.Statement (.cmp rs1 rs2) :=
  ⟨wordFields_fieldsWord _, by simp [instrFields, commandFields, Fields.wellFormed, opcodeUses, List.lookup, fieldAllowed, regField_zero]⟩

theorem EncodesLegally.expmod (rd rs1 rs2 rs3 : Reg) : EncodesLegally.Statement (.expmod rd rs1 rs2 rs3) :=
  ⟨wordFields_fieldsWord _, by simp [instrFields, commandFields, Fields.wellFormed, opcodeUses, List.lookup, fieldAllowed]⟩

theorem EncodesLegally.pow (rd rs1 rs2 : Reg) : EncodesLegally.Statement (.pow rd rs1 rs2) :=
  ⟨wordFields_fieldsWord _, by simp [instrFields, commandFields, Fields.wellFormed, opcodeUses, List.lookup, fieldAllowed, regField_zero]⟩

theorem EncodesLegally.isprime (rs1 rs2 : Reg) : EncodesLegally.Statement (.isprime rs1 rs2) :=
  ⟨wordFields_fieldsWord _, by simp [instrFields, commandFields, Fields.wellFormed, opcodeUses, List.lookup, fieldAllowed, regField_zero]⟩

theorem EncodesLegally.dsetup (rs1 rs2 : Reg) : EncodesLegally.Statement (.dsetup rs1 rs2) :=
  ⟨wordFields_fieldsWord _, by simp [instrFields, commandFields, Fields.wellFormed, opcodeUses, List.lookup, fieldAllowed, regField_zero]⟩

theorem EncodesLegally.digest (rd rs1 : Reg) : EncodesLegally.Statement (.digest rd rs1) :=
  ⟨wordFields_fieldsWord _, by simp [instrFields, commandFields, Fields.wellFormed, opcodeUses, List.lookup, fieldAllowed, regField_zero]⟩

theorem EncodesLegally.dgetn (rd : Reg) : EncodesLegally.Statement (.dgetn rd) :=
  ⟨wordFields_fieldsWord _, by simp [instrFields, commandFields, Fields.wellFormed, opcodeUses, List.lookup, fieldAllowed, regField_zero]⟩

end Sys2Proof.Laws
end

