-- ==== Sys2Proof/Laws/Port.lean ====
section
/-!
SUPPORT. The host port: where an address lands (spec 10_state.md R27, R42), the byte lanes of words (20_memory.md R53, R55,
R59), and everything a host write can do, idle and busy (20_memory.md R62).
-/

namespace Sys2Proof.Machine

/-! ## Addresses -/

theorem wordOffset_aligned (addr : PortAddr) : wordOffset addr % 4 = 0 ∧ wordOffset addr < 0x20000 := by
  unfold wordOffset; have := addr.isLt; omega

theorem portReg_buf {cfg : Config} {addr : PortAddr} (h1 : 0x10000 ≤ wordOffset addr)
    (h2 : wordOffset addr < 0x10000 + cfg.bufBytes) : portReg cfg addr = .buf (wordOffset addr - 0x10000) := by
  unfold portReg; simp only
  repeat rw [if_neg (by omega)]
  rw [if_pos ⟨h1, h2⟩]

theorem portReg_reserved {cfg : Config} {addr : PortAddr}
    (h : 0x024 ≤ wordOffset addr ∧ wordOffset addr < 0x10000 ∨ 0x10000 + cfg.bufBytes ≤ wordOffset addr) :
    portReg cfg addr = .reserved := by
  unfold portReg; simp only
  repeat rw [if_neg (by omega)]

theorem wordOffset_of_portReg_ctrl {cfg : Config} {addr : PortAddr} (h : portReg cfg addr = .ctrl) :
    wordOffset addr = 0x00C := by
  unfold portReg at h; simp only at h
  split_ifs at h; assumption

theorem wordOffset_of_portReg_buf {cfg : Config} {addr : PortAddr} {o : Nat} (h : portReg cfg addr = .buf o) :
    wordOffset addr = 0x10000 + o ∧ o < cfg.bufBytes ∧ o % 4 = 0 := by
  unfold portReg at h; simp only at h
  have := wordOffset_aligned addr
  split_ifs at h with _ _ _ _ _ _ _ _ _ h1
  simp only [PortReg.buf.injEq] at h
  omega

/-! ## Byte lanes -/

/-- Byte lane `lane` of four appended bytes. -/
theorem append_lane (a3 a2 a1 a0 : Byte) {lane : Nat} (h : lane < 4) :
    (a3 ++ a2 ++ a1 ++ a0 : Word).extractLsb' (8 * lane) 8 =
      if lane = 0 then a0 else if lane = 1 then a1 else if lane = 2 then a2 else a3 := by
  apply BitVec.eq_of_getLsbD_eq
  intro i hi
  rw [BitVec.getLsbD_extractLsb', decide_eq_true hi, Bool.true_and]
  simp only [BitVec.getLsbD_append]
  have : lane = 0 ∨ lane = 1 ∨ lane = 2 ∨ lane = 3 := by omega
  rcases this with rfl | rfl | rfl | rfl
  · simp [show i < 8 by omega]
  · simp [hi]
  · simp [show ¬ 16 + i < 8 by omega, show ¬ 16 + i - 8 < 8 by omega, show 16 + i - 8 - 8 = i by omega, hi]
  · simp [show ¬ 24 + i < 8 by omega, show ¬ 24 + i - 8 < 8 by omega, show ¬ 24 + i - 8 - 8 < 8 by omega,
      show 24 + i - 8 - 8 - 8 = i by omega]

theorem fullByte_getLsbD (b : Bool) {i : Nat} (hi : i < 8) : (if b then 0xFF#8 else 0x00#8).getLsbD i = b := by
  cases b
  · simp
  · have : i = 0 ∨ i = 1 ∨ i = 2 ∨ i = 3 ∨ i = 4 ∨ i = 5 ∨ i = 6 ∨ i = 7 := by omega
    rcases this with rfl | rfl | rfl | rfl | rfl | rfl | rfl | rfl <;> rfl

theorem laneMask_lane (strb : Strobes) {lane : Nat} (h : lane < 4) :
    (laneMask strb).extractLsb' (8 * lane) 8 = if strb.getLsbD lane then 0xFF#8 else 0x00#8 := by
  rw [laneMask, append_lane _ _ _ _ h]
  have : lane = 0 ∨ lane = 1 ∨ lane = 2 ∨ lane = 3 := by omega
  rcases this with rfl | rfl | rfl | rfl <;> rfl

/-- A register write takes exactly the strobed lanes (20_memory.md R59). -/
theorem mergeLanes_lane (old data : Word) (strb : Strobes) {lane : Nat} (h : lane < 4) :
    (mergeLanes old data strb).extractLsb' (8 * lane) 8 =
      if strb.getLsbD lane then data.extractLsb' (8 * lane) 8 else old.extractLsb' (8 * lane) 8 := by
  apply BitVec.eq_of_getLsbD_eq
  intro i hi
  have hm := congrArg (fun w => w.getLsbD i) (laneMask_lane strb h)
  simp only [BitVec.getLsbD_extractLsb', decide_eq_true hi, Bool.true_and] at hm
  rw [fullByte_getLsbD _ hi] at hm
  rw [BitVec.getLsbD_extractLsb', decide_eq_true hi, Bool.true_and, mergeLanes, BitVec.getLsbD_or, BitVec.getLsbD_and,
    BitVec.getLsbD_and, BitVec.getLsbD_not, hm, decide_eq_true (show 8 * lane + i < 32 by omega)]
  cases strb.getLsbD lane <;> simp [hi]

/-- A buffer word is its four bytes, little-endian (20_memory.md R53). -/
theorem bufWord_lane (s : State) (o : Nat) {lane : Nat} (h : lane < 4) :
    (s.bufWord o).extractLsb' (8 * lane) 8 = s.bufByte (o + lane) := by
  rw [State.bufWord, append_lane _ _ _ _ h]
  have : lane = 0 ∨ lane = 1 ∨ lane = 2 ∨ lane = 3 := by omega
  rcases this with rfl | rfl | rfl | rfl <;> rfl

/-- CTRL's bits as read (10_state.md R32). -/
theorem ctrlWord_getLsbD (s : State) (j : Nat) :
    s.ctrlWord.getLsbD j = if j = 0 then s.ctrl.irqEn else if j = 1 then s.ctrl.wsrc else false := by
  unfold State.ctrlWord bitWord
  simp only [BitVec.getLsbD_append, BitVec.getLsbD_ofBool]
  rcases j with _ | _ | j
  · simp
  · simp
  · simp [show ¬ j + 1 + 1 < 1 by omega]

/-- The low bit of a word built bit by bit. -/
theorem getLsbD_bitWord_zero {n : Nat} (x : BitVec n) (b : Bool) : (x ++ bitWord b).getLsbD 0 = b := by
  rw [BitVec.getLsbD_append]; simp [bitWord]

/-- The bits above a word's appended low bit. -/
theorem getLsbD_bitWord_succ {n : Nat} (x : BitVec n) (b : Bool) (j : Nat) :
    (x ++ bitWord b).getLsbD (j + 1) = x.getLsbD j := by
  rw [BitVec.getLsbD_append]; simp

/-- STATUS bit by bit (10_state.md R33). -/
theorem statusWord_getLsbD (s : State) (j : Nat) :
    s.statusWord.getLsbD j =
      if j = 0 then s.busy else if j = 1 then s.status.done else if j = 2 then s.status.err
      else if j = 3 then s.status.lt else if j = 4 then s.status.eq else if j = 5 then s.status.gt
      else if j = 6 then s.status.undef else if j = 7 then s.status.ovr else if j = 8 then s.wreq
      else decide (16 ≤ j) && (errByte s.status.errcode).getLsbD (j - 16) := by
  have up : ∀ {n : Nat} (x : BitVec n) (b c : Bool) (j : Nat), x.getLsbD j = c → (x ++ bitWord b).getLsbD (j + 1) = c :=
    fun x b c j h => (getLsbD_bitWord_succ x b j).trans h
  have zero := @getLsbD_bitWord_zero
  match j with
  | 0 => exact zero _ _
  | 1 | 2 | 3 | 4 | 5 | 6 | 7 | 8 =>
    repeat apply up
    exact zero _ _
  | k + 9 =>
    simp only [Nat.add_eq_zero_iff, Nat.reduceEqDiff, OfNat.ofNat_ne_zero, and_false, if_false]
    iterate 9 apply up
    rw [BitVec.getLsbD_append, BitVec.getLsbD_append]
    by_cases h7 : k < 7
    · simp [h7, show ¬ 16 ≤ k + 9 by omega]
    · simp only [h7, if_false, show 16 ≤ k + 9 by omega, show k + 9 - 16 = k - 7 by omega, decide_true, Bool.true_and]
      split
      · rfl
      · rw [BitVec.getLsbD_of_ge _ (k - 7) (by omega)]; simp

theorem get?_writeLane (m : Memory) (o : Nat) (data : Word) (strb : Strobes) (lane a : Nat) :
    Memory.get? (writeLane m o data strb lane) a =
      if strb.getLsbD lane = true ∧ a = o + lane then some (data.extractLsb' (8 * lane) 8) else Memory.get? m a := by
  unfold writeLane
  split_ifs with h1 h2 h2
  · rw [Memory.get?_set, if_pos h2.2]
  · rw [Memory.get?_set, if_neg (by tauto)]
  · tauto
  · rfl

/-! ## Host writes -/

/-- A soft reset (70_reset_and_hazards.md R210): a write of 1 to SRST in a strobed byte 0 of CTRL, idle or busy. -/
theorem hostWrite_softReset (s : State) {addr : PortAddr} {data : Word} {strb : Strobes} (ha : wordOffset addr = 0x00C)
    (hs : strb.getLsbD 0 = true) (hd : data.getLsbD 2 = true) : s.hostWrite addr data strb = s.resetBlock := by
  have hp : portReg s.cfg addr = .ctrl := by simp [portReg, ha]
  simp only [State.hostWrite, hp, State.writeCtrl, hs, hd, Bool.and_self, if_true]

/-- A host write while a command runs resets the block or touches only DONE and OVR, and never sets DONE (20_memory.md
R62). -/
theorem hostWrite_busy {s : State} (h : s.busy = true) (addr : PortAddr) (data : Word) (strb : Strobes) :
    (s.hostWrite addr data strb = s.resetBlock ∧ ResetsTheBlock (.write addr data strb)) ∨
      ∃ d o, s.hostWrite addr data strb = { s with status := { s.status with done := d, ovr := o } } ∧
        (d = true → s.status.done = true) := by
  unfold State.hostWrite
  split
  · rename_i hp
    unfold State.writeCtrl
    split
    · rename_i hr
      rw [Bool.and_eq_true] at hr
      exact Or.inl ⟨rfl, Or.inr ⟨_, _, _, rfl, wordOffset_of_portReg_ctrl hp, hr⟩⟩
    · exact Or.inr ⟨_, _, rfl, id⟩
  · exact Or.inr ⟨_, _, rfl, by simp +contextual⟩
  · unfold State.writeCmd; rw [if_pos h]; exact Or.inr ⟨_, _, rfl, id⟩
  all_goals exact Or.inr ⟨_, _, by simp only [h, if_true, State.refuseWrite]; rfl, id⟩

/-- What a host write while idle can do (10_state.md R27, R31, R32; 20_memory.md R55, R59). -/
inductive IdleWrite (s : State) (addr : PortAddr) : State → Prop where
  /-- A soft reset. -/
  | reset : IdleWrite s addr s.resetBlock
  /-- The issue of a command. -/
  | issue (w : Word) : IdleWrite s addr (s.issue w)
  /-- STATUS: DONE and OVR can only fall. -/
  | status (d o : Bool) (hd : d = true → s.status.done = true) :
      IdleWrite s addr { s with status := { s.status with done := d, ovr := o } }
  /-- CTRL's stored bits. -/
  | ctrl (c : Ctrl) (ha : wordOffset addr = 0x00C) : IdleWrite s addr { s with ctrl := c }
  /-- ARG0. -/
  | arg0 (w : Word) : IdleWrite s addr { s with arg0 := w }
  /-- ARG1. -/
  | arg1 (w : Word) : IdleWrite s addr { s with arg1 := w }
  /-- Byte lanes of one buffer word. -/
  | buf (o : Nat) (data : Word) (strb : Strobes) (ho : o + 4 ≤ s.cfg.bufBytes ∨ s.cfg.bufBytes % 4 ≠ 0) :
      IdleWrite s addr { s with buf := writeLanes s.buf o data strb }
  /-- An ignored write. -/
  | ignored : IdleWrite s addr s

theorem hostWrite_idle {s : State} (h : s.busy = false) (addr : PortAddr) (data : Word) (strb : Strobes) :
    IdleWrite s addr (s.hostWrite addr data strb) := by
  have hb : ¬ s.busy = true := by simp [h]
  unfold State.hostWrite
  split
  · rename_i hp
    unfold State.writeCtrl
    split
    · exact .reset
    · split
      · exact .ctrl _ (wordOffset_of_portReg_ctrl hp)
      · exact .ignored
  · exact .status _ _ (by simp +contextual)
  · unfold State.writeCmd; rw [if_neg hb]
    split
    · exact .issue data
    · exact .ignored
  · rw [if_neg hb]; exact .arg0 _
  · rw [if_neg hb]; exact .arg1 _
  · rename_i hp
    rw [if_neg hb]; exact .buf _ data strb (by have := wordOffset_of_portReg_buf hp; omega)
  · exact .ignored
  · exact .ignored
  · exact .ignored
  · exact .ignored
  · exact .ignored

end Sys2Proof.Machine
end

