-- ==== Sys2Proof/Laws/Step.lean ====
section
/-!
SUPPORT. Everything a step can do, said once: the inversion of `step` into the event's effect on the state (log 1), the
block's turn, and the work of the sequencer, which touches its own state alone.
-/

namespace Sys2Proof.Machine

/-! ## The block's turn and its work -/

theorem next_inj {s t : State} (h : (.next s : Host.Outcome State Fault Refusal) = .next t) : s = t := by injection h

theorem blockTurn_of_ok {s : State} {i : Instr} (hb : s.busy = true) (hd : decode s.cmd = .ok i) :
    blockTurn s = exec i s := by simp [blockTurn, hb, hd]

theorem blockTurn_of_error {s : State} {e : Illegal} (hb : s.busy = true) (hd : decode s.cmd = .error e) :
    blockTurn s = .next (s.fail .illegalCommand) := by simp [blockTurn, hb, hd]

theorem blockTurn_of_idle {s : State} (hb : s.busy = false) : blockTurn s = .next s := by simp [blockTurn, hb]

theorem work_of_ok {s : State} {i : Instr} (hb : s.busy = true) (hd : decode s.cmd = .ok i) : s.work = workOf i s := by
  simp [State.work, hb, hd]

theorem work_of_error {s : State} {e : Illegal} (hd : decode s.cmd = .error e) : s.work = s := by
  unfold State.work; rw [hd]; cases s.busy <;> rfl

theorem work_of_idle {s : State} (hb : s.busy = false) : s.work = s := by simp [State.work, hb]

theorem step_nil {s : State} (h : s.inputs = []) : step s = blockTurn s := by simp [step, h]

theorem step_cons {s : State} {e : Event} {rest : List Event} (h : s.inputs = e :: rest) :
    step s = handle e { s with inputs := rest } := by simp [step, h]

theorem drawWitness_seq (s : State) (n : Int) (w0 : Reg) (i : Nat) :
    s.drawWitness n w0 i = s ∨ ∃ q, s.drawWitness n w0 i = { s with seq := some q } := by
  unfold State.drawWitness
  split
  · split
    · exact Or.inr ⟨_, rfl⟩
    · exact Or.inr ⟨_, rfl⟩
  · exact Or.inl rfl

theorem workOf_seq (i : Instr) (s : State) : workOf i s = s ∨ ∃ q, workOf i s = { s with seq := some q } := by
  cases i with
  | expmod rd rs1 rs2 rs3 =>
    simp only [workOf, workExpmod]; split
    · exact Or.inl rfl
    · exact Or.inr ⟨_, rfl⟩
  | pow rd rs1 rs2 =>
    simp only [workOf, workPow]; split
    · exact Or.inl rfl
    · exact Or.inr ⟨_, rfl⟩
  | digest rd rs1 =>
    simp only [workOf, workDigest]; split
    · exact Or.inl rfl
    · split
      · exact Or.inr ⟨_, rfl⟩
      · exact Or.inl rfl
  | isprime rs1 rs2 =>
    simp only [workOf, workIsprime]
    split
    · exact Or.inl rfl
    · split
      · exact Or.inl rfl
      · split
        · exact Or.inl rfl
        · exact Or.inr ⟨_, rfl⟩
      · split
        · exact Or.inr ⟨_, rfl⟩
        · split
          · exact Or.inr ⟨_, rfl⟩
          · exact Or.inl rfl
      · exact drawWitness_seq _ _ _ _
      · exact drawWitness_seq _ _ _ _
  | _ => exact Or.inl rfl

/-- An iteration of the sequencer changes its own state alone, and never ends the command. -/
theorem work_seq (s : State) : s.work = s ∨ (s.busy = true ∧ ∃ q, s.work = { s with seq := some q }) := by
  cases hb : s.busy with
  | false => exact Or.inl (work_of_idle hb)
  | true =>
    cases hd : decode s.cmd with
    | error e => exact Or.inl (work_of_error hd)
    | ok i =>
      rw [work_of_ok hb hd]
      rcases workOf_seq i s with h | h
      · exact Or.inl h
      · exact Or.inr ⟨rfl, h⟩

/-! ## The inversion of a step -/

/-- The state with its next event, if any, taken. -/
def State.popped (s : State) : State := { s with inputs := s.inputs.tail }

@[simp] theorem State.popped_reg (s : State) (r : Reg) : s.popped.reg r = s.reg r := rfl

@[simp] theorem State.popped_bufByte (s : State) (a : Nat) : s.popped.bufByte a = s.bufByte a := rfl

@[simp] theorem State.popped_busy (s : State) : s.popped.busy = s.busy := rfl

@[simp] theorem State.popped_irq (s : State) : s.popped.irq = s.irq := rfl

/-- The invariant does not look at the events to come. -/
theorem State.popped_inv {s : State} (h : s.Inv) : s.popped.Inv :=
  ⟨h.legal, h.regs, h.context, h.buffer, h.flags, h.errors, h.done, h.sequencer⟩

/-- What a step leads to, over the state with its event taken. -/
inductive StepShape (s : State) : State → Prop where
  /-- The block runs its command on. -/
  | turn (i : Instr) (t : State) (hb : s.busy = true) (hd : decode s.cmd = .ok i) (ht : ExecShape i s.popped t) :
      StepShape s t
  /-- The block completes an illegal word (60_exceptions.md R198). -/
  | illegal (e : Illegal) (hb : s.busy = true) (hd : decode s.cmd = .error e) :
      StepShape s (s.popped.fail .illegalCommand)
  /-- Nothing but the event is consumed. -/
  | idle : StepShape s s.popped
  /-- A host read. -/
  | read (w : Word) (d : Nat) : StepShape s { s.popped with rdata := w, draws := d }
  /-- A reset of either kind. -/
  | reset : StepShape s s.popped.resetBlock
  /-- A host write while a command runs. -/
  | busyWrite (d o : Bool) (hb : s.busy = true) (hd : d = true → s.status.done = true) :
      StepShape s { s.popped with status := { s.popped.status with done := d, ovr := o } }
  /-- A host write while idle. -/
  | idleWrite (addr : PortAddr) (data : Word) (strb : Strobes) (rest : List Event) (t : State) (hb : s.busy = false)
      (hi : s.inputs = .write addr data strb :: rest) (ht : IdleWrite s.popped addr t) : StepShape s t
  /-- An answer taken. -/
  | answer (i : Nat) (bound a : Int) (hs : s.seq = some (.waiting i bound)) :
      StepShape s { s.popped with seq := some (.answered i a) }
  /-- Work of the sequencer. -/
  | work : StepShape s s.popped.work

theorem blockTurn_shape {s : State} : ∃ t, blockTurn s.popped = .next t ∧ StepShape s t := by
  cases hb : s.busy with
  | false => exact ⟨_, blockTurn_of_idle (s := s.popped) hb, .idle⟩
  | true =>
    cases hd : decode s.cmd with
    | error e => exact ⟨_, blockTurn_of_error (s := s.popped) hb hd, .illegal e hb hd⟩
    | ok i =>
      obtain ⟨t, h1, h2⟩ := exec_shape i s.popped
      exact ⟨t, (blockTurn_of_ok (s := s.popped) hb hd).trans h1, .turn i t hb hd h2⟩

/-- The inversion lemma of `step`. -/
theorem step_shape {s t : State} (h : step s = .next t) : StepShape s t := by
  cases hi : s.inputs with
  | nil =>
    have hp : s.popped = s := by cases s; simp only [State.popped] at *; simp_all
    rw [step_nil hi, ← hp] at h
    obtain ⟨u, h1, h2⟩ := blockTurn_shape (s := s)
    rwa [← next_inj (h1.symm.trans h)]
  | cons e rest =>
    have hp : { s with inputs := rest } = s.popped := by simp [State.popped, hi]
    rw [step_cons hi, hp] at h
    cases e with
    | read addr =>
      obtain rfl := next_inj h
      unfold State.hostRead; split
      · exact .read _ _
      · exact .read _ s.draws
    | write addr data strb =>
      obtain rfl := next_inj h
      cases hb : s.busy with
      | false => exact .idleWrite addr data strb rest _ hb hi (hostWrite_idle (s := s.popped) hb addr data strb)
      | true =>
        rcases hostWrite_busy (s := s.popped) hb addr data strb with ⟨h, -⟩ | ⟨d, o, h, hd⟩
        · rw [h]; exact .reset
        · rw [h]; exact .busyWrite d o hb hd
    | powerOn => obtain rfl := next_inj h; exact .reset
    | answer a =>
      obtain rfl := next_inj h
      unfold State.takeAnswer; split
      · rename_i hs; exact .answer _ _ a hs
      · exact .idle
    | work => obtain rfl := next_inj h; exact .work
    | finish =>
      obtain ⟨u, h1, h2⟩ := blockTurn_shape (s := s)
      rwa [← next_inj (h1.symm.trans h)]

end Sys2Proof.Machine
end

