-- ==== Sys2Proof/Laws/Text.lean ====
section
/-!
SUPPORT. Hex text (spec 40_construction.md R92 to R96): what the parser accepts and gives, what the renderer writes, and
that parsing what the renderer wrote gives the value back.
-/

namespace Sys2Proof.Machine

theorem hexVal_eq_some_iff (c : Byte) (d : Nat) : hexVal c = some d ↔ IsHexDigit c d := by
  unfold hexVal IsHexDigit
  split
  · simp only [Option.some.injEq]; omega
  · split
    · simp only [Option.some.injEq]; omega
    · split
      · simp only [Option.some.injEq]; omega
      · simp only [reduceCtorEq, false_iff]; omega

theorem isHexDigit_lt {c : Byte} {d : Nat} (h : IsHexDigit c d) : d < 16 := by
  unfold IsHexDigit at h; omega

theorem isHexDigit_ne_minus {c : Byte} {d : Nat} (h : IsHexDigit c d) : c ≠ minusByte := by
  intro hc; subst hc
  have : minusByte.toNat = 0x2D := by decide
  unfold IsHexDigit at h; omega

theorem parseDigits_eq_some_iff (t : List Byte) (acc m : Nat) :
    parseDigits acc t = some m ↔
      ∃ ds, List.Forall₂ IsHexDigit t ds ∧ ds.foldl (fun m d => 16 * m + d) acc = m := by
  induction t generalizing acc with
  | nil =>
    simp only [parseDigits, Option.some.injEq]
    constructor
    · rintro rfl; exact ⟨[], List.Forall₂.nil, rfl⟩
    · rintro ⟨ds, h, rfl⟩; cases h; rfl
  | cons c cs ih =>
    simp only [parseDigits]
    constructor
    · intro h
      split at h
      · simp at h
      · rename_i d hd
        obtain ⟨ds, h1, h2⟩ := (ih _).1 h
        exact ⟨d :: ds, List.Forall₂.cons ((hexVal_eq_some_iff c d).1 hd) h1, h2⟩
    · rintro ⟨ds, h, hm⟩
      cases h with
      | cons hc hcs =>
        rename_i d ds
        rw [(hexVal_eq_some_iff c d).2 hc]
        exact (ih _).2 ⟨ds, hcs, hm⟩

theorem parseMagnitude_eq_some_iff (t : List Byte) (m : Nat) :
    parseMagnitude t = some m ↔ ∃ ds, ds ≠ [] ∧ List.Forall₂ IsHexDigit t ds ∧ digitsValue ds = m := by
  cases t with
  | nil =>
    simp only [parseMagnitude, reduceCtorEq, false_iff, not_exists, not_and]
    intro ds hne h; cases h; exact absurd rfl hne
  | cons c cs =>
    rw [parseMagnitude, parseDigits_eq_some_iff]
    constructor
    · rintro ⟨ds, h, hm⟩
      exact ⟨ds, by cases h; simp, h, hm⟩
    · rintro ⟨ds, _, h, hm⟩; exact ⟨ds, h, hm⟩

/-- The parser accepts exactly the texts of 40_construction.md R92, R93, and gives their value. -/
theorem parseHex_eq_some_iff (t : List Byte) (x : Int) :
    parseHex t = some x ↔ ∃ neg ds, IsHexText neg ds t ∧ x = norm neg (digitsValue ds) := by
  unfold parseHex IsHexText
  cases t with
  | nil =>
    simp only [reduceCtorEq, false_iff, not_exists, not_and]
    rintro neg ds ⟨hne, d, hd, ht⟩
    cases neg
    · simp only [Bool.false_eq_true, if_false] at ht; subst ht; cases hd; exact absurd rfl hne
    · simp at ht
  | cons c cs =>
    by_cases hc : c = minusByte
    · simp only [hc, if_true, Option.map_eq_some_iff, parseMagnitude_eq_some_iff]
      constructor
      · rintro ⟨m, ⟨ds, hne, hd, rfl⟩, rfl⟩
        exact ⟨true, ds, ⟨hne, cs, hd, by simp⟩, rfl⟩
      · rintro ⟨neg, ds, ⟨hne, d, hd, ht⟩, rfl⟩
        cases neg
        · simp only [Bool.false_eq_true, if_false] at ht
          subst ht
          cases hd with
          | cons h1 _ => exact absurd rfl (isHexDigit_ne_minus h1)
        · simp only [if_true, List.cons.injEq, true_and] at ht
          subst ht
          exact ⟨_, ⟨ds, hne, hd, rfl⟩, rfl⟩
    · simp only [hc, if_false, Option.map_eq_some_iff, parseMagnitude_eq_some_iff]
      constructor
      · rintro ⟨m, ⟨ds, hne, hd, rfl⟩, rfl⟩
        exact ⟨false, ds, ⟨hne, c :: cs, hd, by simp⟩, rfl⟩
      · rintro ⟨neg, ds, ⟨hne, d, hd, ht⟩, rfl⟩
        cases neg
        · simp only [Bool.false_eq_true, if_false] at ht
          subst ht
          exact ⟨_, ⟨ds, hne, hd, rfl⟩, rfl⟩
        · simp only [if_true, List.cons.injEq] at ht
          exact absurd ht.1 hc

theorem parseHex_eq_none_iff (t : List Byte) : parseHex t = none ↔ ¬ ∃ neg ds, IsHexText neg ds t := by
  constructor
  · rintro h ⟨neg, ds, ht⟩
    have := (parseHex_eq_some_iff t (norm neg (digitsValue ds))).2 ⟨neg, ds, ht, rfl⟩
    rw [h] at this; simp at this
  · intro h
    cases hp : parseHex t with
    | none => rfl
    | some x =>
      obtain ⟨neg, ds, ht, _⟩ := (parseHex_eq_some_iff t x).1 hp
      exact absurd ⟨neg, ds, ht⟩ h

/-! ## Rendering -/

theorem hexChar_isLowerDigit {d : Nat} (h : d < 16) : IsLowerDigit (hexChar d) d := by
  unfold hexChar IsLowerDigit
  split
  · left; refine ⟨by omega, ?_⟩; simp; omega
  · right; refine ⟨by omega, by omega, ?_⟩; simp; omega

theorem IsLowerDigit.isHexDigit {c : Byte} {d : Nat} (h : IsLowerDigit c d) : IsHexDigit c d := by
  unfold IsLowerDigit at h; unfold IsHexDigit; tauto

/-- The digit values the renderer writes, most significant first. -/
def digitValues (m : Nat) : List Nat := (List.range (hexLength m)).reverse.map (fun j => m / 16 ^ j % 16)

theorem hexLength_pos (m : Nat) : 0 < hexLength m := by
  unfold hexLength; split
  · omega
  · rename_i h; have := bitlen_pos h; omega

theorem digitValues_ne_nil (m : Nat) : digitValues m ≠ [] := by
  have := hexLength_pos m
  simp [digitValues]; omega

theorem digitValues_lt {m d : Nat} (h : d ∈ digitValues m) : d < 16 := by
  simp only [digitValues, List.mem_map] at h
  obtain ⟨j, _, rfl⟩ := h
  exact Nat.mod_lt _ (by norm_num)

theorem hexDigits_eq (m : Nat) : hexDigits m = (digitValues m).map hexChar := by
  simp [hexDigits, digitValues, Function.comp_def]

theorem foldl_digits_range (m k acc : Nat) :
    ((List.range k).reverse.map (fun j => m / 16 ^ j % 16)).foldl (fun m d => 16 * m + d) acc
      = acc * 16 ^ k + m % 16 ^ k := by
  induction k generalizing acc with
  | zero => simp [Nat.mod_one]
  | succ k ih =>
    rw [List.range_succ, List.reverse_append, List.reverse_singleton, List.map_append, List.foldl_append]
    simp only [List.map_cons, List.map_nil, List.foldl_cons, List.foldl_nil]
    rw [ih, pow_succ, Nat.mod_mul]
    ring

theorem lt_sixteen_pow_hexLength (m : Nat) : m < 16 ^ hexLength m := by
  have h := lt_two_pow_bitlen m
  unfold hexLength
  split
  · rename_i h0; subst h0; norm_num
  · refine lt_of_lt_of_le h ?_
    rw [show (16 : Nat) = 2 ^ 4 by norm_num, ← pow_mul]
    exact Nat.pow_le_pow_right (by norm_num) (by omega)

/-- The digits written have the magnitude's value (40_construction.md R95). -/
theorem digitsValue_digitValues (m : Nat) : digitsValue (digitValues m) = m := by
  rw [digitsValue, digitValues, foldl_digits_range, zero_mul, zero_add]
  exact Nat.mod_eq_of_lt (lt_sixteen_pow_hexLength m)

/-- No leading zero digit unless the magnitude is 0 (40_construction.md R95). -/
theorem digitValues_head (m : Nat) : (digitValues m).head? = some 0 → m = 0 ∧ digitValues m = [0] := by
  intro h
  by_cases h0 : m = 0
  · subst h0; exact ⟨rfl, by decide⟩
  · exfalso
    have hl : hexLength m = (bitlen m + 3) / 4 := by simp [hexLength, h0]
    have hp := bitlen_pos h0
    obtain ⟨k, hk⟩ : ∃ k, hexLength m = k + 1 := ⟨hexLength m - 1, by have := hexLength_pos m; omega⟩
    rw [digitValues, hk, List.range_succ] at h
    simp only [List.reverse_append, List.reverse_singleton, List.map_cons, List.cons_append, List.nil_append, List.head?_cons, Option.some.injEq] at h
    have h1 : m < 16 ^ (k + 1) := hk ▸ lt_sixteen_pow_hexLength m
    have h2 : 16 ^ k ≤ m := by
      refine le_trans ?_ (two_pow_bitlen_le h0)
      rw [show (16 : Nat) = 2 ^ 4 by norm_num, ← pow_mul]
      exact Nat.pow_le_pow_right (by norm_num) (by omega)
    have h3 : m / 16 ^ k < 16 := by
      rw [Nat.div_lt_iff_lt_mul (by positivity)]; rw [pow_succ] at h1; linarith
    have h4 : 0 < m / 16 ^ k := Nat.div_pos h2 (by positivity)
    rw [Nat.mod_eq_of_lt h3] at h; omega

theorem forall₂_hexChar {ds : List Nat} (h : ∀ d ∈ ds, d < 16) : List.Forall₂ IsLowerDigit (ds.map hexChar) ds := by
  induction ds with
  | nil => exact List.Forall₂.nil
  | cons d ds ih =>
    exact List.Forall₂.cons (hexChar_isLowerDigit (h d List.mem_cons_self))
      (ih fun e he => h e (List.mem_cons_of_mem _ he))

/-- What the renderer writes (40_construction.md R95). -/
theorem hexString_spec (x : Int) :
    ∃ ds, ds ≠ [] ∧ (ds.head? = some 0 → x = 0 ∧ ds = [0]) ∧ digitsValue ds = mag x ∧
      ∃ d, List.Forall₂ IsLowerDigit d ds ∧ hexString x = if x < 0 then minusByte :: d else d := by
  refine ⟨digitValues (mag x), digitValues_ne_nil _, ?_, digitsValue_digitValues _, hexDigits (mag x), ?_, ?_⟩
  · intro h
    have := digitValues_head _ h
    exact ⟨by simpa using this.1, this.2⟩
  · rw [hexDigits_eq]; exact forall₂_hexChar fun d hd => digitValues_lt hd
  · unfold hexString sgn; by_cases h : x < 0 <;> simp [h]

theorem hexString_length (x : Int) : (hexString x).length = hexLength (mag x) + if x < 0 then 1 else 0 := by
  unfold hexString sgn
  by_cases h : x < 0 <;> simp [h, hexDigits]

/-- Parsing what the renderer wrote gives the value back (40_construction.md R96). -/
theorem parseHex_hexString (x : Int) : parseHex (hexString x) = some x := by
  rw [parseHex_eq_some_iff]
  refine ⟨sgn x, digitValues (mag x), ⟨digitValues_ne_nil _, hexDigits (mag x), ?_, ?_⟩, ?_⟩
  · rw [hexDigits_eq]
    exact (forall₂_hexChar fun d hd => digitValues_lt hd).imp fun _ _ h => h.isHexDigit
  · unfold hexString; cases sgn x <;> simp
  · rw [digitsValue_digitValues, norm_sgn_mag]

end Sys2Proof.Machine
end

