-- ==== Sys2Proof/Laws/Work.lean ====
section
/-!
SUPPORT. The looping commands at each place of their sequencers (spec 10_state.md R43): what ISPRIME, EXPMOD and POW answer
there, and that a completion does not look at the sequencer it ends.
-/

namespace Sys2Proof.Machine

/-! ## ISPRIME -/

theorem two_le_of_not_rejected {n : Int} (h : rejectedOutright n = false) : 2 ≤ n := by
  simp only [rejectedOutright, Bool.or_eq_false_iff, decide_eq_false_iff_not, not_lt] at h; exact h.1

theorem oddPart_pos {n : Int} (h : rejectedOutright n = false) : 0 < oddPart n := by
  have := oddPart_spec (two_le_of_not_rejected h); omega

/-- A doubling of the tracker takes one from the squarings left (45_primality.md R162; log 18). -/
theorem squareFuel_double {n : Int} {t : Nat} (ht : 0 < t) : squareFuel n (2 * t) = squareFuel n t - 1 := by
  unfold squareFuel; rw [bitlen_double (by omega)]; omega

theorem execIsprime_of_waiting {s : State} {i : Nat} {bound : Int} (hs : s.seq = some (.waiting i bound))
    (rs1 rs2 : Reg) (hr : rejectedOutright (s.reg rs1) = false) : execIsprime rs1 rs2 s = .next s := by
  unfold execIsprime; simp only [hr, hs]; simp

theorem execIsprime_of_answered {s : State} {i : Nat} {a : Int} (hs : s.seq = some (.answered i a)) (rs1 rs2 : Reg)
    (hr : rejectedOutright (s.reg rs1) = false) :
    execIsprime rs1 rs2 s =
      match iterationVerdict (s.reg rs1) a with
      | .error e => .next (s.fail e)
      | .ok passed => .next (s.primeAfter (s.reg rs1) rs2 i passed) := by
  unfold execIsprime; simp only [hr, hs]; cases iterationVerdict (s.reg rs1) a <;> simp

theorem execIsprime_of_squaring {s : State} {i : Nat} {x : Int} {t : Nat} (hs : s.seq = some (.squaring i x t))
    (rs1 rs2 : Reg) (hr : rejectedOutright (s.reg rs1) = false) :
    execIsprime rs1 rs2 s =
      .next (s.primeAfter (s.reg rs1) rs2 i
        (iterationPasses (s.reg rs1) (squareLoop (s.reg rs1) (squareFuel (s.reg rs1) t) x t))) := by
  unfold execIsprime; simp only [hr, hs]; simp

theorem execIsprime_of_iterate {s : State} {i : Nat} (hs : s.seq = some (.iterate i)) (rs1 rs2 : Reg)
    (hr : rejectedOutright (s.reg rs1) = false) :
    execIsprime rs1 rs2 s = .next (s.primeFrom (s.reg rs1) rs2 i) := by
  unfold execIsprime; simp only [hr, hs]; simp

theorem execIsprime_of_start {s : State} (hs : s.seq = some .start) (rs1 rs2 : Reg)
    (hr : rejectedOutright (s.reg rs1) = false) :
    execIsprime rs1 rs2 s = .next (s.primeFrom (s.reg rs1) rs2 0) := by
  unfold execIsprime; simp only [hr, hs]; simp

theorem workIsprime_of_waiting {s : State} {i : Nat} {bound : Int} (hs : s.seq = some (.waiting i bound))
    (rs1 rs2 : Reg) (hr : rejectedOutright (s.reg rs1) = false) : workIsprime rs1 rs2 s = s := by
  unfold workIsprime; simp only [hr, hs]; simp

/-! ## A completion does not look at the sequencer it ends -/

theorem reportIterations_setSeq (s : State) (q : Option Sequencer) (v : Except ErrCode Bool) :
    State.reportIterations { s with seq := q } v = s.reportIterations v := by
  unfold State.reportIterations; cases v <;> rfl

theorem primeFrom_setSeq (s : State) (q : Option Sequencer) (n : Int) (w0 : Reg) (i : Nat) :
    State.primeFrom { s with seq := q } n w0 i = s.primeFrom n w0 i := by
  unfold State.primeFrom; rw [reportIterations_setSeq]; rfl

theorem primeAfter_setSeq (s : State) (q : Option Sequencer) (n : Int) (w0 : Reg) (i : Nat) (passed : Bool) :
    State.primeAfter { s with seq := q } n w0 i passed = s.primeAfter n w0 i passed := by
  unfold State.primeAfter; rw [primeFrom_setSeq]; rfl

theorem finishCapacity_setSeq (s : State) (q : Option Sequencer) (rd : Reg) (x : Int) (u : Bool) :
    State.finishCapacity { s with seq := q } rd x u = s.finishCapacity rd x u := by
  unfold State.finishCapacity; rfl

/-! ## EXPMOD and POW from a place in their loops -/

theorem execExpmod_of_expmod (s : State) (rd rs1 rs2 rs3 : Reg) (r b : Int) (e : Nat) :
    execExpmod rd rs1 rs2 rs3 { s with seq := some (.expmod r b e) } =
      if e ≠ 0 ∧ s.reg rs3 = 0 then .next (s.fail .divisionByZero)
      else .next (s.finishReg rd (expModLoop (s.reg rs3) (bitlen e) r b e) false) := rfl

/-- POW in closed form from any place in its loop (44_expmod_pow.md R150). -/
theorem execPow_closed {s : State} (hk : 1 ≤ s.cfg.maxLimbs) (rd rs1 rs2 : Reg) :
    execPow rd rs1 rs2 s =
      .next (s.finishCapacity rd
        ((s.powLoopState rs1 rs2).1 * (s.powLoopState rs1 rs2).2.1 ^ (s.powLoopState rs1 rs2).2.2) false) := by
  unfold execPow; simp only
  split_ifs with h
  · have hx : s.fits ((s.powLoopState rs1 rs2).1 * (s.powLoopState rs1 rs2).2.1 ^ (s.powLoopState rs1 rs2).2.2) = false := by
      simpa [State.fits] using limbs_of_powIsHuge hk h
    simp [State.finishCapacity, hx]
  · rw [powLoop_closed _ _ _ _ le_rfl]

end Sys2Proof.Machine
end

