-- ==== Sys2Proof/Tests/Slice0.lean ====
section
/-!
SUPPORT. Checks of the model on small states. The expected values are the vectors of spec/95_test_vectors.md (section 2
and 3), the examples of the rules, or words written out from the fields of 30_encoding.md R70. For each obligation with
hypotheses a theorem `test_witness_<its name>` shows operands and states that meet them.
-/

open Sys2Proof Sys2Proof.Machine

/-! ## Helpers -/

/-- The reset state with some registers, ARG0 and ARG1 set. -/
def testState (regs : List (Reg × Int)) (a0 a1 : Word) : State :=
  { regs.foldl (fun s r => s.writeReg r.1 r.2) State.reset with arg0 := a0, arg1 := a1 }

/-- The state with CTRL.WSRC = 1. -/
def testRegisterSource (s : State) : State := { s with ctrl := { s.ctrl with wsrc := true } }

/-- The state with a text at a buffer offset. -/
def testText (s : State) (off : Nat) (t : List Byte) : State := { s with buf := Memory.setBytes s.buf off t }

/-- The state with a digest modulus. -/
def testModulus (s : State) (n : Int) : State := { s with dctx := { valid := true, n := n } }

/-- The state of the smallest legal build, L = 2. -/
def testTwoLimbs (s : State) : State := { s with cfg := { s.cfg with maxLimbs := 2 } }

/-- The state after one step. -/
def testStep (s : State) : State :=
  match step s with
  | .next t => t
  | .fault _ => s
  | .refused _ => s

/-- The state after the command word is issued and run. -/
def testRun (w : Nat) (s : State) : State := testStep (s.withFetchWord 32 w)

/-- The state with one event to come. -/
def testEvent (s : State) (e : Event) : State := { s with inputs := [e] }

/-! ## Encoding -/

/-- One word per family, bit by bit from 30_encoding.md R70: reserved, RS3, RS2, RS1, RD, OP. -/
theorem test_decode_written_out_bits :
    decode 0b00000000_0000_0000_0010_0111_00000001 = .ok (.mov 7 2) ∧
      decode 0b00000000_0000_0010_0001_0011_00001001 = .ok (.sub 3 1 2) ∧
      decode 0b00000000_0000_0010_0001_0011_00010010 = .ok (.shl 3 1 2) ∧
      decode 0b00000000_0000_0110_0101_0000_00011000 = .ok (.cmp 5 6) ∧
      decode 0b00000000_0011_0010_0001_0100_00100000 = .ok (.expmod 4 1 2 3) ∧
      decode 0b00000000_0000_1000_0001_0000_00100100 = .ok (.isprime 1 8) ∧
      decode 0b00000000_0000_0000_0001_0010_00101001 = .ok (.digest 2 1) := by decide

theorem test_decode_construction :
    decode 0x00002701 = .ok (.mov 7 2) ∧ decode 0x00000102 = .ok (.fromint 1) ∧
      decode 0x00000003 = .ok (.fromhex 0) ∧ decode 0x00000004 = .ok (.tohex 0) := by decide

theorem test_decode_arithmetic :
    decode 0x00021308 = .ok (.add 3 1 2) ∧ decode 0x00021309 = .ok (.sub 3 1 2) ∧
      decode 0x0002130A = .ok (.mul 3 1 2) ∧ decode 0x0002130B = .ok (.div 3 1 2) ∧
      decode 0x0002140C = .ok (.mod 4 1 2) := by decide

theorem test_decode_bitwise :
    decode 0x00021310 = .ok (.or 3 1 2) ∧ decode 0x00021311 = .ok (.xor 3 1 2) ∧
      decode 0x00021312 = .ok (.shl 3 1 2) ∧ decode 0x00021313 = .ok (.shr 3 1 2) ∧
      decode 0x00001014 = .ok (.bitlen 1) ∧ decode 0x00001015 = .ok (.getbit 1) ∧
      decode 0x00000116 = .ok (.setbit 1) := by decide

theorem test_decode_compare_to_digest :
    decode 0x00065018 = .ok (.cmp 5 6) ∧ decode 0x00321420 = .ok (.expmod 4 1 2 3) ∧
      decode 0x00021321 = .ok (.pow 3 1 2) ∧ decode 0x00081024 = .ok (.isprime 1 8) ∧
      decode 0x00021028 = .ok (.dsetup 1 2) ∧ decode 0x00001229 = .ok (.digest 2 1) ∧
      decode 0x0000052A = .ok (.dgetn 5) := by decide

/-- WellFormed refuses an unassigned opcode (R74). -/
theorem test_wellFormed_refuses_opcode :
    Fields.wellFormed { op := 0x07, rd := 0, rs1 := 0, rs2 := 0, rs3 := 0, reserved := 0 } = false := by decide

/-- WellFormed refuses a nonzero unused RD (R72): TOHEX. -/
theorem test_wellFormed_refuses_rd :
    Fields.wellFormed { op := 0x04, rd := 1, rs1 := 0, rs2 := 0, rs3 := 0, reserved := 0 } = false := by decide

/-- WellFormed refuses a nonzero unused RS1: FROMINT. -/
theorem test_wellFormed_refuses_rs1 :
    Fields.wellFormed { op := 0x02, rd := 1, rs1 := 1, rs2 := 0, rs3 := 0, reserved := 0 } = false := by decide

/-- WellFormed refuses a nonzero unused RS2: MOV. -/
theorem test_wellFormed_refuses_rs2 :
    Fields.wellFormed { op := 0x01, rd := 1, rs1 := 1, rs2 := 1, rs3 := 0, reserved := 0 } = false := by decide

/-- WellFormed refuses a nonzero unused RS3: ADD. -/
theorem test_wellFormed_refuses_rs3 :
    Fields.wellFormed { op := 0x08, rd := 1, rs1 := 1, rs2 := 1, rs3 := 1, reserved := 0 } = false := by decide

/-- WellFormed refuses a nonzero reserved field: EXPMOD. -/
theorem test_wellFormed_refuses_reserved :
    Fields.wellFormed { op := 0x20, rd := 1, rs1 := 1, rs2 := 1, rs3 := 1, reserved := 1 } = false := by decide

/-- Every row of the opcode table decodes to its command and is run by the next step. -/
theorem test_every_row_decodes_and_runs :
    ∀ row ∈ opcodeRows,
      (decodeTableWord 32 row.2.1.toNat).map mnemonic = some row.1 ∧
        (testRun row.2.1.toNat State.reset).busy = false ∧
        (testRun row.2.1.toNat State.reset).status.errcode ≠ .illegalCommand := by decide

/-! ## One step of each command (95_test_vectors.md section 2) -/

theorem test_mov_copies : (testRun 0x00002701 (testState [(2, -0x1234)] 0 0)).reg 7 = -0x1234 := by decide

theorem test_fromint_negative : (testRun 0x00000102 (testState [] 0x80000000 0)).reg 1 = -0x80000000 := by decide

/-- "-1234abcd5". -/
theorem test_fromhex_text :
    (testRun 0x00000003 (testText (testState [] 0 10) 0
      [0x2D, 0x31, 0x32, 0x33, 0x34, 0x61, 0x62, 0x63, 0x64, 0x35])).reg 0 = -0x1234ABCD5 := by decide

/-- "1-" is malformed. -/
theorem test_fromhex_malformed :
    (testRun 0x00000003 (testText (testState [] 0 2) 0 [0x31, 0x2D])).status.errcode = .malformedInput := by decide

theorem test_tohex_text :
    let t := testRun 0x00000004 (testState [(0, -0x1234ABCD5)] 0x20 0)
    t.res = 10 ∧ t.bufBytesFrom 0x20 10 = [0x2D, 0x31, 0x32, 0x33, 0x34, 0x61, 0x62, 0x63, 0x64, 0x35] := by decide

theorem test_tohex_range :
    (testRun 0x00000004 (testState [(0, 0x12)] 2047 0)).status.errcode = .bufferRange := by decide

theorem test_add_carry : (testRun 0x00021308 (testState [(1, 0xFFFFFFFF), (2, 1)] 0 0)).reg 3 = 0x100000000 := by decide

theorem test_add_zero_operand :
    let t := testRun 0x00021308 (testState [(2, -5)] 0 0)
    t.reg 3 = -5 ∧ t.status.undef = false := by decide

theorem test_sub_borrow : (testRun 0x00021309 (testState [(1, 0x100000000), (2, 1)] 0 0)).reg 3 = 0xFFFFFFFF := by decide

theorem test_sub_negative : (testRun 0x00021309 (testState [(1, -3), (2, -5)] 0 0)).reg 3 = 2 := by decide

theorem test_mul_carry :
    (testRun 0x0002130A (testState [(1, 0xFFFFFFFF), (2, 0xFFFFFFFF)] 0 0)).reg 3 = 0xFFFFFFFE00000001 := by decide

/-- 2^66 has three limbs (10_state.md R22). -/
theorem test_mul_capacity :
    (testRun 0x0002130A (testTwoLimbs (testState [(1, 2 ^ 33), (2, 2 ^ 33)] 0 0))).status.errcode = .capacity := by decide

theorem test_div_rounds_to_zero : (testRun 0x0002130B (testState [(1, -7), (2, 2)] 0 0)).reg 3 = -3 := by decide

theorem test_div_by_zero :
    let t := testRun 0x0002130B (testState [(1, 5), (3, 9)] 0 0)
    t.status.errcode = .divisionByZero ∧ t.reg 3 = 9 := by decide

theorem test_mod_dividend_sign : (testRun 0x0002140C (testState [(1, -7), (2, 2)] 0 0)).reg 4 = -1 := by decide

theorem test_mod_negative_divisor : (testRun 0x0002140C (testState [(1, 7), (2, -2)] 0 0)).reg 4 = 1 := by decide

theorem test_or_upper_limb :
    (testRun 0x00021310 (testState [(1, 0xF0), (2, 0x100000000F)] 0 0)).reg 3 = 0x10000000FF := by decide

theorem test_or_negative_undef : (testRun 0x00021310 (testState [(1, -1)] 0 0)).status.undef = true := by decide

theorem test_xor_normalizes :
    (testRun 0x00021311 (testState [(1, 0x1FFFFFFFF), (2, 0x100000000)] 0 0)).reg 3 = 0xFFFFFFFF := by decide

theorem test_shl_across_limbs :
    (testRun 0x00021312 (testState [(1, 0x80000001), (2, 1)] 0 0)).reg 3 = 0x100000002 := by decide

theorem test_shl_capacity :
    (testRun 0x00021312 (testState [(1, 1), (2, 4096)] 0 0)).status.errcode = .capacity := by decide

theorem test_shr_negative : (testRun 0x00021313 (testState [(1, -5), (2, 1)] 0 0)).reg 3 = -2 := by decide

theorem test_shr_huge_count : (testRun 0x00021313 (testState [(1, 7), (2, 2 ^ 40)] 0 0)).reg 3 = 0 := by decide

theorem test_bitlen_ignores_sign : (testRun 0x00001014 (testState [(1, -2 ^ 40)] 0 0)).res = 0x29 := by decide

theorem test_bitlen_zero : (testRun 0x00001014 (testState [] 0 0)).res = 0 := by decide

theorem test_getbit_second_limb : (testRun 0x00001015 (testState [(1, 0x100000000)] 32 0)).res = 1 := by decide

theorem test_getbit_out_of_range :
    (testRun 0x00001015 (testState [] 32 0)).status.errcode = .outOfRange := by decide

theorem test_setbit_sets : (testRun 0x00000116 (testState [(1, 1)] 31 1)).reg 1 = 0x80000001 := by decide

theorem test_setbit_bit_zero_of_arg1 : (testRun 0x00000116 (testState [(1, -4)] 0 3)).reg 1 = -5 := by decide

/-- STATUS is 0x0A: DONE and LT. -/
theorem test_cmp_less :
    let t := testRun 0x00065018 (testState [(5, 5), (6, 0x100000000)] 0 0)
    t.res = 0xFFFFFFFF ∧ t.statusWord = 0x0000000A := by decide

/-- Mode LITERAL: two negatives by magnitude. -/
theorem test_cmp_negatives_literal :
    let t := testRun 0x00065018 (testState [(5, -5), (6, -3)] 0 0)
    t.res = 1 ∧ t.statusWord = 0x00000022 := by decide

theorem test_expmod_example : (testRun 0x00321420 (testState [(1, 2), (2, 10), (3, 1000)] 0 0)).reg 4 = 24 := by decide

theorem test_expmod_negative_base :
    (testRun 0x00321420 (testState [(1, -2), (2, 3), (3, 5)] 0 0)).reg 4 = -3 := by decide

theorem test_pow_hundred : (testRun 0x00021321 (testState [(1, 2), (2, 100)] 0 0)).reg 3 = 2 ^ 100 := by decide

/-- 2^64 has three limbs (10_state.md R22). -/
theorem test_pow_capacity :
    (testRun 0x00021321 (testTwoLimbs (testState [(1, 2), (2, 64)] 0 0))).status.errcode = .capacity := by decide

theorem test_isprime_second_witness_decides :
    (testRun 0x00081024 (testRegisterSource (testState [(1, 9), (8, 8), (9, 2)] 2 0))).res = 0 := by decide

theorem test_isprime_requests_a_witness :
    let t := testRun 0x00081024 (testState [(1, 9)] 1 0)
    t.statusWord = 0x101 ∧ t.wbound = some 8 := by decide

theorem test_dsetup_example : (testRun 0x00021028 (testState [(1, 257), (2, 263)] 0 0)).dctx.n = 67591 := by decide

/-- 15 bits. -/
theorem test_dsetup_refuses :
    (testRun 0x00021028 (testState [(1, 1), (2, 0x7FFF)] 0 0)).status.errcode = .badModulus := by decide

theorem test_digest_a : (testRun 0x00001229 (testModulus (testState [(1, 0x61)] 0 0) 67591)).reg 2 = 0xB7C1 := by decide

/-- A modulus whose bit length is a multiple of 16 (46_digest.md R186). -/
theorem test_digest_sixteen_bits :
    (testRun 0x00001229 (testModulus (testState [(1, 0x61)] 0 0) 0xFBFB)).reg 2 = 0x7500 := by decide

theorem test_dgetn_example : (testRun 0x0000052A (testModulus State.reset 67591)).reg 5 = 67591 := by decide

theorem test_dgetn_unset : (testRun 0x0000052A State.reset).status.errcode = .digestNotConfigured := by decide

/-! ## The host port and the total order of steps -/

/-- A write of CMD issues the command and the block's turn completes it. -/
theorem test_issue_then_turn :
    let t := testStep { testState [(2, 7)] 0 0 with inputs := [.write 0x14 0x00002701 0xF] }
    t.busy = true ∧ t.cmd = 0x00002701 ∧ (testStep t).reg 7 = 7 ∧ (testStep t).statusWord = 0x00000002 := by decide

/-- An illegal word ends with ERRCODE 0x10, ERR and DONE (60_exceptions.md R198). -/
theorem test_illegal_word : (testRun 0x80021308 State.reset).statusWord = 0x00100006 := by decide

/-- A busy write of ARG0 is refused and sets OVR (20_memory.md R62). -/
theorem test_busy_write_refused :
    let t := testStep (testEvent (State.reset.issue 0x00002701) (.write 0x18 5 0xF))
    t.arg0 = 0 ∧ t.status.ovr = true ∧ t.busy = true := by decide

/-- Byte lane 2 of a buffer word (20_memory.md R53, R55). -/
theorem test_buffer_lane :
    let t := testStep (testEvent (testText State.reset 4 [1, 2, 3, 4]) (.write 0x10004 0xAABBCCDD 0b0100))
    t.bufBytesFrom 4 4 = [1, 2, 0xBB, 4] := by decide

/-- ID reads "MSH2" at any of its byte addresses (20_memory.md R52). -/
theorem test_id_read : (testStep (testEvent State.reset (.read 0x3))).rdata = 0x4D534832 := by decide

/-- A soft reset ends a running command and discards IRQ_EN and WSRC (70_reset_and_hazards.md R211, R212). -/
theorem test_soft_reset :
    let t := testStep (testEvent (State.reset.issue 0x00002701) (.write 0xC 7 1))
    t.busy = false ∧ t.ctrlWord = 0 ∧ t.statusWord = 0 := by decide

/-- Two `work` iterations and then the turn give the EXPMOD of the example. -/
theorem test_work_then_turn :
    let s := { (testState [(1, 2), (2, 10), (3, 1000)] 0 0).issue 0x00321420 with inputs := [.work, .work] }
    (testStep (testStep (testStep s))).reg 4 = 24 := by decide

/-! ## Witnesses: operands and states that meet the hypotheses of each obligation -/

/-- A state of the invariant with a value in a register and a command running. -/
theorem test_inv_of_running (w : Word) (x : Int) (hx : limbs x ≤ 128) : ((testState [(1, x)] 1 0).issue w).Inv := by
  refine ⟨?_, ?_, ?_, ?_, ?_, ?_, ?_, ?_⟩
  · exact (by unfold Config.Legal; decide : Config.default.Legal)
  · intro r
    show limbs ((State.reset.writeReg 1 x).reg r) ≤ 128
    rw [State.writeReg_reg, State.reset_reg]
    split
    · exact hx
    · decide
  · rfl
  · exact ⟨List.Pairwise.nil, by intro c hc; cases hc⟩
  · exact ⟨fun h => Bool.false_ne_true h.1, fun h => Bool.false_ne_true h.1, fun h => Bool.false_ne_true h.1⟩
  · exact ⟨⟨fun h => absurd h Bool.false_ne_true, fun h => absurd rfl h⟩, fun h => absurd h Bool.false_ne_true⟩
  · intro _; rfl
  · trivial

theorem test_witness_EncodeOfDecodeIsTheWord : decode 0x00FFFF20 = .ok (.expmod 15 15 15 15) := by decide

theorem test_witness_DecoderFollowsTheOpcodeMap :
    ("EXPMOD", 0x00000020, 0xFF0000FF) ∈ opcodeRows ∧ (0x00FFFF20 : Word) &&& 0xFF0000FF = 0x00000020 ∧
      decode 0x00FFFF20 = .ok (.expmod 15 15 15 15) := by decide

theorem test_witness_StepRunsTheDecodedCommand :
    (State.reset.issue 0x00002701).busy = true ∧ decode (State.reset.issue 0x00002701).cmd = .ok (.mov 7 2) ∧
      (State.reset.issue 0x00002701).inputs = [] ∧
      (testEvent (State.reset.issue 0x00002701) .finish).inputs = .finish :: [] := by decide

theorem test_witness_CmdWriteIssues :
    wordOffset 0x17 = 0x014 ∧ State.reset.busy = false ∧ (0b1110 : Strobes) ≠ 0xF ∧
      (State.reset.issue 0x00002701).busy = true ∧
      (testEvent State.reset (.write 0x17 1 0xF)).inputs = [.write 0x17 1 0xF] ∧
      (testEvent State.reset (.read 0x17)).inputs = [.read 0x17] := by decide

theorem test_witness_IllegalWordCompletesWithItsError :
    let s := { State.reset with inputs := [.write 0x14 0x2B 0xF, .finish] }
    s.busy = false ∧ wordOffset 0x14 = 0x014 ∧ decode 0x2B = .error (.unassignedOpcode 0x2B) ∧
      s.inputs = .write 0x14 0x2B 0xF :: .finish :: [] := by decide

theorem test_witness_ErrorCompletionsWriteOnlyStatus :
    (∃ t, exec (.div 3 1 2) State.reset = .next t ∧ t.busy = false ∧ t.status.err = true) ∧
      (State.reset.issue 0x2B).busy = true ∧ decode (State.reset.issue 0x2B).cmd = .error (.unassignedOpcode 0x2B) :=
  ⟨⟨_, rfl, rfl, rfl⟩, rfl, by decide⟩

theorem test_witness_CommandsReportOnlyTheirErrors :
    ∃ t, exec (.div 3 1 2) State.reset = .next t ∧ t.busy = false := ⟨_, rfl, rfl⟩

theorem test_witness_SuccessWritesOnlyWhatItsRowNames :
    (∃ t, exec (.cmp 1 2) State.reset = .next t ∧ t.busy = false ∧ t.status.err = false) ∧
      ∃ t, exec (.or 3 1 2) (testState [(1, -1)] 0 0) = .next t ∧ t.busy = false ∧ t.status.err = false ∧
        t.status.undef = true := ⟨⟨_, rfl, rfl, rfl⟩, ⟨_, rfl, rfl, rfl, rfl⟩⟩

/-- The text "7f" ends at the last byte of the buffer; one byte later it does not fit; "-" alone is no text. -/
theorem test_witness_FromhexParsesTheText :
    (testState [] 2047 2).arg0.toNat + (testState [] 2047 2).arg1.toNat > State.reset.cfg.bufBytes ∧
      (testState [] 2046 2).arg0.toNat + (testState [] 2046 2).arg1.toNat ≤ State.reset.cfg.bufBytes ∧
      (¬ ∃ neg ds, IsHexText neg ds ((testText State.reset 0 [0x2D]).bufBytesFrom 0 1)) ∧
      IsHexText false [7, 15] ((testText State.reset 2046 [0x37, 0x66]).bufBytesFrom 2046 2) := by
  refine ⟨by decide, by decide, ?_, ?_⟩
  · rw [← parseHex_eq_none_iff]; decide
  · have e : (testText State.reset 2046 [0x37, 0x66]).bufBytesFrom 2046 2 = [0x37, 0x66] := by decide
    rw [e]
    exact ⟨by decide, [0x37, 0x66], .cons (.inl (by decide)) (.cons (.inr (.inr (by decide))) .nil), rfl⟩

/-- "12" fits at offset 2046 and not at 2047. -/
theorem test_witness_TohexWritesTheText :
    (testState [(0, 0x12)] 2047 0).arg0.toNat + (hexString ((testState [(0, 0x12)] 2047 0).reg 0)).length
        > State.reset.cfg.bufBytes ∧
      (testState [(0, 0x12)] 2046 0).arg0.toNat + (hexString ((testState [(0, 0x12)] 2046 0).reg 0)).length
        ≤ State.reset.cfg.bufBytes := by decide

theorem test_witness_HexTextRoundTrip :
    (testState [(0, -0x12)] 2045 0).cfg.Legal ∧ Fits (testState [(0, -0x12)] 2045 0) ((testState [(0, -0x12)] 2045 0).reg 0) ∧
      ∃ t, exec (.tohex 0) (testState [(0, -0x12)] 2045 0) = .next t ∧ t.status.err = false := by
  refine ⟨by unfold Config.Legal; decide, by unfold Fits; decide, _, rfl, rfl⟩

/-- Each disjunct: a zero operand on either side, and two operands of one sign. -/
theorem test_witness_AddIsExactOffTheMixedCase :
    (testState [(2, -5)] 0 0).reg 1 = 0 ∧ (testState [(1, -5)] 0 0).reg 2 = 0 ∧
      ((testState [(1, -1), (2, -0xFFFFFFFF)] 0 0).reg 1 < 0 ↔
        (testState [(1, -1), (2, -0xFFFFFFFF)] 0 0).reg 2 < 0) := by decide

theorem test_witness_AddMixedIsAFunctionOfTheOperands :
    let s := testState [(1, -3), (2, 5)] 0 0
    s.reg 1 ≠ 0 ∧ s.reg 2 ≠ 0 ∧ ¬(s.reg 1 < 0 ↔ s.reg 2 < 0) := by decide

/-- The four branches of SUB. -/
theorem test_witness_SubIsExact :
    (testState [] 0 0).reg 1 = (testState [] 0 0).reg 2 ∧
      (testState [(1, -3)] 0 0).reg 1 ≠ (testState [(1, -3)] 0 0).reg 2 ∧
      ((testState [(1, -3)] 0 0).reg 1 < 0 ↔ ¬ (testState [(1, -3)] 0 0).reg 2 < 0) ∧
      ((testState [(1, -3), (2, -5)] 0 0).reg 1 < 0 ↔ (testState [(1, -3), (2, -5)] 0 0).reg 2 < 0) ∧
      ((testState [(1, -3), (2, -5)] 0 0).reg 1).natAbs < ((testState [(1, -3), (2, -5)] 0 0).reg 2).natAbs ∧
      ((testState [(1, 5), (2, 3)] 0 0).reg 1 < 0 ↔ (testState [(1, 5), (2, 3)] 0 0).reg 2 < 0) ∧
      ((testState [(1, 5), (2, 3)] 0 0).reg 2).natAbs < ((testState [(1, 5), (2, 3)] 0 0).reg 1).natAbs ∧
      Fits (testState [(1, 5), (2, 3)] 0 0) ((testState [(1, 5), (2, 3)] 0 0).reg 1) ∧
      Fits (testState [(1, 5), (2, 3)] 0 0) ((testState [(1, 5), (2, 3)] 0 0).reg 2) := by
  simp only [Fits]; decide

theorem test_witness_DivTruncates :
    (testState [(1, 5)] 0 0).reg 2 = 0 ∧ (testState [(1, 5), (2, -1)] 0 0).reg 2 ≠ 0 := by decide

theorem test_witness_ModKeepsTheDividendsSign :
    (testState [(1, 5)] 0 0).reg 2 = 0 ∧ (testState [(1, -7), (2, 2)] 0 0).reg 2 ≠ 0 := by decide

theorem test_witness_DivAndModObeyTheDivisionLaw :
    (testState [(1, -7), (2, 2)] 0 0).reg 2 ≠ 0 ∧
      (∃ t, exec (.div 3 1 2) (testState [(1, -7), (2, 2)] 0 0) = .next t) ∧
      ∃ u, exec (.mod 3 1 2) (testState [(1, -7), (2, 2)] 0 0) = .next u := ⟨by decide, ⟨_, rfl⟩, ⟨_, rfl⟩⟩

theorem test_witness_OrAndXorActBitByBit :
    0 ≤ (testState [(2, 5)] 0 0).reg 1 ∧ 0 ≤ (testState [(2, 5)] 0 0).reg 2 := by decide

theorem test_witness_OrAndXorOfANegativeAreOpen :
    1 ≤ State.reset.cfg.maxLimbs ∧ (testState [(1, -1)] 0 0).reg 1 < 0 ∧ (testState [(2, -1)] 0 0).reg 2 < 0 := by decide

theorem test_witness_ShlMultipliesByAPowerOfTwo : 1 ≤ (testTwoLimbs State.reset).cfg.maxLimbs := by decide

theorem test_witness_BitlenIsTheHighestSetBit :
    (testTwoLimbs (testState [(1, 2 ^ 64 - 1)] 0 0)).cfg.Legal ∧
      Fits (testTwoLimbs (testState [(1, 2 ^ 64 - 1)] 0 0)) ((testTwoLimbs (testState [(1, 2 ^ 64 - 1)] 0 0)).reg 1) ∧
      (testState [] 0 0).reg 1 = 0 ∧ (testTwoLimbs (testState [(1, 2 ^ 64 - 1)] 0 0)).reg 1 ≠ 0 := by
  refine ⟨by unfold Config.Legal; decide, by unfold Fits; decide, by decide, by decide⟩

/-- Zero has one limb: index 31 is the last, 32 the first out of range. -/
theorem test_witness_GetbitReadsABitOfTheMagnitude :
    (testState [] 32 0).arg0.toNat ≥ 32 * limbs ((testState [] 32 0).reg 1) ∧
      (testState [] 31 0).arg0.toNat < 32 * limbs ((testState [] 31 0).reg 1) := by decide

theorem test_witness_SetbitWritesOneBitOfTheMagnitude :
    (testState [(1, -4)] 32 0).arg0.toNat ≥ 32 * limbs ((testState [(1, -4)] 32 0).reg 1) ∧
      (testState [(1, -4)] 31 0).arg0.toNat < 32 * limbs ((testState [(1, -4)] 31 0).reg 1) := by decide

/-- The three orders, and two negatives in each mode. -/
theorem test_witness_CmpReportsTheOrder :
    ComparesLess .literal ((testState [(1, -1)] 0 0).reg 1) ((testState [(1, -1)] 0 0).reg 2) ∧
      ComparesLess .literal ((testState [(1, -3), (2, -5)] 0 0).reg 1) ((testState [(1, -3), (2, -5)] 0 0).reg 2) ∧
      ComparesLess .mathematical ((testState [(1, -3), (2, -5)] 0 0).reg 2) ((testState [(1, -3), (2, -5)] 0 0).reg 1) ∧
      (testState [(1, -5), (2, -5)] 0 0).reg 1 = (testState [(1, -5), (2, -5)] 0 0).reg 2 := by
  unfold ComparesLess; decide

theorem test_witness_ExpmodIsTheModularPower :
    AtIssue ((testState [] 0 0).issue 0x00321420) ∧ (testState [] 0 0).reg 2 ≤ 0 ∧
      (0 < (testState [(2, 1)] 0 0).reg 2 ∧ (testState [(2, 1)] 0 0).reg 3 = 0) ∧
      (0 < (testState [(2, 1), (3, -1)] 0 0).reg 2 ∧ (testState [(2, 1), (3, -1)] 0 0).reg 3 ≠ 0) := by
  refine ⟨rfl, by decide, by decide, by decide⟩

theorem test_witness_PowIsTheIntegerPower :
    AtIssue ((testTwoLimbs State.reset).issue 0x00021321) ∧
      1 ≤ ((testTwoLimbs State.reset).issue 0x00021321).cfg.maxLimbs := ⟨rfl, by decide⟩

/-- 1 and 4 are rejected; so is every negative value. -/
theorem test_witness_IsprimeRejectsOutright :
    (testState [(1, 1)] 0 0).reg 1 < 2 ∧ (testState [(1, -7)] 0 0).reg 1 < 2 ∧
      ((testState [(1, 4)] 0 0).reg 1 ≠ 2 ∧ (testState [(1, 4)] 0 0).reg 1 % 2 = 0) := by decide

/-- 8 passes an iteration of 9, and 2 does not (45_primality.md R155). -/
theorem test_good_witness : GoodWitness 9 8 ∧ ¬ GoodWitness 9 2 := by
  have h : Testable 9 := .inr (by decide)
  rw [← iterationVerdict_passes_iff h, ← iterationVerdict_passes_iff h]
  have e1 : (match iterationVerdict 9 8 with | .ok p => p | .error _ => false) = true := by decide
  have e2 : (match iterationVerdict 9 2 with | .ok p => p | .error _ => true) = false := by decide
  constructor
  · cases hv : iterationVerdict 9 8 with
    | ok p => rw [hv] at e1; exact congrArg _ e1
    | error e => rw [hv] at e1; simp at e1
  · intro hv; rw [hv] at e2; simp at e2

/-- n = 9 with the register witnesses 8 (good), 2 (in range, not good), and 9 and 0 (out of range), each first; n = 2 and
n = 3 are the smallest candidates tested. -/
theorem test_witness_IsprimeJudgesRegisterWitnesses :
    AtIssue ((testRegisterSource (testState [(1, 9), (8, 8)] 1 0)).issue 0x00081024) ∧
      ((testRegisterSource (testState [(1, 9), (8, 8)] 1 0)).issue 0x00081024).ctrl.wsrc = true ∧
      Testable ((testState [(1, 9), (8, 8)] 1 0).reg 1) ∧ Testable 2 ∧ Testable 3 ∧
      0 < (testState [(1, 9), (8, 8)] 1 0).arg0.toNat ∧ (8 : Reg).val = ((8 : Reg).val + 0) % 16 ∧
      GoodWitness ((testState [(1, 9), (8, 8)] 1 0).reg 1) ((testState [(1, 9), (8, 8)] 1 0).reg 8) ∧
      (1 ≤ (testState [(1, 9), (8, 2)] 1 0).reg 8 ∧
        (testState [(1, 9), (8, 2)] 1 0).reg 8 ≤ (testState [(1, 9), (8, 2)] 1 0).reg 1 - 1) ∧
      ¬ GoodWitness ((testState [(1, 9), (8, 2)] 1 0).reg 1) ((testState [(1, 9), (8, 2)] 1 0).reg 8) ∧
      (testState [(1, 9), (8, 0)] 1 0).reg 8 < 1 ∧
      (testState [(1, 9), (8, 9)] 1 0).reg 8 > (testState [(1, 9), (8, 9)] 1 0).reg 1 - 1 :=
  ⟨rfl, rfl, .inr (by decide), .inl rfl, .inr (by decide), by decide, by decide, test_good_witness.1, by decide,
    test_good_witness.2, by decide, by decide⟩

/-- An ISPRIME of 9 with no iteration, with one, and with the answer 8 to the last and to an earlier request. -/
theorem test_witness_IsprimeJudgesPortWitnesses :
    (testState [(1, 9)] 1 0).ctrl.wsrc = false ∧ Testable ((testState [(1, 9)] 1 0).reg 1) ∧
      AtIssue ((testState [(1, 9)] 0 0).issue 0x00081024) ∧ (testState [(1, 9)] 0 0).arg0.toNat = 0 ∧
      0 < (testState [(1, 9)] 1 0).arg0.toNat ∧
      ({ testState [(1, 9)] 1 0 with seq := some (.answered 0 8) } : State).seq = some (.answered 0 8) ∧
      GoodWitness ((testState [(1, 9)] 1 0).reg 1) 8 ∧ (testState [(1, 9)] 1 0).arg0.toNat ≤ 0 + 1 ∧
      0 + 1 < (testState [(1, 9)] 2 0).arg0.toNat ∧ ¬ GoodWitness ((testState [(1, 9)] 1 0).reg 1) 2 ∧
      (0 : Int) < 1 ∧ (9 : Int) > (testState [(1, 9)] 1 0).reg 1 - 1 :=
  ⟨rfl, .inr (by decide), rfl, by decide, by decide, rfl, test_good_witness.1, by decide, by decide, test_good_witness.2,
    by decide, by decide⟩

/-- The prime 13: an answer at each end of the range, in the last iteration of one and the first of two; and a register
witness. -/
theorem test_witness_PrimesAlwaysReportProbablyPrime :
    Nat.Prime 13 ∧ (1 : Int) ≤ ((13 : Nat) : Int) - 1 ∧
    (let s (k : Word) (a : Int) :=
       { (testState [(1, 13)] k 0).issue 0x00081024 with seq := some (.answered 0 a) }
     (s 1 12).ctrl.wsrc = false ∧ (s 1 12).reg 1 = ((13 : Nat) : Int) ∧ (s 1 12).seq = some (.answered 0 12) ∧
       (s 1 12).arg0.toNat ≤ 0 + 1 ∧ (s 2 1).ctrl.wsrc = false ∧ (s 2 1).reg 1 = ((13 : Nat) : Int) ∧
       (s 2 1).seq = some (.answered 0 1) ∧ 0 + 1 < (s 2 1).arg0.toNat) ∧
    (let s := (testRegisterSource (testState [(1, 13), (8, 2)] 1 0)).issue 0x00081024
     AtIssue s ∧ s.ctrl.wsrc = true ∧ s.reg 1 = (13 : Nat) ∧
       ∀ r : Reg, 1 ≤ s.reg r ∧ s.reg r ≤ ((13 : Nat) : Int) - 1 ∨
         (∀ i, i < s.arg0.toNat → r.val ≠ ((8 : Reg).val + i) % 16)) := by
  refine ⟨by norm_num, by decide, by decide, rfl, rfl, by decide, ?_⟩
  intro r
  by_cases h : r = 8
  · subst h; left; decide
  · right
    intro i hi hr
    have hi' : i < 1 := hi
    have hi0 : i = 0 := by omega
    subst hi0
    exact h (Fin.ext (by simpa using hr))

/-- A wait, with an answer, with host accesses (a CTRL write with SRST in a lane not strobed among them) and with each
reset to come. -/
theorem test_witness_WitnessWaitEndsOnlyByAnAnswerOrAReset :
    let s := { (testState [(1, 9)] 1 0).issue 0x00081024 with seq := some (.waiting 0 8), inputs := [.answer 8] }
    s.seq = some (.waiting 0 8) ∧ decode s.cmd = .ok (.isprime 1 8) ∧ Testable (s.reg 1) ∧ s.inputs = .answer 8 :: [] ∧
      (testEvent s .finish).inputs = .finish :: [] ∧ (testEvent s .work).inputs = .work :: [] ∧
      (∀ a, Event.read 0x20 ≠ .answer a) ∧ ¬ ResetsTheBlock (.read 0x20) ∧
      (∀ a, Event.write 0xC 4 0xE ≠ .answer a) ∧ ¬ ResetsTheBlock (.write 0xC 4 0xE) ∧
      ResetsTheBlock .powerOn ∧ ResetsTheBlock (.write 0xC 4 1) ∧
      (testEvent State.reset (.answer 8)).wreq = false ∧ (testEvent State.reset (.answer 8)).inputs = .answer 8 :: [] := by
  refine ⟨rfl, by decide, .inr (by decide), rfl, rfl, rfl, ?_, ?_, ?_, ?_, Or.inl rfl,
    Or.inr ⟨_, _, _, rfl, by decide, by decide, by decide⟩, rfl, rfl⟩
  · intro _ h; cases h
  · rintro (h | ⟨_, _, _, h, _⟩) <;> cases h
  · intro _ h; cases h
  · rintro (h | ⟨_, _, _, h, _, h2, _⟩) <;> cases h
    exact absurd h2 (by decide)

/-- 15 bits, 16 bits, and 2^66 with L = 2. -/
theorem test_witness_DsetupEstablishesTheModulus :
    (testState [(1, 1), (2, 0x7FFF)] 0 0).reg 1 * (testState [(1, 1), (2, 0x7FFF)] 0 0).reg 2 < 2 ^ 15 ∧
      (let s := testTwoLimbs (testState [(1, 2 ^ 33), (2, 2 ^ 33)] 0 0)
       2 ^ 15 ≤ s.reg 1 * s.reg 2 ∧ ¬ Fits s (s.reg 1 * s.reg 2)) ∧
      (let s := testState [(1, 1), (2, 0x8000)] 0 0
       2 ^ 15 ≤ s.reg 1 * s.reg 2 ∧ Fits s (s.reg 1 * s.reg 2)) := by
  refine ⟨by decide, ?_, ?_⟩ <;> · unfold Fits; decide

/-- M = 2^128 has 129 bits, one more than N = 67591 allows (95_test_vectors.md S11). -/
theorem test_witness_DigestChecksInOrder :
    State.reset.dctx.valid = false ∧
      (let s := testModulus (testState [(1, -1)] 0 0) 67591
       s.dctx.valid = true ∧ s.reg 1 < 0) ∧
      (let s := testModulus (testState [(1, 2 ^ 128)] 0 0) 67591
       s.dctx.valid = true ∧ 0 < s.reg 1 ∧ 0 < s.dctx.n ∧ IsBitLength s.dctx.n.toNat 17 ∧
         IsBitLength (s.reg 1).toNat 129 ∧ 129 > 2 ^ (8 * (17 / 16) - 1)) := by
  refine ⟨rfl, by decide, ?_⟩
  unfold IsBitLength; decide

/-- The messages 0 and 0x61 under N = 67591, and the longest message, 2^128 - 1. -/
theorem test_witness_DigestFollowsTheRounds :
    (let s := (testModulus (testState [] 0 0) 67591).issue 0x00001229
     AtIssue s ∧ s.dctx.valid = true ∧ 2 ^ 15 ≤ s.dctx.n ∧ 0 ≤ s.reg 1 ∧ IsBitLength s.dctx.n.toNat 17 ∧
       16 = 16 * (17 / 16) ∧ 8 = 16 / 2 ∧ (s.reg 1 = 0 ∧ 0 = s.cfg.bitlenZero.val) ∧ 0 ≤ 2 ^ (8 - 1) ∧
       0 = (8 - 0 % 8) % 8 ∧ 0 = (0 + 0) / 8) ∧
    (let s := (testModulus (testState [(1, 0x61)] 0 0) 67591).issue 0x00001229
     AtIssue s ∧ s.dctx.valid = true ∧ 0 ≤ s.reg 1 ∧ IsBitLength (s.reg 1).toNat 7 ∧ 7 ≤ 2 ^ (8 - 1) ∧
       1 = (8 - 7 % 8) % 8 ∧ 1 = (7 + 1) / 8) ∧
    (let s := (testModulus (testState [(1, 2 ^ 128 - 1)] 0 0) 67591).issue 0x00001229
     AtIssue s ∧ 0 ≤ s.reg 1 ∧ IsBitLength (s.reg 1).toNat 128 ∧ 128 ≤ 2 ^ (8 - 1) ∧ 0 = (8 - 128 % 8) % 8 ∧
       16 = (128 + 0) / 8) := by
  unfold IsBitLength AtIssue; decide

theorem test_witness_DgetnReadsTheModulus :
    State.reset.dctx.valid = false ∧ (testModulus State.reset 67591).dctx.valid = true := by decide

theorem test_witness_ReadsHaveNoSideEffect :
    (testEvent (State.reset.issue 0x00002701) (.read 0x20)).inputs = .read 0x20 :: [] := by decide

/-- Each word of the register map, the first and last reserved offsets, and the first and last buffer words. -/
theorem test_witness_ReadsReturnTheRegisterMap :
    State.reset.cfg.Legal ∧ (testEvent State.reset (.read 0)).inputs = .read 0 :: [] ∧
      (∃ t, step (testEvent State.reset (.read 0)) = .next t) ∧ State.reset.busy = false ∧
      wordOffset 0x000 = 0x000 ∧ wordOffset 0x007 = 0x004 ∧ wordOffset 0x008 = 0x008 ∧ wordOffset 0x00C = 0x00C ∧
      wordOffset 0x010 = 0x010 ∧ wordOffset 0x014 = 0x014 ∧ wordOffset 0x018 = 0x018 ∧ wordOffset 0x01C = 0x01C ∧
      wordOffset 0x023 = 0x020 ∧ (0x024 ≤ wordOffset 0x024 ∧ wordOffset 0x024 < 0x10000) ∧
      (0x024 ≤ wordOffset 0x0FFFF ∧ wordOffset 0x0FFFF < 0x10000) ∧
      0x10000 + State.reset.cfg.bufBytes ≤ wordOffset 0x10800 ∧ 0x10000 ≤ wordOffset 0x10000 ∧
      wordOffset 0x107FF < 0x10000 + State.reset.cfg.bufBytes := by
  refine ⟨by unfold Config.Legal; decide, rfl, ⟨_, rfl⟩, ?_⟩; decide

theorem test_witness_BusyWritesAreRefused :
    let s := testEvent (State.reset.issue 0x00002701) (.write 0x14 0 0xF)
    s.busy = true ∧ s.inputs = .write 0x14 0 0xF :: [] ∧ wordOffset 0x14 = 0x014 ∧ wordOffset 0x18 = 0x018 ∧
      wordOffset 0x1C = 0x01C ∧
      (wordOffset 0x0C = 0x00C ∧ ¬((0b1110 : Strobes).getLsbD 0 = true ∧ (4 : Word).getLsbD 2 = true)) ∧
      (0x10000 ≤ wordOffset 0x10000 ∧ wordOffset 0x107FF < 0x10000 + s.cfg.bufBytes) ∧ wordOffset 0x0B < 0x00C ∧
      (0x020 ≤ wordOffset 0x20 ∧ wordOffset 0x20 < 0x10000) ∧ 0x10000 + s.cfg.bufBytes ≤ wordOffset 0x10800 := by
  decide

theorem test_witness_IdleWritesTakeTheStrobedLanes :
    let s := testEvent State.reset (.write 0x18 5 0b0101)
    s.busy = false ∧ s.inputs = .write 0x18 5 0b0101 :: [] ∧ wordOffset 0x18 = 0x018 ∧ wordOffset 0x1F = 0x01C ∧
      (0x10000 ≤ wordOffset 0x10000 ∧ wordOffset 0x107FF < 0x10000 + s.cfg.bufBytes) ∧ wordOffset 0x0B < 0x00C ∧
      (0x020 ≤ wordOffset 0x20 ∧ wordOffset 0x0FFFF < 0x10000) ∧ 0x10000 + s.cfg.bufBytes ≤ wordOffset 0x10800 := by
  decide

theorem test_witness_StatusWriteClearsDoneAndOvr :
    wordOffset 0x13 = 0x010 ∧ (testEvent State.reset (.write 0x13 0x82 1)).inputs = .write 0x13 0x82 1 :: [] := by decide

theorem test_witness_IdleCtrlWriteSetsItsFields :
    let s := testEvent State.reset (.write 0xC 3 1)
    s.busy = false ∧ wordOffset 0xC = 0x00C ∧ s.inputs = .write 0xC 3 1 :: [] ∧ (1 : Strobes).getLsbD 0 = true ∧
      (3 : Word).getLsbD 2 = false ∧ (0b1110 : Strobes).getLsbD 0 = false := by decide

theorem test_witness_ResetPutsEveryPieceAtItsValue :
    (testEvent (State.reset.issue 0x00002701) .powerOn).inputs = .powerOn :: [] ∧ wordOffset 0xC = 0x00C ∧
      (1 : Strobes).getLsbD 0 = true ∧ (7 : Word).getLsbD 2 = true ∧
      (testEvent (State.reset.issue 0x00002701) (.write 0xC 7 1)).inputs = .write 0xC 7 1 :: [] := by decide

/-- IRQ rises at a completion with IRQ_EN = 1, and at a CTRL write while DONE = 1. -/
theorem test_witness_OnlyCompletionsRaiseTheInterrupt :
    (∃ t, step { State.reset.issue 0x00002701 with ctrl := { irqEn := true, wsrc := false } } = .next t ∧
        State.irq { State.reset.issue 0x00002701 with ctrl := { irqEn := true, wsrc := false } } = false ∧ t.irq = true) ∧
      ∃ t, step (testEvent (State.reset.complete false) (.write 0xC 1 1)) = .next t ∧
        (testEvent (State.reset.complete false) (.write 0xC 1 1)).irq = false ∧ t.irq = true :=
  ⟨⟨_, rfl, rfl, by decide⟩, ⟨_, rfl, rfl, by decide⟩⟩

theorem test_witness_OperandsKeepTheirValuesWhileBusy :
    ∃ t, step (testEvent (State.reset.issue 0x00002701) (.write 0x18 5 0xF)) = .next t ∧
      (testEvent (State.reset.issue 0x00002701) (.write 0x18 5 0xF)).busy = true ∧ t.busy = true :=
  ⟨_, rfl, rfl, by decide⟩

/-- A MOV changes V7, a BITLEN changes RES, a CMP the flags, a DSETUP the digest context. -/
theorem test_witness_ResultsChangeOnlyByTheirCommands :
    (∃ t, step ((testState [(2, 7)] 0 0).issue 0x00002701) = .next t ∧ t.epoch = 0 ∧
        t.reg 7 ≠ ((testState [(2, 7)] 0 0).issue 0x00002701).reg 7) ∧
      (∃ t, step ((testState [(1, 7)] 0 0).issue 0x00001014) = .next t ∧ t.epoch = 0 ∧ t.res ≠ 0) ∧
      (∃ t, step ((testState [] 0 0).issue 0x00065018) = .next t ∧ t.epoch = 0 ∧
        ¬ SameFlags ((testState [] 0 0).issue 0x00065018) t) ∧
      ∃ t, step ((testState [(1, 257), (2, 263)] 0 0).issue 0x00021028) = .next t ∧ t.epoch = 0 ∧
        t.dctx ≠ ((testState [(1, 257), (2, 263)] 0 0).issue 0x00021028).dctx := by
  refine ⟨⟨_, rfl, rfl, by decide⟩, ⟨_, rfl, rfl, by decide⟩, ⟨_, rfl, rfl, ?_⟩, ⟨_, rfl, rfl, by decide⟩⟩
  unfold SameFlags; decide

theorem test_witness_ResultsDoNotDependOnTiming : ((testState [(1, -5)] 1 0).issue 0x00321420).Inv :=
  test_inv_of_running _ _ (by decide)

theorem test_witness_EveryStepKeepsTheInvariant :
    ((testState [(1, -5)] 1 0).issue 0x00321420).Inv ∧ ∃ t, step ((testState [(1, -5)] 1 0).issue 0x00321420) = .next t :=
  ⟨test_inv_of_running _ _ (by decide), _, rfl⟩
end

namespace Sys2Proof.Machine

/-! ## The interrupt (10_state.md R44; 60_exceptions.md R199, R200) -/

/-- IRQ as the host can compute it from the words it reads (10_state.md R44). -/
theorem State.irq_eq_readBits (s : State) : s.irq = (s.ctrlWord.getLsbD 0 && s.statusWord.getLsbD 1) := by
  rw [ctrlWord_getLsbD, statusWord_getLsbD]; rfl

theorem State.irq_eq_true_iff (s : State) : s.irq = true ↔ s.ctrl.irqEn = true ∧ s.status.done = true :=
  Bool.and_eq_true_iff

@[simp] theorem State.resetBlock_irq (s : State) : s.resetBlock.irq = false := rfl

@[simp] theorem State.issue_irq (s : State) (w : Word) : (s.issue w).irq = false := Bool.and_false _

/-- A write of DONE and OVR that cannot set DONE cannot raise IRQ (10_state.md R35). -/
theorem irq_of_irq_after_status {s : State} {d o : Bool} (hd : d = true → s.status.done = true)
    (h : State.irq { s with status := { s.status with done := d, ovr := o } } = true) : s.irq = true := by
  obtain ⟨hen, hdone⟩ := (State.irq_eq_true_iff _).1 h
  exact (State.irq_eq_true_iff s).2 ⟨hen, hd hdone⟩

/-- A command's turn completes it or leaves IRQ alone: a witness request or wait raises nothing
(60_exceptions.md R200). -/
theorem ExecShape.completes_or_irq_eq {i : Instr} {s t : State} (h : ExecShape i s t) :
    (t.busy = false ∧ t.status.done = true) ∨ t.irq = s.irq := by
  cases h with
  | fail | reg | res | text | order | context => exact .inl ⟨rfl, rfl⟩
  | request | wait => exact .inr rfl

/-- An idle block's host write raises IRQ only through CTRL, and only while DONE = 1. -/
theorem IdleWrite.irq_of_irq_after {s t : State} {addr : PortAddr} (h : IdleWrite s addr t) (ht : t.irq = true) :
    s.irq = true ∨ (s.status.done = true ∧ wordOffset addr = 0x00C) := by
  cases h with
  | reset => simp at ht
  | issue w => simp at ht
  | status d o hd => exact .inl (irq_of_irq_after_status hd ht)
  | ctrl c ha => exact .inr ⟨((State.irq_eq_true_iff _).1 ht).2, ha⟩
  | arg0 | arg1 | buf | ignored => exact .inl ht

/-- The sequencer's work changes neither CTRL nor STATUS. -/
theorem State.work_irq (s : State) : s.work.irq = s.irq := by
  rcases work_seq s with h | ⟨-, q, h⟩ <;> rw [h]; rfl

/-- What IRQ = 1 after a step comes from: a completion, a CTRL write while DONE = 1, or IRQ = 1 before it. -/
theorem StepShape.irq_of_irq_after {s t : State} (h : StepShape s t) (ht : t.irq = true) :
    s.irq = true ∨ (s.busy = true ∧ t.busy = false ∧ t.status.done = true) ∨
      (s.status.done = true ∧ ∃ addr data strb rest, s.inputs = .write addr data strb :: rest ∧
        wordOffset addr = 0x00C) := by
  cases h with
  | turn i _ hb _ hx =>
    rcases hx.completes_or_irq_eq with hc | hirq
    · exact .inr (.inl ⟨hb, hc⟩)
    · exact .inl (hirq.symm.trans ht)
  | illegal _ hb => exact .inr (.inl ⟨hb, rfl, rfl⟩)
  | reset => simp at ht
  | busyWrite d o _ hd => exact .inl (irq_of_irq_after_status (s := s.popped) hd ht)
  | idleWrite addr data strb rest _ _ hi hw =>
    rcases hw.irq_of_irq_after ht with hirq | ⟨hdone, ha⟩
    · exact .inl hirq
    · exact .inr (.inr ⟨hdone, addr, data, strb, rest, hi, ha⟩)
  | work => exact .inl ((State.work_irq s.popped).symm.trans ht)
  | idle | read | answer => exact .inl ht

/-- Settles O52, by the cases of what a step can do. -/
theorem onlyCompletionsRaiseTheInterrupt : Obligations.OnlyCompletionsRaiseTheInterrupt :=
  ⟨State.irq_eq_readBits, fun _ _ hstep hs ht =>
    ((step_shape hstep).irq_of_irq_after ht).resolve_left (by simp [hs])⟩

end Sys2Proof.Machine

namespace Sys2Proof

/-! ## The opcode map (30_encoding.md R73, R77) -/

/-- A masked word is compared field by field (30_encoding.md R70, R73). -/
theorem and_eq_iff_fields (w m v : Word) :
    w &&& m = v ↔
      (wordFields w).op &&& (wordFields m).op = (wordFields v).op ∧
        (wordFields w).rd &&& (wordFields m).rd = (wordFields v).rd ∧
        (wordFields w).rs1 &&& (wordFields m).rs1 = (wordFields v).rs1 ∧
        (wordFields w).rs2 &&& (wordFields m).rs2 = (wordFields v).rs2 ∧
        (wordFields w).rs3 &&& (wordFields m).rs3 = (wordFields v).rs3 ∧
        (wordFields w).reserved &&& (wordFields m).reserved = (wordFields v).reserved := by
  rw [← (Function.LeftInverse.injective fieldsWord_wordFields).eq_iff]
  conv_lhs => rw [← fieldsWord_wordFields w, ← fieldsWord_wordFields m, fieldsWord_and, wordFields_fieldsWord]
  cases wordFields v
  rw [Fields.mk.injEq]

/-- The fields a command decodes from are its own: each row of the decoder requires the fields its command does not
use to be 0 (30_encoding.md R72). -/
theorem instrFields_of_decodeFields {f : Fields} {i : Instr} (h : decodeFields f = .ok i) : instrFields i = f := by
  obtain ⟨op, rd, rs1, rs2, rs3, reserved⟩ := f
  simp only [decodeFields] at h
  repeat
    rcases decodeRow_eq_ok h with ⟨hop, hzero, rfl⟩ | h
    · simp only [Bool.and_eq_true, beq_iff_eq] at hzero
      simp [instrFields, commandFields, regField_zero, hop, hzero]
  cases h

theorem encode_of_decode {w : Word} {i : Instr} (h : decode w = .ok i) : encode i = w := by
  rw [encode, instrFields_of_decodeFields h, fieldsWord_wordFields]

/-- Every command has a row of the opcode map, and its word matches that row. -/
theorem exists_row_matching_encode (i : Instr) :
    ∃ row ∈ opcodeRows, row.1 = mnemonic i ∧ encode i &&& row.2.2 = row.2.1 := by
  cases i
  all_goals
    -- The rows of other mnemonics drop out, and the command's own row is the first that is left.
    simp only [opcodeRows, mnemonic, List.mem_cons, exists_eq_or_imp, String.reduceEq, false_and, true_and, false_or]
    left
    simp [encode_and, instrFields, commandFields, wordFields, regField_zero, fieldsWord]

/-- The opcode map names each mnemonic once. -/
theorem row_unique_of_mnemonic {row row' : String × Word × Word} (h : row ∈ opcodeRows) (h' : row' ∈ opcodeRows)
    (hname : row.1 = row'.1) : row = row' := by
  have hnodup : (opcodeRows.map Prod.fst).Nodup := by decide
  exact List.inj_on_of_nodup_map hnodup h h' hname

/-- No two rows of the opcode map match the same word: each fixes OP (30_encoding.md R73). -/
theorem row_unique_of_match {w : Word} {row row' : String × Word × Word} (h : row ∈ opcodeRows)
    (h' : row' ∈ opcodeRows) (hw : w &&& row.2.2 = row.2.1) (hw' : w &&& row'.2.2 = row'.2.1) : row = row' := by
  have hmask : ∀ r ∈ opcodeRows, (wordFields r.2.2).op = BitVec.allOnes 8 := by decide
  have hnodup : (opcodeRows.map fun r => (wordFields r.2.1).op).Nodup := by decide
  have hop := ((and_eq_iff_fields _ _ _).1 hw).1
  have hop' := ((and_eq_iff_fields _ _ _).1 hw').1
  rw [hmask _ h, BitVec.and_allOnes] at hop
  rw [hmask _ h', BitVec.and_allOnes] at hop'
  exact List.inj_on_of_nodup_map hnodup h h' (hop.symm.trans hop')

/-- A word that a row matches is legal: its OP is the row's, and the fields the mask selects besides are 0
(30_encoding.md R74). -/
theorem exists_decode_of_match {w : Word} {row : String × Word × Word} (h : row ∈ opcodeRows)
    (hw : w &&& row.2.2 = row.2.1) : ∃ i, decode w = .ok i := by
  rw [and_eq_iff_fields] at hw
  rw [decode]
  generalize wordFields w = f at hw ⊢
  have and4 (x : BitVec 4) : x &&& 15#4 = x := BitVec.and_allOnes
  have and8 (x : BitVec 8) : x &&& 255#8 = x := BitVec.and_allOnes
  fin_cases h
  all_goals
    simp only [wordFields, BitVec.ofNat_eq_ofNat, BitVec.reduceExtractLsb', BitVec.and_zero, and4, and8] at hw
    simp [decodeFields, requireZero, hw]

/-- A row matches a word exactly when the word decodes to a command of the row's mnemonic (30_encoding.md R77): the row
that matches the word and the row of the command it decodes to are one row. -/
theorem match_iff_decode_mnemonic {row : String × Word × Word} (h : row ∈ opcodeRows) (w : Word) :
    w &&& row.2.2 = row.2.1 ↔ ∃ i, decode w = .ok i ∧ mnemonic i = row.1 := by
  constructor
  · intro hw
    obtain ⟨i, hi⟩ := exists_decode_of_match h hw
    obtain ⟨row', h', hname, hw'⟩ := exists_row_matching_encode i
    rw [encode_of_decode hi] at hw'
    exact ⟨i, hi, by rw [row_unique_of_match h h' hw hw', hname]⟩
  · rintro ⟨i, hi, hmn⟩
    obtain ⟨row', h', hname, hw'⟩ := exists_row_matching_encode i
    rw [encode_of_decode hi] at hw'
    rwa [row_unique_of_mnemonic h h' (hmn.symm.trans hname.symm)]

/-- Settles O4, from the row of each command and the uniqueness of rows. -/
theorem decoderFollowsTheOpcodeMap : Obligations.DecoderFollowsTheOpcodeMap :=
  ⟨fun _ hrow w => match_iff_decode_mnemonic hrow w,
    fun i => (exists_row_matching_encode i).imp fun _ ⟨hrow, hname, _⟩ => ⟨hrow, hname⟩,
    fun _ _ h => instrFields_of_decodeFields h⟩

end Sys2Proof

namespace Sys2Proof.Machine

/-! ## Construction, copy and hex conversion (40_construction.md R90 to R95) -/

/-- A command's word is the one its mnemonic's row of the opcode map prescribes (30_encoding.md R73). -/
theorem hasEncoding_of_row {i : Instr} {name : String} {word mask : Word} (h : (name, word, mask) ∈ opcodeRows)
    (hi : mnemonic i = name) : HasEncoding i word mask := by
  obtain ⟨row, hrow, hname, hw⟩ := exists_row_matching_encode i
  rwa [row_unique_of_mnemonic hrow h (hname.trans hi)] at hw

/-- The native integer of ARG0, with its sign bit's weight written out (30_encoding.md R75). -/
theorem arg0Int_eq (s : State) :
    s.arg0Int = if s.arg0.toNat < 2 ^ 31 then (s.arg0.toNat : Int) else (s.arg0.toNat : Int) - 2 ^ 32 := by
  rw [State.arg0Int, BitVec.toInt_eq_toNat_cond]
  split_ifs <;> omega

/-- Settles O13: MOV ends in the shared register completion, and its frame is that completion's. -/
theorem movCopiesTheValue : Obligations.MovCopiesTheValue := fun rd rs1 s =>
  ⟨hasEncoding_of_row (name := "MOV") (by decide) rfl, _, rfl, finishReg_writesReg s rd (s.reg rs1) false⟩

/-- Settles O14: FROMINT ends in the shared register completion, with ARG0 as a signed number. -/
theorem fromintReadsASignedWord : Obligations.FromintReadsASignedWord := by
  intro rd s
  rw [← arg0Int_eq]
  exact ⟨hasEncoding_of_row (name := "FROMINT") (by decide) rfl, _, rfl, finishReg_writesReg s rd s.arg0Int false⟩

/-! ### FROMHEX -/

/-- A text that ends past B is BUFFER_RANGE, whatever its bytes are (40_construction.md R92). -/
theorem exec_fromhex_of_past_end {s : State} (h : s.arg0Nat + s.arg1Nat > s.cfg.bufBytes) (rd : Reg) :
    exec (.fromhex rd) s = .next (s.fail .bufferRange) := if_pos h

/-- Bytes that are no hex text are MALFORMED_INPUT (40_construction.md R92, R93). -/
theorem exec_fromhex_of_malformed {s : State} (h : s.arg0Nat + s.arg1Nat ≤ s.cfg.bufBytes)
    (ht : parseHex (s.bufBytesFrom s.arg0Nat s.arg1Nat) = none) (rd : Reg) :
    exec (.fromhex rd) s = .next (s.fail .malformedInput) := by
  simp only [exec, execFromhex, if_neg (Nat.not_lt.2 h), ht]

/-- A hex text's value is judged against L (40_construction.md R92). -/
theorem exec_fromhex_of_text {s : State} {x : Int} (h : s.arg0Nat + s.arg1Nat ≤ s.cfg.bufBytes)
    (ht : parseHex (s.bufBytesFrom s.arg0Nat s.arg1Nat) = some x) (rd : Reg) :
    exec (.fromhex rd) s = .next (s.finishCapacity rd x false) := by
  simp only [exec, execFromhex, if_neg (Nat.not_lt.2 h), ht]

/-- Settles O15, by FROMHEX's three outcomes and what the parser accepts. -/
theorem fromhexParsesTheText : Obligations.FromhexParsesTheText := by
  intro rd s
  refine ⟨hasEncoding_of_row (name := "FROMHEX") (by decide) rfl, fun hend => ?_, fun hin htext => ?_,
    fun neg ds hin htext => ?_⟩
  · exact ⟨_, exec_fromhex_of_past_end hend rd, fail_fails s .bufferRange⟩
  · exact ⟨_, exec_fromhex_of_malformed hin ((parseHex_eq_none_iff _).2 htext) rd, fail_fails s .malformedInput⟩
  · have hparse := (parseHex_eq_some_iff _ _).2 ⟨neg, ds, htext, rfl⟩
    exact ⟨_, exec_fromhex_of_text hin hparse rd, finishCapacity_writesOrCapacity s rd _⟩

/-! ### TOHEX -/

/-- A text that would end past B is BUFFER_RANGE (40_construction.md R94). -/
theorem exec_tohex_of_past_end {s : State} {rs1 : Reg}
    (h : s.arg0Nat + (hexString (s.reg rs1)).length > s.cfg.bufBytes) :
    exec (.tohex rs1) s = .next (s.fail .bufferRange) := if_pos h

/-- A text that fits goes to the buffer at ARG0, and its length to RES (40_construction.md R94). -/
theorem exec_tohex_of_fits {s : State} {rs1 : Reg}
    (h : s.arg0Nat + (hexString (s.reg rs1)).length ≤ s.cfg.bufBytes) :
    exec (.tohex rs1) s =
      .next ({ s with buf := Memory.setBytes s.buf s.arg0Nat (hexString (s.reg rs1)) }.finishRes
        (BitVec.ofNat 32 (hexString (s.reg rs1)).length)) := if_neg (Nat.not_lt.2 h)

/-- Settles O16: the renderer's text, TOHEX's two outcomes, and the buffer's read after write. -/
theorem tohexWritesTheText : Obligations.TohexWritesTheText := by
  intro rs1 s
  obtain ⟨ds, hne, hhead, hvalue, d, hdigits, htext⟩ := hexString_spec (s.reg rs1)
  refine ⟨hasEncoding_of_row (name := "TOHEX") (by decide) rfl, ds, d, hexString (s.reg rs1), hne, hhead, hvalue,
    hdigits, htext, fun hend => ?_, fun hin => ?_⟩
  · exact ⟨_, exec_tohex_of_past_end hend, fail_fails s .bufferRange⟩
  · -- The completion writes RES alone to the state that holds the text: what it keeps of that state's registers,
    -- flags and context is s's own, and what it keeps of its buffer is the text between s's bytes.
    obtain ⟨hres, hregs, hsucc, hflags, hdctx, hbuf, hout⟩ :=
      finishRes_writesRes { s with buf := Memory.setBytes s.buf s.arg0Nat (hexString (s.reg rs1)) }
        (BitVec.ofNat 32 (hexString (s.reg rs1)).length)
    exact ⟨_, exec_tohex_of_fits hin, hres, fun _ hj => (hbuf _).trans (bufByte_setBytes_inside s _ _ hj),
      fun a ha => (hbuf a).trans (bufByte_setBytes_outside s _ _ ha), hregs, hsucc, hflags, hdctx, hout⟩

end Sys2Proof.Machine

namespace Sys2Proof.Machine

/-! ## Arithmetic (41_arithmetic.md R100, R104 to R106) -/

/-- A zero operand, or operands of one sign, keep ADD off the ADD_MIXED path (41_arithmetic.md R100). -/
theorem addIsMixed_eq_false {a b : Int} (h : a = 0 ∨ b = 0 ∨ (a < 0 ↔ b < 0)) : addIsMixed a b = false := by
  rw [Bool.eq_false_iff, ne_eq, addIsMixed_iff]
  tauto

/-- Off the ADD_MIXED path ADD ends in the shared judgement of the sum against L, with UNDEF = 0. -/
theorem exec_add_of_not_mixed {s : State} {rs1 rs2 : Reg} (h : addIsMixed (s.reg rs1) (s.reg rs2) = false) (rd : Reg) :
    exec (.add rd rs1 rs2) s = .next (s.finishCapacity rd (s.reg rs1 + s.reg rs2) false) := by
  simp only [exec, execAdd, h, addValue_eq h]

/-- Settles O18, by the sum off the ADD_MIXED path and the shared judgement against L. -/
theorem addIsExactOffTheMixedCase : Obligations.AddIsExactOffTheMixedCase := fun rd _ _ s =>
  ⟨hasEncoding_of_row (name := "ADD") (by decide) rfl, fun h =>
    ⟨_, exec_add_of_not_mixed (addIsMixed_eq_false h) rd, finishCapacity_writesOrCapacity s rd _⟩⟩

/-- MUL ends in the shared judgement of the product against L (41_arithmetic.md R104). -/
theorem exec_mul (rd rs1 rs2 : Reg) (s : State) :
    exec (.mul rd rs1 rs2) s = .next (s.finishCapacity rd (s.reg rs1 * s.reg rs2) false) := by
  simp only [exec, execMul, mul_value_eq]

/-- Settles O21, by the product and the shared judgement against L. -/
theorem mulIsExact : Obligations.MulIsExact := fun rd rs1 rs2 s =>
  ⟨hasEncoding_of_row (name := "MUL") (by decide) rfl, _, exec_mul rd rs1 rs2 s,
    finishCapacity_writesOrCapacity s rd _⟩

/-- A zero divisor ends DIV (41_arithmetic.md R105). -/
theorem exec_div_of_zero {s : State} {rs2 : Reg} (h : s.reg rs2 = 0) (rd rs1 : Reg) :
    exec (.div rd rs1 rs2) s = .next (s.fail .divisionByZero) := if_pos h

/-- A nonzero divisor gives DIV the truncated quotient, whatever L is (41_arithmetic.md R105). -/
theorem exec_div_of_ne_zero {s : State} {rs2 : Reg} (h : s.reg rs2 ≠ 0) (rd rs1 : Reg) :
    exec (.div rd rs1 rs2) s = .next (s.finishReg rd ((s.reg rs1).tdiv (s.reg rs2)) false) := by
  simp only [exec, execDiv, if_neg h, div_value_eq]

/-- Settles O22, by DIV's two outcomes. -/
theorem divTruncates : Obligations.DivTruncates := fun rd rs1 _ s =>
  ⟨hasEncoding_of_row (name := "DIV") (by decide) rfl,
    fun h => ⟨_, exec_div_of_zero h rd rs1, fail_fails s .divisionByZero⟩,
    fun h => ⟨_, exec_div_of_ne_zero h rd rs1, finishReg_writesReg s rd _ false⟩⟩

/-- A zero divisor ends MOD (41_arithmetic.md R106). -/
theorem exec_mod_of_zero {s : State} {rs2 : Reg} (h : s.reg rs2 = 0) (rd rs1 : Reg) :
    exec (.mod rd rs1 rs2) s = .next (s.fail .divisionByZero) := if_pos h

/-- A nonzero divisor gives MOD the remainder of ModOp, whatever L is (41_arithmetic.md R106). -/
theorem exec_mod_of_ne_zero {s : State} {rs2 : Reg} (h : s.reg rs2 ≠ 0) (rd rs1 : Reg) :
    exec (.mod rd rs1 rs2) s = .next (s.finishReg rd (modOp (s.reg rs1) (s.reg rs2)) false) := if_neg h

/-- ModOp is odd in its dividend. -/
theorem modOp_neg_left (p m : Int) : modOp (-p) m = -modOp p m := by
  rw [modOp_eq_tmod, modOp_eq_tmod, Int.neg_tmod]

/-- A negative remainder has a negative dividend. -/
theorem neg_of_modOp_neg {p m : Int} (h : modOp p m < 0) : p < 0 := by
  rw [modOp_eq_tmod] at h
  by_contra hp
  exact h.not_ge (Int.tmod_nonneg m (not_lt.1 hp))

/-- A positive remainder has a positive dividend: the remainder of the opposite dividend is negative. -/
theorem pos_of_modOp_pos {p m : Int} (h : 0 < modOp p m) : 0 < p := by
  rw [← neg_lt_zero, ← modOp_neg_left] at h
  exact neg_lt_zero.1 (neg_of_modOp_neg h)

/-- Settles O23, by MOD's two outcomes and the magnitude and sign of ModOp. -/
theorem modKeepsTheDividendsSign : Obligations.ModKeepsTheDividendsSign := fun rd rs1 rs2 s =>
  ⟨hasEncoding_of_row (name := "MOD") (by decide) rfl,
    fun h => ⟨_, exec_mod_of_zero h rd rs1, fail_fails s .divisionByZero⟩,
    fun h => ⟨_, _, exec_mod_of_ne_zero h rd rs1, finishReg_writesReg s rd _ false,
      mag_modOp (s.reg rs1) (s.reg rs2), neg_of_modOp_neg, pos_of_modOp_pos⟩⟩

end Sys2Proof.Machine

namespace Sys2Proof.Machine

/-! ## Shift and bit access (42_bitwise_shift.md R123 to R125, R129 to R131) -/

/-- SHL ends in the shared judgement of a·2^c against L in each of its branches (42_bitwise_shift.md R123, R125): a count
of at most 0 shifts by 0, zero stays zero, and otherwise the bit length SHL tests says whether the product fits. -/
theorem exec_shl {s : State} (hL : 1 ≤ s.cfg.maxLimbs) (rd rs1 rs2 : Reg) :
    exec (.shl rd rs1 rs2) s = .next (s.finishCapacity rd (s.reg rs1 * 2 ^ (s.reg rs2).toNat) false) := by
  by_cases hc : s.reg rs2 ≤ 0
  · simp only [exec, execShl, if_pos hc, Int.toNat_of_nonpos hc, pow_zero, mul_one]
  by_cases ha : s.reg rs1 = 0
  · simp only [exec, execShl, if_neg hc, ha, zero_mul, if_true]
  simp only [exec, execShl, if_neg hc, if_neg ha]
  have hfits := limbs_shl_le_iff hL ha (s.reg rs2).toNat
  split_ifs with hbits
  · rw [shl_value_eq, finishCapacity_of_fits (hfits.2 hbits)]
  · rw [finishCapacity_of_not_fits (mt hfits.1 hbits)]

/-- Settles O27, by SHL's one completion. -/
theorem shlMultipliesByAPowerOfTwo : Obligations.ShlMultipliesByAPowerOfTwo := fun rd rs1 rs2 s hL =>
  ⟨hasEncoding_of_row (name := "SHL") (by decide) rfl, _, exec_shl hL rd rs1 rs2,
    finishCapacity_writesOrCapacity s rd _⟩

/-- A count of at least the bit length shifts every bit out (42_bitwise_shift.md R124). -/
theorem tdiv_two_pow_eq_zero {a : Int} {c : Nat} (h : bitlen (mag a) ≤ c) : a.tdiv (2 ^ c) = 0 := by
  rw [← shr_value_eq, Nat.div_eq_of_lt ((bitlen_le_iff _ _).1 h), norm_zero]

/-- SHR writes the truncated quotient in each of its branches (42_bitwise_shift.md R124, R125): by 2^0 for a count of at
most 0, and 0 from the bit length on. -/
theorem exec_shr (rd rs1 rs2 : Reg) (s : State) :
    exec (.shr rd rs1 rs2) s = .next (s.finishReg rd ((s.reg rs1).tdiv (2 ^ (s.reg rs2).toNat)) false) := by
  by_cases hc : s.reg rs2 ≤ 0
  · simp only [exec, execShr, if_pos hc, Int.toNat_of_nonpos hc, pow_zero, Int.tdiv_one]
  by_cases hbits : bitlen (mag (s.reg rs1)) ≤ (s.reg rs2).toNat
  · simp only [exec, execShr, if_neg hc, if_pos hbits, tdiv_two_pow_eq_zero hbits]
  · simp only [exec, execShr, if_neg hc, if_neg hbits, shr_value_eq]

/-- Settles O28, by SHR's one completion. -/
theorem shrDividesByAPowerOfTwo : Obligations.ShrDividesByAPowerOfTwo := fun rd rs1 rs2 s =>
  ⟨hasEncoding_of_row (name := "SHR") (by decide) rfl, _, exec_shr rd rs1 rs2 s, finishReg_writesReg s rd _ false⟩

/-- An index past the operand's limbs ends GETBIT (42_bitwise_shift.md R129, R131). -/
theorem exec_getbit_of_out_of_range {s : State} {rs1 : Reg} (h : s.arg0Nat ≥ 32 * limbs (s.reg rs1)) :
    exec (.getbit rs1) s = .next (s.fail .outOfRange) := if_pos h

/-- An index within the operand's limbs gives GETBIT the magnitude's bit (42_bitwise_shift.md R129). -/
theorem exec_getbit_of_in_range {s : State} {rs1 : Reg} (h : s.arg0Nat < 32 * limbs (s.reg rs1)) :
    exec (.getbit rs1) s = .next (s.finishRes (if (mag (s.reg rs1)).testBit s.arg0Nat then 1 else 0)) := by
  simp only [exec, execGetbit, if_neg (Nat.not_le.2 h), bit_eq_testBit]
  cases (mag (s.reg rs1)).testBit s.arg0Nat <;> rfl

/-- Settles O30, by GETBIT's two outcomes. -/
theorem getbitReadsABitOfTheMagnitude : Obligations.GetbitReadsABitOfTheMagnitude := fun _ s =>
  ⟨hasEncoding_of_row (name := "GETBIT") (by decide) rfl,
    fun h => ⟨_, exec_getbit_of_out_of_range h, fail_fails s .outOfRange⟩,
    fun h => ⟨_, exec_getbit_of_in_range h, finishRes_writesRes s _⟩⟩

/-- An index past rd's limbs ends SETBIT (42_bitwise_shift.md R130, R131). -/
theorem exec_setbit_of_out_of_range {s : State} {rd : Reg} (h : s.arg0Nat ≥ 32 * limbs (s.reg rd)) :
    exec (.setbit rd) s = .next (s.fail .outOfRange) := if_pos h

/-- An index within rd's limbs gives rd its sign and its magnitude with the one bit set (42_bitwise_shift.md R130). -/
theorem exec_setbit_of_in_range {s : State} {rd : Reg} (h : s.arg0Nat < 32 * limbs (s.reg rd)) :
    exec (.setbit rd) s =
      .next (s.finishReg rd (norm (sgn (s.reg rd)) (setBitTo (mag (s.reg rd)) s.arg0Nat s.arg1Bit)) false) :=
  if_neg (Nat.not_le.2 h)

/-- A negative value made with the sign of a has a negative a. -/
theorem neg_of_norm_sgn_neg {a : Int} {m : Nat} (h : norm (sgn a) m < 0) : a < 0 := by
  by_contra ha
  rw [(sgn_eq_false_iff a).2 (not_lt.1 ha), norm_false] at h
  omega

/-- A positive value made with the sign of a has a non-negative a. -/
theorem nonneg_of_norm_sgn_pos {a : Int} {m : Nat} (h : 0 < norm (sgn a) m) : 0 ≤ a := by
  by_contra ha
  rw [(sgn_eq_true_iff a).2 (not_le.1 ha), norm_true] at h
  omega

/-- Settles O31, by SETBIT's two outcomes, and by the sign and the bits of the value it makes. -/
theorem setbitWritesOneBitOfTheMagnitude : Obligations.SetbitWritesOneBitOfTheMagnitude := by
  intro rd s
  refine ⟨hasEncoding_of_row (name := "SETBIT") (by decide) rfl, fun h => ?_, fun h => ?_⟩
  · exact ⟨_, exec_setbit_of_out_of_range h, fail_fails s .outOfRange⟩
  · exact ⟨_, _, exec_setbit_of_in_range h, finishReg_writesReg s rd _ false, neg_of_norm_sgn_neg,
      nonneg_of_norm_sgn_pos, fun j => (congrArg (Nat.testBit · j) (mag_norm _ _)).trans (setBitTo_testBit _ _ _ j)⟩

end Sys2Proof.Machine

namespace Sys2Proof.Machine

/-! ## No step stops the machine (45_primality.md R157; 60_exceptions.md R198) -/

/-- The block's turn always answers: an idle block keeps its state, a command runs on, and an illegal word completes. -/
theorem exists_blockTurn_eq_next (s : State) : ∃ t, blockTurn s = .next t := by
  cases hb : s.busy with
  | false => exact ⟨_, blockTurn_of_idle hb⟩
  | true =>
    cases hd : decode s.cmd with
    | error e => exact ⟨_, blockTurn_of_error hb hd⟩
    | ok i =>
      obtain ⟨t, ht, -⟩ := exec_shape i s
      exact ⟨t, (blockTurn_of_ok hb hd).trans ht⟩

/-- Every event is answered: all but the block's turn are total functions of the state. -/
theorem exists_handle_eq_next (e : Event) (s : State) : ∃ t, handle e s = .next t := by
  cases e with
  | read | write | powerOn | answer | work => exact ⟨_, rfl⟩
  | finish => exact exists_blockTurn_eq_next s

/-- Settles O7, by the next event to come, or the block's turn where there is none. -/
theorem everyStepAnswersANextState : Obligations.EveryStepAnswersANextState := by
  intro s
  cases hi : s.inputs with
  | nil => rw [step_nil hi]; exact exists_blockTurn_eq_next s
  | cons e rest => rw [step_cons hi]; exact exists_handle_eq_next e _

/-! ## ISPRIME's outright rejection (45_primality.md R160) -/

/-- The parity the model reads off the magnitude is the candidate's own (45_primality.md R160). -/
theorem rejectedOutright_iff (n : Int) : rejectedOutright n = true ↔ n < 2 ∨ (n ≠ 2 ∧ n % 2 = 0) := by
  have hparity : mag n % 2 = 0 ↔ n % 2 = 0 := by unfold mag; omega
  simp only [rejectedOutright, Bool.or_eq_true, Bool.and_eq_true, decide_eq_true_eq, hparity]

/-- A rejected candidate completes ISPRIME with RES = 0 wherever its sequencer stands, and no witness is requested
(45_primality.md R160, R164). -/
theorem exec_isprime_of_rejected {s : State} {rs1 : Reg} (h : rejectedOutright (s.reg rs1) = true) (rs2 : Reg) :
    exec (.isprime rs1 rs2) s = .next (s.finishRes 0) := if_pos h

/-- Settles O35, by the rejection test and the shared RES completion. -/
theorem isprimeRejectsOutright : Obligations.IsprimeRejectsOutright := fun _ rs2 s h =>
  ⟨_, exec_isprime_of_rejected ((rejectedOutright_iff _).2 h) rs2, finishRes_writesRes s 0⟩

end Sys2Proof.Machine

namespace Sys2Proof.Machine

/-! ## The digest's modulus (46_digest.md R170, R172) -/

/-- A completion alone writes STATUS and the sequencer, and nothing else (10_state.md R46; 60_exceptions.md R193). -/
theorem complete_frame (s : State) (u : Bool) :
    SameRegs s (s.complete u) ∧ Succeeded u (s.complete u) ∧ SameFlags s (s.complete u) ∧
      (s.complete u).res = s.res ∧ SameBuffer s (s.complete u) ∧ SameOutside s (s.complete u) :=
  ⟨fun _ => rfl, ⟨rfl, rfl, rfl, rfl, rfl, rfl⟩, ⟨rfl, rfl, rfl⟩, rfl, fun _ => rfl,
    ⟨rfl, rfl, rfl, rfl, rfl, rfl, rfl, rfl, rfl, rfl⟩⟩

/-- DSETUP's test refuses exactly the moduli below 2^15, the least value of 16 bits (46_digest.md R170). -/
theorem modulus_refused_iff (n : Int) : n ≤ 0 ∨ bitlen (mag n) < 16 ↔ n < 2 ^ 15 := by
  have hbits : bitlen (mag n) < 16 ↔ n.natAbs < 2 ^ 15 := Nat.lt_succ_iff.trans (bitlen_le_iff (mag n) 15)
  rw [hbits]
  omega

/-- A product below 2^15 is BAD_MODULUS, whether or not it fits L limbs (46_digest.md R170). -/
theorem exec_dsetup_of_bad_modulus {s : State} {rs1 rs2 : Reg} (h : s.reg rs1 * s.reg rs2 < 2 ^ 15) :
    exec (.dsetup rs1 rs2) s = .next (s.fail .badModulus) := if_pos ((modulus_refused_iff _).2 h)

/-- A product of at least 16 bits is judged against L: it is CAPACITY where it does not fit (46_digest.md R170). -/
theorem exec_dsetup_of_not_fits {s : State} {rs1 rs2 : Reg} (h : 2 ^ 15 ≤ s.reg rs1 * s.reg rs2)
    (hf : ¬ Fits s (s.reg rs1 * s.reg rs2)) : exec (.dsetup rs1 rs2) s = .next (s.fail .capacity) :=
  (if_neg (mt (modulus_refused_iff _).1 (not_lt.2 h))).trans (if_neg (mt (fits_iff s _).1 hf))

/-- A product of at least 16 bits that fits L limbs becomes the modulus (46_digest.md R170, R171). -/
theorem exec_dsetup_of_fits {s : State} {rs1 rs2 : Reg} (h : 2 ^ 15 ≤ s.reg rs1 * s.reg rs2)
    (hf : Fits s (s.reg rs1 * s.reg rs2)) :
    exec (.dsetup rs1 rs2) s =
      .next ({ s with dctx := { valid := true, n := s.reg rs1 * s.reg rs2 } }.complete false) :=
  (if_neg (mt (modulus_refused_iff _).1 (not_lt.2 h))).trans (if_pos ((fits_iff s _).2 hf))

/-- Settles O40, by DSETUP's three outcomes and the frame of the completion of the state that holds the new context. -/
theorem dsetupEstablishesTheModulus : Obligations.DsetupEstablishesTheModulus := by
  intro rs1 rs2 s
  refine ⟨hasEncoding_of_row (name := "DSETUP") (by decide) rfl, fun hbad => ?_, fun h hf => ?_, fun h hf => ?_⟩
  · exact ⟨_, exec_dsetup_of_bad_modulus hbad, fail_fails s .badModulus⟩
  · exact ⟨_, exec_dsetup_of_not_fits h hf, fail_fails s .capacity⟩
  · exact ⟨_, exec_dsetup_of_fits h hf, rfl, rfl, complete_frame { s with dctx := _ } false⟩

/-- Without a modulus DGETN is DIGEST_NOT_CONFIGURED (46_digest.md R172). -/
theorem exec_dgetn_of_not_configured {s : State} (h : s.dctx.valid = false) (rd : Reg) :
    exec (.dgetn rd) s = .next (s.fail .digestNotConfigured) := if_neg (Bool.eq_false_iff.1 h)

/-- With a modulus DGETN ends in the shared register completion (46_digest.md R172). -/
theorem exec_dgetn_of_configured {s : State} (h : s.dctx.valid = true) (rd : Reg) :
    exec (.dgetn rd) s = .next (s.finishReg rd s.dctx.n false) := if_pos h

/-- Settles O43, by DGETN's two outcomes. -/
theorem dgetnReadsTheModulus : Obligations.DgetnReadsTheModulus := fun rd s =>
  ⟨hasEncoding_of_row (name := "DGETN") (by decide) rfl,
    fun h => ⟨_, exec_dgetn_of_not_configured h rd, fail_fails s .digestNotConfigured⟩,
    fun h => ⟨_, exec_dgetn_of_configured h rd, finishReg_writesReg s rd s.dctx.n false⟩⟩

end Sys2Proof.Machine

namespace Sys2Proof.Machine

/-! ## Error completions (60_exceptions.md R194, R198) -/

/-- `exec_shape` read from a given answer. -/
theorem execShape_of_exec_eq {i : Instr} {s t : State} (h : exec i s = .next t) : ExecShape i s t := by
  obtain ⟨u, hu, hshape⟩ := exec_shape i s
  rwa [← next_inj (hu.symm.trans h)]

/-- A turn that ends idle with ERR = 1 went through the one error completion (60_exceptions.md R194): the other
completions clear ERR, and a turn that requests or waits for a witness leaves the block busy. -/
theorem ExecShape.eq_fail_of_err {i : Instr} {s t : State} (h : ExecShape i s t) (hb : t.busy = false)
    (he : t.status.err = true) : ∃ e ∈ reportable i, t = s.fail e := by
  cases h with
  | fail e hmem => exact ⟨e, hmem, rfl⟩
  | reg | res | text | order | context => exact absurd he Bool.false_ne_true
  | request => exact absurd hb.symm Bool.false_ne_true
  | wait _ _ _ _ _ hs => simp [State.busy, hs] at hb

/-- Settles O10, by the error completion's frame: it is the only way a command ends with ERR = 1, and the way an
illegal word ends. -/
theorem errorCompletionsWriteOnlyStatus : Obligations.ErrorCompletionsWriteOnlyStatus := by
  refine ⟨fun i s t hexec hb he => ?_, fun s e hb hd => ?_⟩
  · obtain ⟨code, -, rfl⟩ := (execShape_of_exec_eq hexec).eq_fail_of_err hb he
    exact fail_fails s code
  · exact ⟨_, blockTurn_of_error hb hd, fail_fails s .illegalCommand⟩

end Sys2Proof.Machine

namespace Sys2Proof

/-! ## Decode and encode agree (30_encoding.md R72 to R77) -/

/-- The decoder reads every command back from its own fields: its opcode selects its row, and the fields it does not use
are 0 (30_encoding.md R70, R72). -/
theorem decodeFields_instrFields (i : Instr) : decodeFields (instrFields i) = .ok i := by
  cases i
  all_goals simp [instrFields, commandFields, decodeFields, requireZero, regField_zero]

/-- Settles O2: a word's fields are the command's, and each command is read back from its fields. -/
theorem decodeOfEncodeIsTheCommand : Obligations.DecodeOfEncodeIsTheCommand := fun i =>
  (decode_fieldsWord (instrFields i)).trans (decodeFields_instrFields i)

/-- Settles O3, from the fields of the command a word decodes to, which are the word's own. -/
theorem encodeOfDecodeIsTheWord : Obligations.EncodeOfDecodeIsTheWord := fun _ _ => encode_of_decode

/-- The fields of every command pass the independent check (30_encoding.md R72, R74). -/
theorem instrFields_wellFormed (i : Instr) : (instrFields i).wellFormed = true := by
  refine And.right (?_ : Laws.EncodesLegally.Statement i)
  cases i with
  | mov => exact Laws.EncodesLegally.mov _ _
  | fromint => exact Laws.EncodesLegally.fromint _
  | fromhex => exact Laws.EncodesLegally.fromhex _
  | tohex => exact Laws.EncodesLegally.tohex _
  | add => exact Laws.EncodesLegally.add _ _ _
  | sub => exact Laws.EncodesLegally.sub _ _ _
  | mul => exact Laws.EncodesLegally.mul _ _ _
  | div => exact Laws.EncodesLegally.div _ _ _
  | mod => exact Laws.EncodesLegally.mod _ _ _
  | or => exact Laws.EncodesLegally.or _ _ _
  | xor => exact Laws.EncodesLegally.xor _ _ _
  | shl => exact Laws.EncodesLegally.shl _ _ _
  | shr => exact Laws.EncodesLegally.shr _ _ _
  | bitlen => exact Laws.EncodesLegally.bitlen _
  | getbit => exact Laws.EncodesLegally.getbit _
  | setbit => exact Laws.EncodesLegally.setbit _
  | cmp => exact Laws.EncodesLegally.cmp _ _
  | expmod => exact Laws.EncodesLegally.expmod _ _ _ _
  | pow => exact Laws.EncodesLegally.pow _ _ _
  | isprime => exact Laws.EncodesLegally.isprime _ _
  | dsetup => exact Laws.EncodesLegally.dsetup _ _
  | digest => exact Laws.EncodesLegally.digest _ _
  | dgetn => exact Laws.EncodesLegally.dgetn _

/-- Fields that pass the check have the opcode of one of its rows, and 0 in every field the row does not use. -/
theorem exists_row_of_wellFormed {f : Fields} (h : f.wellFormed = true) :
    ∃ u, (f.op, u) ∈ opcodeUses ∧ (u.rd = false → f.rd = 0) ∧ (u.rs1 = false → f.rs1 = 0) ∧
      (u.rs2 = false → f.rs2 = 0) ∧ (u.rs3 = false → f.rs3 = 0) ∧ f.reserved = 0 := by
  unfold Fields.wellFormed at h
  split at h
  · exact absurd h Bool.false_ne_true
  · rename_i u hrow
    obtain ⟨before, after, hrows, -⟩ := List.lookup_eq_some_iff.1 hrow
    have hzero : ∀ {used : Bool} {x : BitVec 4}, fieldAllowed used x = true → used = false → x = 0 := by
      rintro used x hx rfl
      simpa [fieldAllowed] using hx
    simp only [Bool.and_eq_true, beq_iff_eq] at h
    obtain ⟨⟨⟨⟨hrd, hrs1⟩, hrs2⟩, hrs3⟩, hres⟩ := h
    exact ⟨u, by simp [hrows], hzero hrd, hzero hrs1, hzero hrs2, hzero hrs3, hres⟩

/-- Fields that pass the check decode: the decoder has a row for each row of the check, and requires no more of it
(30_encoding.md R72, R74). -/
theorem exists_decodeFields_of_wellFormed {f : Fields} (h : f.wellFormed = true) : ∃ i, decodeFields f = .ok i := by
  obtain ⟨u, hrow, hrd, hrs1, hrs2, hrs3, hres⟩ := exists_row_of_wellFormed h
  obtain ⟨op, rd, rs1, rs2, rs3, reserved⟩ := f
  simp only [opcodeUses, List.mem_cons, Prod.mk.injEq, List.not_mem_nil, or_false] at hrow
  repeat
    rcases hrow with ⟨hop, rfl⟩ | hrow
    · simp_all [decodeFields, requireZero]

/-- The decoder accepts exactly the words whose fields pass the independent check (30_encoding.md R74). -/
theorem exists_decode_eq_ok_iff (w : Word) : (∃ i, decode w = .ok i) ↔ (wordFields w).wellFormed = true := by
  constructor
  · rintro ⟨i, hi⟩
    rw [← instrFields_of_decodeFields hi]
    exact instrFields_wellFormed i
  · exact exists_decodeFields_of_wellFormed

/-- Settles O5: the decoder either accepts a word or says why it is ILLEGAL, and it accepts the words that pass the
check. -/
theorem illegalExactlyWhenIllFormed : Obligations.IllegalExactlyWhenIllFormed := by
  intro w
  rw [← Bool.not_eq_true, ← exists_decode_eq_ok_iff]
  cases decode w <;> simp

/-- Settles O1: each of the nine words runs through the decoder. -/
theorem writtenWordsDecode : Obligations.WrittenWordsDecode := by
  unfold Obligations.WrittenWordsDecode
  decide

end Sys2Proof

namespace Sys2Proof.Machine

/-! ## The invariant (10_state.md R22, R35 to R38; 20_memory.md R54; 46_digest.md R187) -/

/-- Either reset leads to the invariant from any state of a legal build (70_reset_and_hazards.md R211). -/
theorem resetBlock_inv {s : State} (h : s.cfg.Legal) : s.resetBlock.Inv where
  legal := h
  regs r := by rw [State.resetBlock_reg]; exact fits_zero (s := s.resetBlock) h
  context := rfl
  buffer := ⟨Memory.wf_nil, by simp⟩
  flags := by simp [State.reset]
  errors := by simp [State.reset]
  done := by simp [State.busy]
  sequencer := trivial

theorem default_legal : Config.default.Legal := by unfold Config.Legal; decide

/-- Settles O57: the reset state differs from a reset of itself only in the count of resets, which the invariant does
not look at. -/
theorem resetMeetsTheInvariant : Obligations.ResetMeetsTheInvariant :=
  have h : State.reset.resetBlock.Inv := resetBlock_inv default_legal
  ⟨h.legal, h.regs, h.context, h.buffer, h.flags, h.errors, h.done, h.sequencer⟩

/-! ### Completions keep it -/

/-- An error completion keeps the invariant (60_exceptions.md R194; 10_state.md R36, R38). -/
theorem fail_inv {s : State} (h : s.Inv) {e : ErrCode} (he : e ≠ .none) : (s.fail e).Inv where
  legal := h.legal
  regs := h.regs
  context := h.context
  buffer := h.buffer
  flags := h.flags
  errors := by simp [he]
  done := by simp
  sequencer := trivial

/-- A successful completion keeps the invariant (60_exceptions.md R193; 10_state.md R36). -/
theorem complete_inv {s : State} (h : s.Inv) (u : Bool) : (s.complete u).Inv where
  legal := h.legal
  regs := h.regs
  context := h.context
  buffer := h.buffer
  flags := h.flags
  errors := by simp
  done := by simp
  sequencer := trivial

/-- A register completion of a value that fits keeps the invariant (10_state.md R22). -/
theorem finishReg_inv {s : State} (h : s.Inv) {x : Int} (hx : Fits s x) (rd : Reg) (u : Bool) :
    (s.finishReg rd x u).Inv :=
  { complete_inv h u with
    regs := fun r => by
      rw [State.finishReg, State.complete_reg, State.writeReg_reg]
      split
      · exact hx
      · exact h.regs r }

/-- A RES completion keeps the invariant, which says nothing of RES. -/
theorem finishRes_inv {s : State} (h : s.Inv) (w : Word) : (s.finishRes w).Inv :=
  { complete_inv h false with }

/-- TOHEX's completion keeps the buffer canonical and within B bytes (20_memory.md R54). -/
theorem finishText_inv {s : State} (h : s.Inv) {off : Nat} {t : List Byte} (ht : off + t.length ≤ s.cfg.bufBytes)
    (w : Word) : ({ s with buf := Memory.setBytes s.buf off t }.finishRes w).Inv :=
  { complete_inv h false with
    buffer := by
      refine ⟨Memory.wf_setBytes h.buffer.1 off t, fun c hc => ?_⟩
      rcases Memory.mem_setBytes hc with hin | hold
      · exact lt_of_lt_of_le hin.2 ht
      · exact h.buffer.2 c hold }

/-- CMP's completion sets at most one flag: each is the test for one value of the order (10_state.md R37). -/
theorem finishOrder_inv {s : State} (h : s.Inv) (c : Int) (w : Word) : ((s.writeOrder c).finishRes w).Inv :=
  { complete_inv h false with
    flags := by
      simp only [State.finishRes, State.complete_status, State.writeRes_status, State.writeOrder_status,
        decide_eq_true_eq]
      omega }

/-- DSETUP's completion keeps the invariant for a modulus of at least 16 bits that fits (46_digest.md R170). -/
theorem finishContext_inv {s : State} (h : s.Inv) {n : Int} (hn : 2 ^ 15 ≤ n) (hf : Fits s n) :
    ({ s with dctx := { valid := true, n := n } }.complete false).Inv :=
  { complete_inv h false with context := ⟨hn, hf⟩ }

/-! ### The sequencer keeps it -/

/-- A move of the running sequencer keeps the invariant where the new loop state is in order. -/
theorem setSeq_inv {s : State} (h : s.Inv) (hb : s.busy = true) {q : Sequencer}
    (hq : SequencerOk { s with seq := some q }) : State.Inv { s with seq := some q } :=
  { h with done := fun _ => h.done hb, sequencer := hq }

/-- A command's turn keeps the invariant, whatever it answers. -/
theorem ExecShape.inv {i : Instr} {s t : State} (hx : ExecShape i s t) (h : s.Inv) (hb : s.busy = true)
    (hd : decode s.cmd = .ok i) : t.Inv := by
  cases hx with
  | fail e he => exact fail_inv h fun h0 => none_not_mem_reportable i (h0 ▸ he)
  | reg rd x u _ _ _ hf => exact finishReg_inv h (hf h) rd u
  | res w => exact finishRes_inv h w
  | text _ t _ hin => exact finishText_inv h hin _
  | order _ _ c => exact finishOrder_inv h c _
  | context _ _ n _ hn hf =>
    refine finishContext_inv h (not_lt.1 fun hlt => ?_) hf
    have := (modulus_refused_iff n).2 hlt
    omega
  | request rs1 rs2 k hi hs hk => exact setSeq_inv h hb ⟨hs, hk, rs1, rs2, hi ▸ hd, rfl⟩
  | wait => exact h

/-- What the sequencer draws for iteration i is in order (45_primality.md R156, R157). -/
theorem drawWitness_inv {s : State} (h : s.Inv) (hb : s.busy = true) {rs1 rs2 : Reg}
    (hd : decode s.cmd = .ok (.isprime rs1 rs2)) (i : Nat) : (s.drawWitness (s.reg rs1) rs2 i).Inv := by
  unfold State.drawWitness
  split
  · rename_i hi
    split
    · exact setSeq_inv h hb trivial
    · rename_i hw
      exact setSeq_inv h hb ⟨Bool.eq_false_iff.2 hw, hi, rs1, rs2, hd, rfl⟩
  · exact h

theorem workExpmod_inv {s : State} (h : s.Inv) (hb : s.busy = true) (rs1 rs2 rs3 : Reg) :
    (workExpmod rs1 rs2 rs3 s).Inv := by
  unfold workExpmod
  simp only
  split
  · exact h
  · rename_i hgo
    refine setSeq_inv h hb ?_
    show Fits s _
    split
    · exact fits_modOp_modulus (fun h0 => hgo (.inr h0)) (h.regs rs3)
    · exact fits_expmodLoop_result h rs1 rs2

theorem workPow_inv {s : State} (h : s.Inv) (hb : s.busy = true) (rs1 rs2 : Reg) : (workPow rs1 rs2 s).Inv := by
  unfold workPow
  simp only
  split
  · exact h
  · exact setSeq_inv h hb trivial

theorem workDigest_inv {s : State} (h : s.Inv) (hb : s.busy = true) (rs1 : Reg) : (workDigest rs1 s).Inv := by
  unfold workDigest
  split
  · exact h
  · simp only
    split
    · exact setSeq_inv h hb (digestRound_lt _ _ (digestLoop_lt h))
    · exact h

theorem workIsprime_inv {s : State} (h : s.Inv) (hb : s.busy = true) {rs1 rs2 : Reg}
    (hd : decode s.cmd = .ok (.isprime rs1 rs2)) : (workIsprime rs1 rs2 s).Inv := by
  unfold workIsprime
  simp only
  split
  · exact h
  · rename_i hr
    split
    · exact h
    · split
      · exact h
      · exact setSeq_inv h hb (oddPart_pos (Bool.eq_false_iff.2 hr))
    · rename_i i x t hs
      have ht : 0 < t := by have := h.sequencer; rwa [SequencerOk, hs] at this
      split
      · exact setSeq_inv h hb (Nat.mul_pos Nat.two_pos ht)
      · split
        · exact setSeq_inv h hb trivial
        · exact h
    · exact drawWitness_inv h hb hd _
    · exact drawWitness_inv h hb hd _

/-- An iteration of the sequencer keeps the invariant (10_state.md R43). -/
theorem work_inv {s : State} (h : s.Inv) : s.work.Inv := by
  cases hb : s.busy with
  | false => rwa [work_of_idle hb]
  | true =>
    cases hd : decode s.cmd with
    | error e => rwa [work_of_error hd]
    | ok i =>
      rw [work_of_ok hb hd]
      cases i with
      | expmod _ rs1 rs2 rs3 => exact workExpmod_inv h hb rs1 rs2 rs3
      | pow _ rs1 rs2 => exact workPow_inv h hb rs1 rs2
      | isprime => exact workIsprime_inv h hb hd
      | digest _ rs1 => exact workDigest_inv h hb rs1
      | _ => exact h

/-! ### The host keeps it -/

/-- A write of DONE and OVR that cannot set DONE keeps the invariant (10_state.md R35, R39). -/
theorem setDoneOvr_inv {s : State} (h : s.Inv) {d o : Bool} (hd : d = true → s.status.done = true) :
    State.Inv { s with status := { s.status with done := d, ovr := o } } :=
  { h with
    done := fun hb =>
      Bool.eq_false_iff.2 fun hset => Bool.false_ne_true ((h.done hb).symm.trans (hd hset)) }

/-- A write of byte lanes of a buffer word keeps the buffer canonical and within B bytes (20_memory.md R54, R55). -/
theorem writeLanes_inv {s : State} (h : s.Inv) {o : Nat} (ho : o + 4 ≤ s.cfg.bufBytes) (data : Word) (strb : Strobes) :
    State.Inv { s with buf := writeLanes s.buf o data strb } :=
  { h with
    buffer := by
      refine ⟨writeLanes_wf h.buffer.1 o data strb, fun c hc => ?_⟩
      rcases mem_writeLanes hc with hin | hold
      · exact lt_of_lt_of_le hin.2 ho
      · exact h.buffer.2 c hold }

/-- A host write while idle keeps the invariant. -/
theorem IdleWrite.inv {s t : State} {addr : PortAddr} (hw : IdleWrite s addr t) (h : s.Inv) (hb : s.busy = false) :
    t.Inv := by
  have hseq : s.seq = none := Option.isNone_iff_eq_none.1 (Option.isSome_eq_false_iff.1 hb)
  cases hw with
  | reset => exact resetBlock_inv h.legal
  | issue w => exact { h with done := fun _ => rfl, sequencer := trivial }
  | status d o hd => exact setDoneOvr_inv h hd
  | ctrl c => exact { h with sequencer := by simp [SequencerOk, hseq] }
  | arg0 w => exact { h with sequencer := by simp [SequencerOk, hseq] }
  | arg1 w => exact { h with sequencer := h.sequencer }
  | buf o data strb ho =>
    obtain ⟨-, -, -, -, haligned⟩ := h.legal
    exact writeLanes_inv h (ho.resolve_right (not_not.2 haligned)) data strb
  | ignored => exact h

/-- Settles O56, by the cases of what a step can do: each keeps the invariant of the state with its event taken. -/
theorem everyStepKeepsTheInvariant : Obligations.EveryStepKeepsTheInvariant := by
  intro s t hs hstep
  have h : s.popped.Inv := State.popped_inv hs
  cases step_shape hstep with
  | turn i _ hb hd hx => exact hx.inv h hb hd
  | illegal => exact fail_inv h (by decide)
  | idle => exact h
  | read => exact { h with }
  | reset => exact resetBlock_inv h.legal
  | busyWrite d o _ hd => exact setDoneOvr_inv h hd
  | idleWrite addr _ _ _ _ hb _ hw => exact hw.inv h hb
  | answer i bound a hseq => exact setSeq_inv h (congrArg Option.isSome hseq) trivial
  | work => exact work_inv h

end Sys2Proof.Machine

namespace Sys2Proof.Machine

/-! ## What a command's turn leaves unchanged (10_state.md R46; 60_exceptions.md R191, R193) -/

/-- A turn that ends idle completed: it neither requests a witness nor waits for one. -/
theorem ExecShape.succeeded {i : Instr} {s t : State} (h : ExecShape i s t) (hb : t.busy = false)
    (he : t.status.err = false) : Succeeded t.status.undef t := by
  cases h with
  | fail => exact absurd he.symm Bool.false_ne_true
  | reg | res | text | order | context => exact ⟨rfl, rfl, rfl, rfl, rfl, rfl⟩
  | request => exact absurd hb.symm Bool.false_ne_true
  | wait _ _ _ _ _ hs => simp [State.busy, hs] at hb

/-- Settles O11: an ERR = 1 completion is the error completion with a code of the command's row, and any other
completion clears ERRCODE. -/
theorem commandsReportOnlyTheirErrors : Obligations.CommandsReportOnlyTheirErrors := by
  intro i s t hexec hb
  have hx := execShape_of_exec_eq hexec
  cases he : t.status.err with
  | false =>
    obtain ⟨-, -, -, -, hcode, -⟩ := hx.succeeded hb he
    exact .inl ⟨rfl, hcode⟩
  | true =>
    obtain ⟨e, hmem, rfl⟩ := hx.eq_fail_of_err hb he
    exact .inr ⟨rfl, hmem⟩

/-- No turn of a command writes CTRL, CMD, ARG0, ARG1, OVR or the model's own fields. -/
theorem ExecShape.sameOutside {i : Instr} {s t : State} (h : ExecShape i s t) : SameOutside s t := by
  cases h
  all_goals exact ⟨rfl, rfl, rfl, rfl, rfl, rfl, rfl, rfl, rfl, rfl⟩

/-- A turn changes a register only by the success of a command whose destination it is (10_state.md R21). -/
theorem ExecShape.success_of_reg_ne {i : Instr} {s t : State} (h : ExecShape i s t) {r : Reg}
    (hr : t.reg r ≠ s.reg r) : t.busy = false ∧ t.status.err = false ∧ destination i = some r := by
  cases h with
  | reg rd x u hd =>
    refine ⟨rfl, rfl, ?_⟩
    obtain rfl : r = rd := by
      by_contra hne
      exact hr ((finishReg_writesReg s rd x u).2.1 r hne)
    exact hd
  | fail | res | text | order | context | request | wait => exact absurd rfl hr

/-- A turn changes RES only by the success of a command that writes it (10_state.md R29). -/
theorem ExecShape.success_of_res_ne {i : Instr} {s t : State} (h : ExecShape i s t) (hr : t.res ≠ s.res) :
    t.busy = false ∧ t.status.err = false ∧ writesResult i = true := by
  cases h with
  | res _ hw => exact ⟨rfl, rfl, hw⟩
  | text _ _ hi => exact ⟨rfl, rfl, hi ▸ rfl⟩
  | order _ _ _ hi => exact ⟨rfl, rfl, hi ▸ rfl⟩
  | fail | reg | context | request | wait => exact absurd rfl hr

/-- A turn changes LT, EQ and GT only by the success of CMP (10_state.md R37). -/
theorem ExecShape.success_of_not_sameFlags {i : Instr} {s t : State} (h : ExecShape i s t) (hf : ¬ SameFlags s t) :
    t.busy = false ∧ t.status.err = false ∧ ∃ rs1 rs2, i = .cmp rs1 rs2 := by
  cases h with
  | order rs1 rs2 _ hi => exact ⟨rfl, rfl, rs1, rs2, hi⟩
  | fail | reg | res | text | context | request | wait => exact absurd ⟨rfl, rfl, rfl⟩ hf

/-- A turn changes the digest context only by the success of DSETUP (10_state.md R25). -/
theorem ExecShape.success_of_dctx_ne {i : Instr} {s t : State} (h : ExecShape i s t) (hd : t.dctx ≠ s.dctx) :
    t.busy = false ∧ t.status.err = false ∧ ∃ rs1 rs2, i = .dsetup rs1 rs2 := by
  cases h with
  | context rs1 rs2 _ hi => exact ⟨rfl, rfl, rs1, rs2, hi⟩
  | fail | reg | res | text | order | request | wait => exact absurd rfl hd

/-- A turn of a command other than TOHEX leaves every buffer byte (20_memory.md R56). -/
theorem ExecShape.sameBuffer {i : Instr} {s t : State} (h : ExecShape i s t) (hi : ∀ rs1, i ≠ .tohex rs1) :
    SameBuffer s t := by
  cases h with
  | text rs1 _ hi' => exact absurd hi' (hi rs1)
  | fail | reg | res | order | context | request | wait => exact fun _ => rfl

/-- A success sets UNDEF only for ADD, OR and XOR (10_state.md R38). -/
theorem ExecShape.undefined_command {i : Instr} {s t : State} (h : ExecShape i s t) (hb : t.busy = false)
    (hu : t.status.undef = true) : ∃ a b c, i = .add a b c ∨ i = .or a b c ∨ i = .xor a b c := by
  cases h with
  | reg _ _ u _ _ himp => exact himp hu
  | fail | res | text | order | context => exact absurd hu Bool.false_ne_true
  | request => exact absurd hb.symm Bool.false_ne_true
  | wait _ _ _ _ _ hs => simp [State.busy, hs] at hb

/-- Settles O12: each piece of state that a turn changes tells which command it was. -/
theorem successWritesOnlyWhatItsRowNames : Obligations.SuccessWritesOnlyWhatItsRowNames := by
  intro i s t hexec hb he
  have hx := execShape_of_exec_eq hexec
  refine ⟨hx.succeeded hb he, hx.sameOutside, hx.undefined_command hb, fun r hr => ?_, fun hw => ?_, fun hcmp => ?_,
    hx.sameBuffer, fun hds => ?_⟩
  · by_contra hne
    exact hr (hx.success_of_reg_ne hne).2.2
  · by_contra hne
    exact Bool.false_ne_true (hw.symm.trans (hx.success_of_res_ne hne).2.2)
  · by_contra hne
    obtain ⟨-, -, a, b, hi⟩ := hx.success_of_not_sameFlags hne
    exact hcmp a b hi
  · by_contra hne
    obtain ⟨-, -, a, b, hi⟩ := hx.success_of_dctx_ne hne
    exact hds a b hi

/-! ## What a step leaves unchanged (20_memory.md R62; 10_state.md R20 to R37) -/

/-- An iteration of the sequencer changes its own state alone, and keeps BUSY (10_state.md R43). -/
theorem work_eq_setSeq (s : State) : s.work.busy = s.busy ∧ ∃ q, s.work = { s with seq := q } := by
  rcases work_seq s with h | ⟨hb, q, h⟩
  · rw [h]; exact ⟨rfl, s.seq, rfl⟩
  · rw [h, hb]; exact ⟨rfl, some q, rfl⟩

/-- An idle block's write that is no reset leaves the registers, RES, the flags and the digest context. -/
theorem IdleWrite.results_eq {s t : State} {addr : PortAddr} (h : IdleWrite s addr t) (he : t.epoch = s.epoch) :
    SameRegs s t ∧ t.res = s.res ∧ SameFlags s t ∧ t.dctx = s.dctx := by
  cases h with
  | reset => exact absurd he (Nat.succ_ne_self _)
  | issue | status | ctrl | arg0 | arg1 | buf | ignored => exact ⟨fun _ => rfl, rfl, ⟨rfl, rfl, rfl⟩, rfl⟩

/-- A step that is no reset is a command's turn, or leaves the registers, RES, the flags and the digest context. -/
theorem StepShape.turn_or_results_eq {s t : State} (h : StepShape s t) (he : t.epoch = s.epoch) :
    (∃ i, s.busy = true ∧ decode s.cmd = .ok i ∧ ExecShape i s.popped t) ∨
      (SameRegs s t ∧ t.res = s.res ∧ SameFlags s t ∧ t.dctx = s.dctx) := by
  cases h with
  | turn i _ hb hd hx => exact .inl ⟨i, hb, hd, hx⟩
  | reset => exact absurd he (Nat.succ_ne_self _)
  | idleWrite _ _ _ _ _ _ _ hw => exact .inr (hw.results_eq he)
  | work =>
    obtain ⟨-, q, hq⟩ := work_eq_setSeq s.popped
    rw [hq]
    exact .inr ⟨fun _ => rfl, rfl, ⟨rfl, rfl, rfl⟩, rfl⟩
  | illegal | idle | read | busyWrite | answer => exact .inr ⟨fun _ => rfl, rfl, ⟨rfl, rfl, rfl⟩, rfl⟩

/-- Settles O54: only a command's turn changes a result, and what it changes tells which command succeeded. -/
theorem resultsChangeOnlyByTheirCommands : Obligations.ResultsChangeOnlyByTheirCommands := by
  intro s t hstep he
  rcases (step_shape hstep).turn_or_results_eq he with ⟨i, hb, hd, hx⟩ | ⟨hregs, hres, hflags, hdctx⟩
  · refine ⟨fun r hr => ?_, fun hr => ?_, fun hf => ?_, fun hc => ?_⟩
    · obtain ⟨hidle, herr, hdest⟩ := hx.success_of_reg_ne hr
      exact ⟨hb, hidle, herr, i, hd, hdest⟩
    · obtain ⟨hidle, herr, hw⟩ := hx.success_of_res_ne hr
      exact ⟨hb, hidle, herr, i, hd, hw⟩
    · obtain ⟨hidle, herr, rs1, rs2, rfl⟩ := hx.success_of_not_sameFlags hf
      exact ⟨hb, hidle, herr, rs1, rs2, hd⟩
    · obtain ⟨hidle, herr, rs1, rs2, rfl⟩ := hx.success_of_dctx_ne hc
      exact ⟨hb, hidle, herr, rs1, rs2, hd⟩
  · exact ⟨fun r hr => absurd (hregs r) hr, fun hr => absurd hres hr, fun hf => absurd hflags hf,
      fun hc => absurd hdctx hc⟩

/-- A turn that leaves the command running touches the sequencer alone (45_primality.md R157). -/
theorem ExecShape.eq_setSeq_of_busy {i : Instr} {s t : State} (h : ExecShape i s t) (hb : t.busy = true) :
    ∃ q, t = { s with seq := q } := by
  cases h with
  | fail | reg | res | text | order | context => exact absurd hb Bool.false_ne_true
  | request => exact ⟨_, rfl⟩
  | wait => exact ⟨s.seq, rfl⟩

/-- A step that leaves the running command running touches the sequencer, DONE and OVR without setting DONE, and the
port's read data (20_memory.md R62). -/
theorem StepShape.eq_of_busy {s t : State} (h : StepShape s t) (hs : s.busy = true) (ht : t.busy = true) :
    ∃ q d o w n, (d = true → s.status.done = true) ∧
      t = { s.popped with
        seq := q, status := { s.status with done := d, ovr := o }, rdata := w, draws := n } := by
  cases h with
  | turn i _ _ _ hx =>
    obtain ⟨q, rfl⟩ := hx.eq_setSeq_of_busy ht
    exact ⟨q, _, _, _, _, id, rfl⟩
  | illegal | reset => exact absurd ht Bool.false_ne_true
  | busyWrite d o _ hd => exact ⟨_, d, o, _, _, hd, rfl⟩
  | idleWrite _ _ _ _ _ hb => exact absurd (hs.symm.trans hb).symm Bool.false_ne_true
  | work =>
    obtain ⟨-, q, hq⟩ := work_eq_setSeq s.popped
    exact ⟨q, _, _, _, _, id, hq⟩
  | idle | read | answer => exact ⟨_, _, _, _, _, id, rfl⟩

/-- Settles O53: what such a step touches is none of the operands and results. -/
theorem operandsKeepTheirValuesWhileBusy : Obligations.OperandsKeepTheirValuesWhileBusy := by
  intro s t hstep hs ht
  obtain ⟨q, d, o, w, n, hd, rfl⟩ := (step_shape hstep).eq_of_busy hs ht
  exact ⟨fun _ => rfl, rfl, rfl, rfl, rfl, rfl, rfl, ⟨rfl, rfl, rfl⟩, fun _ => rfl, hd, rfl, rfl, rfl⟩

/-! ## An iteration of the sequencer changes nothing of the outcome (70_reset_and_hazards.md R224; log 5) -/

/-- EXPMOD after one more iteration ends as it would have without it (44_expmod_pow.md R146). -/
theorem execExpmod_workExpmod (s : State) (rd rs1 rs2 rs3 : Reg) :
    execExpmod rd rs1 rs2 rs3 (workExpmod rs1 rs2 rs3 s) = execExpmod rd rs1 rs2 rs3 s := by
  unfold workExpmod
  simp only
  split
  · rfl
  · rename_i hgo
    obtain ⟨he, hm⟩ := not_or.1 hgo
    rw [execExpmod_of_expmod, if_neg (fun h => hm h.2), expModLoop_iterate _ _ _ he]
    simp only [execExpmod, hm, and_false, if_false]

/-- One iteration of POW keeps r·b^e (44_expmod_pow.md R149, R150). -/
theorem pow_iterate (r b : Int) (e : Nat) :
    (if e % 2 = 1 then r * b else r) * (b * b) ^ (e / 2) = r * b ^ e := by
  conv_rhs => rw [← Nat.div_add_mod e 2, pow_add, pow_mul, pow_two]
  rcases Nat.mod_two_eq_zero_or_one e with h | h
  · rw [h, if_neg (by decide), pow_zero, mul_one]
  · rw [h, if_pos rfl, pow_one]; ring

/-- POW from a place in its loop (44_expmod_pow.md R150). -/
theorem execPow_of_pow {s : State} (hL : 1 ≤ s.cfg.maxLimbs) (rd rs1 rs2 : Reg) (r b : Int) (e : Nat) :
    execPow rd rs1 rs2 { s with seq := some (.pow r b e) } = .next (s.finishCapacity rd (r * b ^ e) false) :=
  execPow_closed (s := { s with seq := some (.pow r b e) }) hL rd rs1 rs2

/-- POW after one more iteration ends as it would have without it (44_expmod_pow.md R149). -/
theorem execPow_workPow {s : State} (hL : 1 ≤ s.cfg.maxLimbs) (rd rs1 rs2 : Reg) :
    execPow rd rs1 rs2 (workPow rs1 rs2 s) = execPow rd rs1 rs2 s := by
  unfold workPow
  simp only
  split
  · rfl
  · rw [execPow_of_pow hL, pow_iterate, execPow_closed hL]

/-- DIGEST after one more chunk round ends as it would have without it (46_digest.md R173). -/
theorem execDigest_workDigest (s : State) (rd rs1 : Reg) :
    execDigest rd rs1 (workDigest rs1 s) = execDigest rd rs1 s := by
  unfold workDigest
  split
  · rfl
  · rename_i hok
    simp only
    split
    · rename_i hlt
      have hok' : ∀ q, State.digestError { s with seq := q } rs1 = none := fun _ => hok
      simp only [execDigest, hok, hok']
      rw [← digestFrom_iterate _ _ _ _ _ hlt]
      rfl
    · rfl

/-- Where the squaring loop goes on, one squaring done before it leads to the same end (45_primality.md R162). -/
theorem squareLoop_iterate {n x : Int} {t : Nat} (ht : 0 < t)
    (hgo : squaringGoesOn n x t = true ∧ 0 < squareFuel n t) :
    squareLoop n (squareFuel n (2 * t)) (modOp (x * x) n) (2 * t) = squareLoop n (squareFuel n t) x t := by
  obtain ⟨f, hf⟩ := Nat.exists_eq_succ_of_ne_zero hgo.2.ne'
  rw [squareFuel_double ht, hf, squareLoop, if_pos hgo.1]
  rfl

/-- Where the squaring loop does not go on, it ends where it stands (45_primality.md R162). -/
theorem squareLoop_over {n x : Int} {t : Nat} (hgo : ¬(squaringGoesOn n x t = true ∧ 0 < squareFuel n t)) :
    squareLoop n (squareFuel n t) x t = (x, t) := by
  cases hf : squareFuel n t with
  | zero => rfl
  | succ f => exact if_neg fun h => hgo ⟨h, hf ▸ f.succ_pos⟩

/-- Drawing the witness of iteration i first leads to what the iterations from i on lead to (45_primality.md R156). -/
theorem execIsprime_drawWitness {s : State} {rs1 : Reg} (hr : rejectedOutright (s.reg rs1) = false) (rs2 : Reg)
    {i : Nat} (hs : execIsprime rs1 rs2 s = .next (s.primeFrom (s.reg rs1) rs2 i)) :
    execIsprime rs1 rs2 (s.drawWitness (s.reg rs1) rs2 i) = execIsprime rs1 rs2 s := by
  rw [hs]
  unfold State.drawWitness
  split
  · rename_i hi
    split
    · rename_i hw
      obtain ⟨k, hk⟩ : ∃ k, s.arg0Nat - i = k + 1 := ⟨s.arg0Nat - i - 1, by omega⟩
      have hk' : s.arg0Nat - (i + 1) = k := by omega
      rw [execIsprime_of_answered (i := i) (a := s.registerWitness rs2 i) rfl rs1 rs2 (by exact hr)]
      simp only [State.primeFrom, hw, hk, if_true, registerIterations, State.setSeq_reg]
      cases iterationVerdict (s.reg rs1) (s.registerWitness rs2 i) with
      | error e => rfl
      | ok passed =>
        simp only [primeAfter_setSeq]
        cases passed
        · rfl
        · simp [State.primeAfter, State.primeFrom, hw, hk']
    · rename_i hw
      rw [execIsprime_of_waiting (i := i) (bound := s.reg rs1 - 1) rfl rs1 rs2 (by exact hr), State.primeFrom,
        if_neg hw, if_pos hi]
  · exact hs

/-- ISPRIME after one more piece of work leads to what it would have without it (45_primality.md R155). -/
theorem execIsprime_workIsprime {s : State} (h : SequencerOk s) (rs1 rs2 : Reg) :
    execIsprime rs1 rs2 (workIsprime rs1 rs2 s) = execIsprime rs1 rs2 s := by
  cases hr : rejectedOutright (s.reg rs1) with
  | true => simp only [workIsprime, hr, if_true]
  | false =>
    unfold workIsprime
    simp only [hr, Bool.false_eq_true, if_false]
    split
    · rfl
    · rename_i i a hs
      split
      · rfl
      · rename_i hin
        rw [execIsprime_of_answered hs rs1 rs2 hr, execIsprime_of_squaring rfl rs1 rs2 (by exact hr),
          primeAfter_setSeq, iterationVerdict, if_neg hin]
        rfl
    · rename_i i x t hs
      have ht : 0 < t := by rwa [SequencerOk, hs] at h
      simp only [Bool.and_eq_true, decide_eq_true_eq]
      rw [execIsprime_of_squaring hs rs1 rs2 hr]
      split
      · rename_i hgo
        rw [execIsprime_of_squaring rfl rs1 rs2 (by exact hr), primeAfter_setSeq]
        simp only [State.setSeq_reg]
        rw [squareLoop_iterate ht hgo]
      · rename_i hover
        rw [squareLoop_over hover]
        split
        · rename_i hpass
          rw [execIsprime_of_iterate rfl rs1 rs2 (by exact hr), primeFrom_setSeq, State.primeAfter, if_pos hpass]
          rfl
        · rw [execIsprime_of_squaring hs rs1 rs2 hr, squareLoop_over hover]
    · rename_i i hs
      exact execIsprime_drawWitness hr rs2 (execIsprime_of_iterate hs rs1 rs2 hr)
    · refine execIsprime_drawWitness hr rs2 ?_
      unfold execIsprime
      simp only [hr, Bool.false_eq_true, if_false]

/-- A command's turn after an iteration of its sequencer is its turn without it. -/
theorem exec_workOf {s : State} (h : s.Inv) (i : Instr) : exec i (workOf i s) = exec i s := by
  cases i with
  | expmod rd rs1 rs2 rs3 => exact execExpmod_workExpmod s rd rs1 rs2 rs3
  | pow rd rs1 rs2 => exact execPow_workPow (le_trans (by norm_num) h.legal.1) rd rs1 rs2
  | isprime rs1 rs2 => exact execIsprime_workIsprime h.sequencer rs1 rs2
  | digest rd rs1 => exact execDigest_workDigest s rd rs1
  | _ => rfl

theorem blockTurn_work {s : State} (h : s.Inv) : blockTurn s.work = blockTurn s := by
  cases hb : s.busy with
  | false => rw [work_of_idle hb]
  | true =>
    cases hd : decode s.cmd with
    | error e => rw [work_of_error hd]
    | ok i =>
      obtain ⟨hb', q, hq⟩ := work_eq_setSeq s
      have hd' : decode s.work.cmd = .ok i := by rw [hq]; exact hd
      rw [blockTurn_of_ok (hb'.trans hb) hd', blockTurn_of_ok hb hd, work_of_ok hb hd, exec_workOf h]

/-- Settles O55: the turn after an iteration is the turn without it, and an iteration moves the sequencer alone. -/
theorem resultsDoNotDependOnTiming : Obligations.ResultsDoNotDependOnTiming := fun s h =>
  ⟨blockTurn_work h, work_eq_setSeq s⟩

end Sys2Proof.Machine

namespace Sys2Proof.Machine

/-! ## Steps, the issue and resets (20_memory.md R60, R62, R67; 60_exceptions.md R198; 70_reset_and_hazards.md R210) -/

/-- Settles O6, by the two forms of the block's turn. -/
theorem stepRunsTheDecodedCommand : Obligations.StepRunsTheDecodedCommand := fun _ _ hb hd =>
  ⟨fun hi => (step_nil hi).trans (blockTurn_of_ok hb hd), fun _ hi => (step_cons hi).trans (blockTurn_of_ok hb hd)⟩

/-- A step whose next event is a host read. -/
theorem step_of_read {s : State} {addr : PortAddr} {rest : List Event} (h : s.inputs = .read addr :: rest) :
    step s = .next (State.hostRead { s with inputs := rest } addr) := step_cons h

/-- A step whose next event is a host write. -/
theorem step_of_write {s : State} {addr : PortAddr} {data : Word} {strb : Strobes} {rest : List Event}
    (h : s.inputs = .write addr data strb :: rest) :
    step s = .next (State.hostWrite { s with inputs := rest } addr data strb) := step_cons h

/-- A read that is not of RES or the buffer, and any read of an idle block, returns what stands at the offset
(20_memory.md R60, R63). -/
theorem hostRead_eq {s : State} {addr : PortAddr} (h : s.busy = false ∨ readsUnspecified (portReg s.cfg addr) = false) :
    s.hostRead addr = { s with rdata := s.portValue (portReg s.cfg addr) } := by
  rcases h with h | h <;> simp [State.hostRead, h]

/-- Settles O44: either form of a read writes the read data path and the count of busy reads alone. -/
theorem readsHaveNoSideEffect : Obligations.ReadsHaveNoSideEffect := by
  intro s addr rest hi
  refine ⟨_, step_of_read hi, ?_⟩
  unfold State.hostRead
  split
  · exact ⟨_, _, rfl⟩
  · exact ⟨_, s.draws, rfl⟩

section Registers

variable {cfg : Config} {addr : PortAddr}

theorem portReg_id (h : wordOffset addr = 0x000) : portReg cfg addr = .id := by simp [portReg, h]
theorem portReg_maxlimbs (h : wordOffset addr = 0x004) : portReg cfg addr = .maxlimbs := by simp [portReg, h]
theorem portReg_bufbytes (h : wordOffset addr = 0x008) : portReg cfg addr = .bufbytes := by simp [portReg, h]
theorem portReg_ctrl (h : wordOffset addr = 0x00C) : portReg cfg addr = .ctrl := by simp [portReg, h]
theorem portReg_status (h : wordOffset addr = 0x010) : portReg cfg addr = .status := by simp [portReg, h]
theorem portReg_cmd (h : wordOffset addr = 0x014) : portReg cfg addr = .cmd := by simp [portReg, h]
theorem portReg_arg0 (h : wordOffset addr = 0x018) : portReg cfg addr = .arg0 := by simp [portReg, h]
theorem portReg_arg1 (h : wordOffset addr = 0x01C) : portReg cfg addr = .arg1 := by simp [portReg, h]
theorem portReg_res (h : wordOffset addr = 0x020) : portReg cfg addr = .res := by simp [portReg, h]

end Registers

/-- A host write of CMD (10_state.md R31). -/
theorem hostWrite_cmd {s : State} {addr : PortAddr} (ha : wordOffset addr = 0x014) (data : Word) (strb : Strobes) :
    s.hostWrite addr data strb = s.writeCmd data strb := by simp only [State.hostWrite, portReg_cmd ha]

/-- A host write of CTRL (10_state.md R32). -/
theorem hostWrite_ctrl {s : State} {addr : PortAddr} (ha : wordOffset addr = 0x00C) (data : Word) (strb : Strobes) :
    s.hostWrite addr data strb = s.writeCtrl data strb := by simp only [State.hostWrite, portReg_ctrl ha]

/-- A full-strobe write of CMD to an idle block issues the word (10_state.md R31; 60_exceptions.md R193). -/
theorem writeCmd_of_idle_full {s : State} (hb : s.busy = false) (w : Word) : s.writeCmd w 0xF = s.issue w := by
  simp [State.writeCmd, hb]

/-- Settles O8, by CMD's three writes, its read and its reset value. -/
theorem cmdWriteIssues : Obligations.CmdWriteIssues := by
  refine ⟨rfl, fun s addr rest ha =>
    ⟨fun w strb hi => ⟨fun hb hfull => ?_, fun hb hpart => ?_, fun hb => ?_⟩, fun hi => ?_⟩⟩
  · subst hfull
    rw [step_of_write hi, hostWrite_cmd ha, writeCmd_of_idle_full (by exact hb)]
    exact ⟨_, rfl, rfl, rfl, rfl, rfl⟩
  · rw [step_of_write hi, hostWrite_cmd ha, State.writeCmd, if_neg (by exact Bool.eq_false_iff.1 hb), if_neg hpart]
  · rw [step_of_write hi, hostWrite_cmd ha, State.writeCmd, if_pos (by exact hb)]
    rfl
  · rw [step_of_read hi, hostRead_eq (.inr (by rw [portReg_cmd ha]; rfl)), portReg_cmd ha]
    rfl

/-- Settles O9: the issue, and then the block's turn on a word that does not decode. -/
theorem illegalWordCompletesWithItsError : Obligations.IllegalWordCompletesWithItsError := by
  intro s addr w e rest hb ha hd hi
  have hissue : step s = .next (State.issue { s with inputs := .finish :: rest } w) := by
    rw [step_of_write hi, hostWrite_cmd ha, writeCmd_of_idle_full (by exact hb)]
  have hturn : step (State.issue { s with inputs := .finish :: rest } w) =
      .next ((State.issue { s with inputs := rest } w).fail .illegalCommand) :=
    (step_cons (e := .finish) (rest := rest) rfl).trans
      (blockTurn_of_error (s := State.issue { s with inputs := rest } w) rfl hd)
  exact ⟨_, _, hissue, rfl, rfl, rfl, hturn, fail_fails { s with cmd := w, inputs := rest } .illegalCommand⟩

/-- The state after either reset (10_state.md R45). -/
theorem resetBlock_afterReset (s : State) : AfterReset s.resetBlock :=
  ⟨State.resetBlock_reg s, rfl, rfl, (by decide : State.reset.ctrlWord = 0), (by decide : State.reset.statusWord = 0),
    rfl, rfl, rfl, rfl, rfl, rfl, rfl, rfl, rfl⟩

/-- Settles O51: both resets are the one reset of the block, and the state the machine starts from has its values. -/
theorem resetPutsEveryPieceAtItsValue : Obligations.ResetPutsEveryPieceAtItsValue := by
  refine ⟨resetBlock_afterReset State.reset, fun s rest hi => ?_, fun s addr data strb rest ha hs hd hi => ?_⟩
  · exact ⟨_, step_cons hi, resetBlock_afterReset _, rfl, rfl⟩
  · rw [step_of_write hi, hostWrite_softReset _ ha hs hd]
    exact ⟨_, rfl, resetBlock_afterReset _, rfl, rfl⟩

/-! ## The host port's words (10_state.md R27, R33; 20_memory.md R55, R59, R62) -/

/-- STATUS above bit 8 (10_state.md R33): ERRCODE from bit 16 on, and 0 elsewhere. -/
theorem statusWord_getLsbD_high (s : State) {j : Nat} (h : 9 ≤ j) :
    s.statusWord.getLsbD j = (decide (16 ≤ j) && (errByte s.status.errcode).getLsbD (j - 16)) := by
  obtain ⟨k, rfl⟩ := Nat.exists_eq_add_of_le' h
  rw [statusWord_getLsbD]
  simp

/-- Settles O46: the codes one by one, and STATUS bit by bit. -/
theorem statusFieldsStandInTheirBits : Obligations.StatusFieldsStandInTheirBits := by
  refine ⟨⟨rfl, rfl, rfl, rfl, rfl, rfl, rfl, rfl, rfl, rfl, rfl, rfl⟩, fun s => ?_⟩
  have hlow := statusWord_getLsbD s
  refine ⟨hlow 0, hlow 1, hlow 2, hlow 3, hlow 4, hlow 5, hlow 6, hlow 7, hlow 8, ?_, ?_, ?_⟩
  all_goals
    refine BitVec.eq_of_getLsbD_eq fun i hi => ?_
    rw [BitVec.getLsbD_extractLsb', decide_eq_true hi, Bool.true_and, statusWord_getLsbD_high s (by omega)]
  · simp [show ¬ 16 ≤ 9 + i by omega]
  · simp
  · simp [show 24 + i - 16 = i + 8 by omega]

/-- Settles O49: a STATUS write keeps DONE and OVR unless it strobes lane 0 with a 1 there. -/
theorem statusWriteClearsDoneAndOvr : Obligations.StatusWriteClearsDoneAndOvr := by
  intro s addr data strb rest ha hi
  rw [step_of_write hi]
  simp only [State.hostWrite, portReg_status ha, State.writeStatus]
  refine ⟨_, _, rfl, ?_, ?_⟩
  all_goals simp only [Bool.and_eq_true, Bool.not_eq_true', Bool.eq_false_iff, ne_eq]

/-- A read-only or reserved offset ignores a write (10_state.md R42; 20_memory.md R62). -/
theorem hostWrite_read_only {s : State} {addr : PortAddr}
    (h : wordOffset addr < 0x00C ∨ (0x020 ≤ wordOffset addr ∧ wordOffset addr < 0x10000) ∨
      0x10000 + s.cfg.bufBytes ≤ wordOffset addr) (data : Word) (strb : Strobes) :
    s.hostWrite addr data strb = s := by
  have hal := (wordOffset_aligned addr).1
  have hcase : wordOffset addr = 0x000 ∨ wordOffset addr = 0x004 ∨ wordOffset addr = 0x008 ∨ wordOffset addr = 0x020 ∨
      (0x024 ≤ wordOffset addr ∧ wordOffset addr < 0x10000 ∨ 0x10000 + s.cfg.bufBytes ≤ wordOffset addr) := by omega
  rcases hcase with ha | ha | ha | ha | ha
  · simp only [State.hostWrite, portReg_id ha]
  · simp only [State.hostWrite, portReg_maxlimbs ha]
  · simp only [State.hostWrite, portReg_bufbytes ha]
  · simp only [State.hostWrite, portReg_res ha]
  · simp only [State.hostWrite, portReg_reserved ha]

/-- Settles O47, offset by offset. -/
theorem busyWritesAreRefused : Obligations.BusyWritesAreRefused := by
  intro s addr data strb rest hb hi
  have hb' : State.busy { s with inputs := rest } = true := hb
  rw [step_of_write hi]
  refine ⟨fun h => congrArg Host.Outcome.next ?_, fun h => ?_⟩
  · show _ = State.refuseWrite { s with inputs := rest }
    rcases h with ha | ha | ha | ⟨ha, hs⟩ | ⟨h1, h2⟩
    · rw [hostWrite_cmd ha, State.writeCmd, if_pos hb']
    · simp only [State.hostWrite, portReg_arg0 ha, hb', if_true]
    · simp only [State.hostWrite, portReg_arg1 ha, hb', if_true]
    · rw [hostWrite_ctrl ha, State.writeCtrl, if_neg (by simpa using hs), if_pos hb']
    · simp only [State.hostWrite, portReg_buf h1 h2, hb', if_true]
  · rw [hostWrite_read_only (by exact h)]

/-- Settles O50, by the two forms of a CTRL write without a reset. -/
theorem idleCtrlWriteSetsItsFields : Obligations.IdleCtrlWriteSetsItsFields := by
  intro s addr data strb rest hb ha hi
  have hb' : ¬ State.busy { s with inputs := rest } = true := Bool.eq_false_iff.1 hb
  rw [step_of_write hi, hostWrite_ctrl ha, State.writeCtrl]
  refine ⟨fun hs hd => ?_, fun hs => ?_⟩
  · rw [hs, hd, if_neg (by simp), if_neg hb', if_pos rfl]
  · rw [hs, if_neg (by simp), if_neg hb', if_neg Bool.false_ne_true]

/-- A read of the buffer after a write of the strobed lanes of the word at o (20_memory.md R55). -/
theorem get?_writeLanes (m : Memory) (o : Nat) (data : Word) (strb : Strobes) (a : Nat) :
    Memory.get? (writeLanes m o data strb) a =
      if o ≤ a ∧ a < o + 4 ∧ strb.getLsbD (a - o) = true then some (data.extractLsb' (8 * (a - o)) 8)
      else Memory.get? m a := by
  by_cases hin : o ≤ a ∧ a < o + 4
  · obtain ⟨lane, hlane, rfl⟩ : ∃ lane < 4, a = o + lane := ⟨a - o, by omega, by omega⟩
    have : lane = 0 ∨ lane = 1 ∨ lane = 2 ∨ lane = 3 := by omega
    rcases this with rfl | rfl | rfl | rfl <;> simp [writeLanes, get?_writeLane]
  · rw [if_neg (by tauto)]
    simp only [writeLanes, get?_writeLane]
    rw [if_neg (by omega), if_neg (by omega), if_neg (by omega), if_neg (by omega)]

/-- A byte in a strobed lane of a written word reads as the data's lane (20_memory.md R55). -/
theorem bufByte_writeLanes_lane (s : State) (o : Nat) (data : Word) (strb : Strobes) {lane : Nat} (h : lane < 4) :
    State.bufByte { s with buf := writeLanes s.buf o data strb } (o + lane) =
      if strb.getLsbD lane then data.extractLsb' (8 * lane) 8 else s.bufByte (o + lane) := by
  rw [State.bufByte_eq, get?_writeLanes, State.bufByte_eq]
  simp only [Nat.add_sub_cancel_left, Nat.le_add_right, Nat.add_lt_add_iff_left, h, true_and]
  split <;> rfl

/-- A byte outside a written word reads as before (20_memory.md R55). -/
theorem bufByte_writeLanes_outside (s : State) (o : Nat) (data : Word) (strb : Strobes) :
    SameBufferOutside o 4 s { s with buf := writeLanes s.buf o data strb } := by
  intro a ha
  rw [State.bufByte_eq, get?_writeLanes, if_neg (by omega), State.bufByte_eq]

/-- Settles O48, offset by offset. -/
theorem idleWritesTakeTheStrobedLanes : Obligations.IdleWritesTakeTheStrobedLanes := by
  intro s addr data strb rest hb hi
  have hb' : ¬ State.busy { s with inputs := rest } = true := Bool.eq_false_iff.1 hb
  rw [step_of_write hi]
  refine ⟨fun ha => ⟨mergeLanes s.arg0 data strb, ?_, fun _ => mergeLanes_lane _ _ _⟩,
    fun ha => ⟨mergeLanes s.arg1 data strb, ?_, fun _ => mergeLanes_lane _ _ _⟩, fun h1 h2 => ?_, fun h => ?_⟩
  · simp only [State.hostWrite, portReg_arg0 ha, if_neg hb']
  · simp only [State.hostWrite, portReg_arg1 ha, if_neg hb']
  · simp only [State.hostWrite, portReg_buf (cfg := s.cfg) h1 h2, if_neg hb']
    exact ⟨_, rfl, ⟨_, rfl⟩, fun _ => bufByte_writeLanes_lane _ _ data strb, bufByte_writeLanes_outside _ _ data strb⟩
  · rw [hostWrite_read_only (by exact h)]

/-- Settles O45, offset by offset. -/
theorem readsReturnTheRegisterMap : Obligations.ReadsReturnTheRegisterMap := by
  intro s t addr rest hlegal hi hstep
  obtain ⟨-, hL, -, hB, -⟩ := hlegal
  obtain rfl := next_inj ((step_of_read hi).symm.trans hstep)
  have hread : ∀ {p : PortReg}, portReg s.cfg addr = p → s.busy = false ∨ readsUnspecified p = false →
      (State.hostRead { s with inputs := rest } addr).rdata = s.portValue p := by
    rintro p rfl hp
    rw [hostRead_eq (s := { s with inputs := rest }) hp]
    rfl
  refine ⟨fun ha => ?_, fun ha => ?_, fun ha => ?_, fun ha => ?_, fun ha => ?_, fun ha => ?_, fun ha => ?_,
    fun ha => ?_, fun ha hb => ?_, fun ha => ?_, fun h1 h2 hb => ?_⟩
  · rw [hread (portReg_id ha) (.inr rfl)]; rfl
  · rw [hread (portReg_maxlimbs ha) (.inr rfl)]
    exact (BitVec.toNat_ofNat _ _).trans (Nat.mod_eq_of_lt (by omega))
  · rw [hread (portReg_bufbytes ha) (.inr rfl)]
    exact (BitVec.toNat_ofNat _ _).trans (Nat.mod_eq_of_lt (by omega))
  · rw [hread (portReg_ctrl ha) (.inr rfl)]
    exact ctrlWord_getLsbD s
  · exact hread (portReg_status ha) (.inr rfl)
  · exact hread (portReg_cmd ha) (.inr rfl)
  · exact hread (portReg_arg0 ha) (.inr rfl)
  · exact hread (portReg_arg1 ha) (.inr rfl)
  · exact hread (portReg_res ha) (.inl hb)
  · exact hread (portReg_reserved ha) (.inr rfl)
  · rw [hread (portReg_buf h1 h2) (.inl hb)]
    exact fun lane hlane => bufWord_lane s _ hlane

end Sys2Proof.Machine

namespace Sys2Proof.Machine

/-! ## The witness port (45_primality.md R155 to R158; 70_reset_and_hazards.md R213, R222) -/

/-- While a request is outstanding the block is busy, and WREQ is 1 with its bound (10_state.md R34, R40). -/
theorem views_of_waiting {s : State} {i : Nat} {bound : Int} (h : s.seq = some (.waiting i bound)) :
    s.busy = true ∧ s.wreq = true ∧ s.wbound = some bound := by
  simp [State.busy, State.wreq, State.wbound, h]

/-- An answer to an outstanding request is taken (45_primality.md R157). -/
theorem takeAnswer_of_waiting {s : State} {i : Nat} {bound : Int} (h : s.seq = some (.waiting i bound)) (a : Int) :
    s.takeAnswer a = { s with seq := some (.answered i a) } := by
  simp only [State.takeAnswer, h]

/-- An answer without a request is ignored (70_reset_and_hazards.md R213). -/
theorem takeAnswer_of_no_request {s : State} (h : s.wreq = false) (a : Int) : s.takeAnswer a = s := by
  unfold State.takeAnswer
  split
  · rename_i hs
    exact absurd ((views_of_waiting hs).2.1.symm.trans h).symm Bool.false_ne_true
  · rfl

/-- A host read keeps the sequencer and the events to come (20_memory.md R60). -/
theorem hostRead_keeps (s : State) (addr : PortAddr) :
    (s.hostRead addr).seq = s.seq ∧ (s.hostRead addr).inputs = s.inputs := by
  unfold State.hostRead
  split <;> exact ⟨rfl, rfl⟩

/-- A host write that is no reset keeps a busy block's sequencer and the events to come (20_memory.md R62). -/
theorem hostWrite_busy_keeps {s : State} (hb : s.busy = true) {addr : PortAddr} {data : Word} {strb : Strobes}
    (hr : ¬ ResetsTheBlock (.write addr data strb)) :
    (s.hostWrite addr data strb).seq = s.seq ∧ (s.hostWrite addr data strb).inputs = s.inputs := by
  obtain ⟨d, o, hw, -⟩ := (hostWrite_busy hb addr data strb).resolve_left fun h => hr h.2
  rw [hw]
  exact ⟨rfl, rfl⟩

/-- An event that resets the block is handled by its one reset (70_reset_and_hazards.md R210). -/
theorem handle_of_reset {e : Event} (h : ResetsTheBlock e) (s : State) : handle e s = .next s.resetBlock := by
  rcases h with rfl | ⟨addr, data, strb, rfl, ha, hs, hd⟩
  · rfl
  · exact congrArg Host.Outcome.next (hostWrite_softReset s ha hs hd)

/-- The block makes no progress while its request is outstanding: neither its turn nor its work changes anything
(45_primality.md R157). -/
theorem blockTurn_and_work_of_waiting {s : State} {i : Nat} {bound : Int} {rs1 rs2 : Reg}
    (hs : s.seq = some (.waiting i bound)) (hd : decode s.cmd = .ok (.isprime rs1 rs2)) (hn : Testable (s.reg rs1)) :
    blockTurn s = .next s ∧ s.work = s :=
  have hb := (views_of_waiting hs).1
  ⟨(blockTurn_of_ok hb hd).trans (execIsprime_of_waiting hs rs1 rs2 (testable_iff.1 hn)),
    (work_of_ok hb hd).trans (workIsprime_of_waiting hs rs1 rs2 (testable_iff.1 hn))⟩

/-- Every event but an answer and a reset leaves the request outstanding. -/
theorem handle_keeps_waiting {s : State} {i : Nat} {bound : Int} {rs1 rs2 : Reg}
    (hs : s.seq = some (.waiting i bound)) (hd : decode s.cmd = .ok (.isprime rs1 rs2)) (hn : Testable (s.reg rs1))
    {e : Event} (ha : ∀ a, e ≠ .answer a) (hr : ¬ ResetsTheBlock e) :
    ∃ t, handle e s = .next t ∧ t.seq = s.seq ∧ t.inputs = s.inputs := by
  obtain ⟨hturn, hwork⟩ := blockTurn_and_work_of_waiting hs hd hn
  cases e with
  | read addr => exact ⟨_, rfl, hostRead_keeps s addr⟩
  | write addr data strb => exact ⟨_, rfl, hostWrite_busy_keeps (views_of_waiting hs).1 hr⟩
  | powerOn => exact absurd (.inl rfl) hr
  | answer a => exact absurd rfl (ha a)
  | work => exact ⟨_, rfl, by rw [hwork], by rw [hwork]⟩
  | finish => exact ⟨_, hturn, rfl, rfl⟩

/-- Settles O39, by the next event of a waiting block. -/
theorem witnessWaitEndsOnlyByAnAnswerOrAReset : Obligations.WitnessWaitEndsOnlyByAnAnswerOrAReset := by
  refine ⟨fun s i bound rs1 rs2 hs hd hn => ?_, fun s a rest hw hi => ?_⟩
  · obtain ⟨-, hwreq, hwbound⟩ := views_of_waiting hs
    have hstill := fun rest => blockTurn_and_work_of_waiting (s := { s with inputs := rest }) hs hd hn
    refine ⟨hwreq, hwbound, fun hi => ?_, fun e rest hi ha hr => ?_, fun rest hi => ?_, fun a rest hi => ?_,
      fun e rest hi hr => ?_⟩
    · exact (step_nil hi).trans (blockTurn_and_work_of_waiting hs hd hn).1
    · obtain ⟨t, ht, hseq, hin⟩ := handle_keeps_waiting (s := { s with inputs := rest }) hs hd hn ha hr
      obtain ⟨hb, hwr, hwb⟩ := views_of_waiting (hseq.trans hs)
      exact ⟨t, (step_cons hi).trans ht, hseq.trans hs, hb, hwr, hwb, hin⟩
    · rcases hi with hi | hi
      · exact (step_cons hi).trans (hstill rest).1
      · exact (step_cons hi).trans (congrArg Host.Outcome.next (hstill rest).2)
    · have htake := takeAnswer_of_waiting (s := { s with inputs := rest }) hs a
      exact ⟨_, (step_cons hi).trans (congrArg Host.Outcome.next htake), rfl, rfl, rfl⟩
    · exact ⟨_, (step_cons hi).trans (handle_of_reset hr _), rfl, rfl, rfl, rfl⟩
  · exact (step_cons hi).trans (congrArg Host.Outcome.next (takeAnswer_of_no_request (by exact hw) a))

/-! ## ISPRIME (45_primality.md R155 to R164) -/

/-- ISPRIME's turn once iteration i is answered with a witness that passes: on to iteration i + 1. -/
theorem exec_isprime_of_good {s : State} {i : Nat} {a : Int} (hs : s.seq = some (.answered i a)) {rs1 : Reg}
    (hn : Testable (s.reg rs1)) (hg : GoodWitness (s.reg rs1) a) (rs2 : Reg) :
    exec (.isprime rs1 rs2) s = .next (s.primeFrom (s.reg rs1) rs2 (i + 1)) := by
  show execIsprime rs1 rs2 s = _
  rw [execIsprime_of_answered hs rs1 rs2 (testable_iff.1 hn), (iterationVerdict_passes_iff hn).2 hg]
  rfl

/-- ISPRIME's turn once iteration i is answered with a witness in range that does not pass: "composite". -/
theorem exec_isprime_of_composite {s : State} {i : Nat} {a : Int} (hs : s.seq = some (.answered i a)) {rs1 : Reg}
    (hn : Testable (s.reg rs1)) (hr : 1 ≤ a ∧ a ≤ s.reg rs1 - 1) (hg : ¬ GoodWitness (s.reg rs1) a) (rs2 : Reg) :
    exec (.isprime rs1 rs2) s = .next (s.finishRes 0) := by
  show execIsprime rs1 rs2 s = _
  rw [execIsprime_of_answered hs rs1 rs2 (testable_iff.1 hn), iterationVerdict_composite hn hr hg]
  rfl

/-- ISPRIME's turn once iteration i is answered with a witness out of range. -/
theorem exec_isprime_of_out_of_range {s : State} {i : Nat} {a : Int} (hs : s.seq = some (.answered i a)) {rs1 : Reg}
    (hn : Testable (s.reg rs1)) (hr : a < 1 ∨ a > s.reg rs1 - 1) (rs2 : Reg) :
    exec (.isprime rs1 rs2) s = .next (s.fail .witnessRange) := by
  show execIsprime rs1 rs2 s = _
  rw [execIsprime_of_answered hs rs1 rs2 (testable_iff.1 hn), iterationVerdict_range hr]

/-- ISPRIME's first turn runs the iterations from 0 on. -/
theorem exec_isprime_at_issue {s : State} (hs : AtIssue s) {rs1 : Reg} (hn : Testable (s.reg rs1)) (rs2 : Reg) :
    exec (.isprime rs1 rs2) s = .next (s.primeFrom (s.reg rs1) rs2 0) :=
  execIsprime_of_start hs rs1 rs2 (testable_iff.1 hn)

/-- With the witness port and no iteration left the verdict is "probably prime" (45_primality.md R164). -/
theorem primeFrom_port_done {s : State} (hw : s.ctrl.wsrc = false) {i : Nat} (hi : s.arg0Nat ≤ i) (n : Int) (w0 : Reg) :
    s.primeFrom n w0 i = s.finishRes 1 := by
  rw [State.primeFrom, if_neg (Bool.eq_false_iff.1 hw), if_neg (Nat.not_lt.2 hi)]
  rfl

/-- With the witness port and iterations left the next witness is requested (45_primality.md R156, R157). -/
theorem primeFrom_port_request {s : State} (hw : s.ctrl.wsrc = false) {i : Nat} (hi : i < s.arg0Nat) (n : Int)
    (w0 : Reg) : s.primeFrom n w0 i = { s with seq := some (.waiting i (n - 1)) } := by
  rw [State.primeFrom, if_neg (Bool.eq_false_iff.1 hw), if_pos hi]

/-- Settles O37, by the first turn and the turn after an answer. -/
theorem isprimeJudgesPortWitnesses : Obligations.IsprimeJudgesPortWitnesses := by
  intro rs1 rs2 s hw hn
  refine ⟨fun hs h0 => ?_, fun hs h0 => ?_, fun i a hs =>
    ⟨fun hr => ?_, fun h1 h2 hg => ?_, fun hg hi => ?_, fun hg hi => ?_⟩⟩
  · exact ⟨_, exec_isprime_at_issue hs hn rs2, by rw [primeFrom_port_done hw h0.le]; exact finishRes_writesRes s 1⟩
  · have hreq := primeFrom_port_request hw (by exact h0) (s.reg rs1) rs2
    refine ⟨_, exec_isprime_at_issue hs hn rs2, hreq, ?_⟩
    rw [hreq]
    exact views_of_waiting rfl
  · exact ⟨_, exec_isprime_of_out_of_range hs hn hr rs2, fail_fails s .witnessRange⟩
  · exact ⟨_, exec_isprime_of_composite hs hn ⟨h1, h2⟩ hg rs2, finishRes_writesRes s 0⟩
  · exact ⟨_, exec_isprime_of_good hs hn hg rs2, by rw [primeFrom_port_done hw hi]; exact finishRes_writesRes s 1⟩
  · rw [exec_isprime_of_good hs hn hg rs2, primeFrom_port_request hw hi]

/-- With register-file witnesses the first turn ends with what all the iterations lead to (45_primality.md R155). -/
theorem exec_isprime_registers {s : State} (hs : AtIssue s) (hw : s.ctrl.wsrc = true) {rs1 : Reg}
    (hn : Testable (s.reg rs1)) (rs2 : Reg) :
    exec (.isprime rs1 rs2) s =
      .next (s.reportIterations (registerIterations (s.reg rs1) (s.registerWitness rs2) s.arg0Nat 0)) := by
  rw [exec_isprime_at_issue hs hn, State.primeFrom, if_pos hw]
  rfl

/-- With register-file witnesses that all pass, ISPRIME answers "probably prime" (45_primality.md R164). -/
theorem exec_isprime_of_all_good {s : State} (hs : AtIssue s) (hw : s.ctrl.wsrc = true) {rs1 rs2 : Reg}
    (hn : Testable (s.reg rs1)) (hg : ∀ i, i < s.arg0Nat → GoodWitness (s.reg rs1) (s.registerWitness rs2 i)) :
    exec (.isprime rs1 rs2) s = .next (s.finishRes 1) := by
  rw [exec_isprime_registers hs hw hn, registerIterations_all]
  · rfl
  · intro i hi
    rw [Nat.zero_add]
    exact (iterationVerdict_passes_iff hn).2 (hg i hi)

/-- With register-file witnesses the first one that does not pass decides (45_primality.md R164). -/
theorem exec_isprime_of_first_bad {s : State} (hs : AtIssue s) (hw : s.ctrl.wsrc = true) {rs1 rs2 : Reg}
    (hn : Testable (s.reg rs1)) {j : Nat} (hj : j < s.arg0Nat)
    (hg : ∀ i, i < j → GoodWitness (s.reg rs1) (s.registerWitness rs2 i))
    (hbad : ¬ GoodWitness (s.reg rs1) (s.registerWitness rs2 j)) :
    exec (.isprime rs1 rs2) s =
      .next (s.reportIterations (iterationVerdict (s.reg rs1) (s.registerWitness rs2 j))) := by
  rw [exec_isprime_registers hs hw hn, registerIterations_of_prefix hj]
  · rw [Nat.zero_add]
  · intro i hi
    rw [Nat.zero_add]
    exact (iterationVerdict_passes_iff hn).2 (hg i hi)
  · rw [Nat.zero_add]
    exact mt (iterationVerdict_passes_iff hn).1 hbad

/-- Settles O36: all iterations pass, or the first that does not decides. -/
theorem isprimeJudgesRegisterWitnesses : Obligations.IsprimeJudgesRegisterWitnesses := by
  intro rs1 rs2 s hs hw hn
  refine ⟨hasEncoding_of_row (name := "ISPRIME") (by decide) rfl, s.registerWitness rs2,
    fun i r hr => congrArg s.reg (Fin.ext hr.symm), fun hg => ?_, fun j hj hg => ⟨fun hr hbad => ?_, fun hr => ?_⟩⟩
  · exact ⟨_, exec_isprime_of_all_good hs hw hn hg, finishRes_writesRes s 1⟩
  · rw [exec_isprime_of_first_bad hs hw hn hj hg hbad, iterationVerdict_composite hn hr hbad]
    exact ⟨_, rfl, finishRes_writesRes s 0⟩
  · have hbad : ¬ GoodWitness (s.reg rs1) (s.registerWitness rs2 j) := fun ⟨h1, h2, _⟩ => by omega
    rw [exec_isprime_of_first_bad hs hw hn hj hg hbad, iterationVerdict_range hr]
    exact ⟨_, rfl, fail_fails s .witnessRange⟩

/-! ### A prime always passes (45_primality.md R159) -/

/-- In a field the square roots of 1 are 1 and -1: going down from b^(2^k) = 1 by square roots, the first value that is
not 1 is -1. -/
theorem eq_one_or_exists_pow_eq_neg_one {F : Type*} [Field F] {b : F} {k : Nat} (h : b ^ 2 ^ k = 1) :
    b = 1 ∨ ∃ j, j < k ∧ b ^ 2 ^ j = -1 := by
  induction k with
  | zero => exact .inl (by simpa using h)
  | succ k ih =>
    rw [pow_succ, pow_mul, pow_two, mul_self_eq_one_iff] at h
    rcases h with h1 | h1
    · rcases ih h1 with hb | ⟨j, hj, hb⟩
      · exact .inl hb
      · exact .inr ⟨j, by omega, hb⟩
    · exact .inr ⟨k, by omega, h1⟩

/-- Every witness of a prime passes: a^(p-1) is 1 by Fermat, and a^d is its square root k times over
(45_primality.md R159). -/
theorem passesIteration_of_prime {p a : Nat} (hp : p.Prime) (h1 : 1 ≤ a) (h2 : a < p) : PassesIteration p a := by
  have : Fact p.Prime := ⟨hp⟩
  have hp2 := hp.two_le
  obtain ⟨k, d, hodd, hk⟩ := Nat.exists_eq_two_pow_mul_odd (n := p - 1) (by omega)
  rw [mul_comm] at hk
  have ha : (a : ZMod p) ≠ 0 := by
    rw [ne_eq, ZMod.natCast_eq_zero_iff]
    exact Nat.not_dvd_of_pos_of_lt h1 h2
  have hfermat : ((a : ZMod p) ^ d) ^ 2 ^ k = 1 := by
    rw [← pow_mul, ← hk]
    exact ZMod.pow_card_sub_one_eq_one ha
  refine ⟨d, k, Nat.odd_iff.1 hodd, hk, ?_⟩
  rcases eq_one_or_exists_pow_eq_neg_one hfermat with hd | ⟨j, hj, hd⟩
  · refine .inl ((ZMod.natCast_eq_natCast_iff' _ _ p).1 ?_)
    push_cast
    exact hd
  · refine .inr ⟨j, hj, ?_⟩
    have hneg : ((a ^ (d * 2 ^ j) : Nat) : ZMod p) = ((p - 1 : Nat) : ZMod p) := by
      rw [Nat.cast_pow, pow_mul, hd, Nat.cast_sub (by omega), ZMod.natCast_self, Nat.cast_one, zero_sub]
    rw [(ZMod.natCast_eq_natCast_iff' _ _ p).1 hneg]
    exact Nat.mod_eq_of_lt (by omega)

theorem goodWitness_of_prime {p : Nat} (hp : p.Prime) {a : Int} (h1 : 1 ≤ a) (h2 : a ≤ (p : Int) - 1) :
    GoodWitness p a := by
  refine ⟨h1, h2, ?_⟩
  rw [Int.toNat_natCast]
  exact passesIteration_of_prime hp (by omega) (by omega)

theorem testable_of_prime {p : Nat} (hp : p.Prime) : Testable p := by
  rcases hp.eq_two_or_odd with h2 | hodd
  · exact .inl (by rw [h2]; rfl)
  · have := hp.two_le
    exact .inr ⟨by omega, by omega⟩

/-- Settles O38, by Fermat's theorem and ISPRIME's turn for either source. -/
theorem primesAlwaysReportProbablyPrime : Obligations.PrimesAlwaysReportProbablyPrime := by
  intro p hp
  refine ⟨fun a => goodWitness_of_prime hp, fun rs1 rs2 s i a hw hn hs h1 h2 => ?_, fun rs1 rs2 s hs hw hn hr => ?_⟩
  · have htest : Testable (s.reg rs1) := hn ▸ testable_of_prime hp
    have hgood : GoodWitness (s.reg rs1) a := hn ▸ goodWitness_of_prime hp h1 h2
    rw [exec_isprime_of_good hs htest hgood rs2, ← hn]
    refine ⟨fun hi => ?_, fun hi => ?_⟩
    · exact ⟨_, rfl, by rw [primeFrom_port_done hw hi]; exact finishRes_writesRes s 1⟩
    · rw [primeFrom_port_request hw hi]
  · have htest : Testable (s.reg rs1) := hn ▸ testable_of_prime hp
    refine ⟨_, exec_isprime_of_all_good hs hw htest fun i hi => ?_, finishRes_writesRes s 1⟩
    rw [hn]
    obtain ⟨h1, h2⟩ := (hr ⟨(rs2.val + i) % 16, Nat.mod_lt _ (by decide)⟩).resolve_right fun h => h i hi rfl
    exact goodWitness_of_prime hp h1 h2

end Sys2Proof.Machine

namespace Sys2Proof.Machine

/-! ## The hex round trip (40_construction.md R96) -/

/-- TOHEX ends with ERR = 0 only by writing its text, which lies within the buffer (40_construction.md R94). -/
theorem exec_tohex_success {s t : State} {rs1 : Reg} (h : exec (.tohex rs1) s = .next t)
    (he : t.status.err = false) :
    s.arg0Nat + (hexString (s.reg rs1)).length ≤ s.cfg.bufBytes ∧
      t = { s with buf := Memory.setBytes s.buf s.arg0Nat (hexString (s.reg rs1)) }.finishRes
        (BitVec.ofNat 32 (hexString (s.reg rs1)).length) := by
  by_cases hin : s.arg0Nat + (hexString (s.reg rs1)).length ≤ s.cfg.bufBytes
  · exact ⟨hin, next_inj (h.symm.trans (exec_tohex_of_fits hin))⟩
  · rw [next_inj (h.symm.trans (exec_tohex_of_past_end (not_le.1 hin)))] at he
    exact absurd he.symm Bool.false_ne_true

/-- Settles O17: FROMHEX reads back the bytes TOHEX wrote, whose length RES holds, and their value is the operand. -/
theorem hexTextRoundTrip : Obligations.HexTextRoundTrip := by
  intro rs1 rd s t hlegal hfits hexec he
  obtain ⟨hin, rfl⟩ := exec_tohex_success hexec he
  obtain ⟨-, -, -, hB, -⟩ := hlegal
  have hlen : (BitVec.ofNat 32 (hexString (s.reg rs1)).length).toNat = (hexString (s.reg rs1)).length :=
    (BitVec.toNat_ofNat _ _).trans (Nat.mod_eq_of_lt (by omega))
  have hparse : parseHex (State.bufBytesFrom { s with buf := Memory.setBytes s.buf s.arg0Nat (hexString (s.reg rs1)) }
      s.arg0Nat (BitVec.ofNat 32 (hexString (s.reg rs1)).length).toNat) = some (s.reg rs1) := by
    rw [hlen, bufBytesFrom_setBytes, parseHex_hexString]
  refine ⟨_, exec_fromhex_of_text (by rw [← hlen] at hin; exact hin) (by exact hparse) rd, ?_⟩
  rw [finishCapacity_of_fits (by exact hfits)]
  exact finishReg_writesReg _ rd _ false

/-! ## Arithmetic (41_arithmetic.md R101, R102, R107) -/

/-- Settles O19, with the open function of the ADD_MIXED path (log 8). -/
theorem addMixedIsAFunctionOfTheOperands : Obligations.AddMixedIsAFunctionOfTheOperands := by
  refine ⟨Config.addMixed, fun rd rs1 rs2 s ha hb hsigns => ?_⟩
  have hmixed : addIsMixed (s.reg rs1) (s.reg rs2) = true := (addIsMixed_iff _ _).2 ⟨ha, hb, by tauto⟩
  have hexec : exec (.add rd rs1 rs2) s =
      .next (s.finishCapacity rd (Config.addMixed (s.reg rs1) (s.reg rs2)) true) := by
    simp only [exec, execAdd, hmixed, addValue_mixed hmixed]
  refine ⟨fun hf => ⟨_, hexec, ?_⟩, fun hf => ⟨_, hexec, ?_⟩⟩
  · rw [finishCapacity_of_fits hf]; exact finishReg_writesReg s rd _ true
  · rw [finishCapacity_of_not_fits hf]; exact fail_fails s .capacity

/-- SUB ends in the shared judgement of the difference against L (41_arithmetic.md R102). -/
theorem exec_sub (rd rs1 rs2 : Reg) (s : State) :
    exec (.sub rd rs1 rs2) s = .next (s.finishCapacity rd (s.reg rs1 - s.reg rs2) false) := by
  simp only [exec, execSub, subValue_eq]

/-- The difference of operands of one sign is no larger than the larger of them, so it fits (41_arithmetic.md R102). -/
theorem fits_sub_of_same_sign {s : State} {a b : Int} (h : a < 0 ↔ b < 0) (ha : Fits s a) (hb : Fits s b) :
    Fits s (a - b) := by
  have hmag : mag (a - b) ≤ mag a ∨ mag (a - b) ≤ mag b := by unfold mag; omega
  rcases hmag with hle | hle
  · exact fits_of_mag_le hle ha
  · exact fits_of_mag_le hle hb

/-- Settles O20, by the difference and the shared judgement against L; each branch is the difference. -/
theorem subIsExact : Obligations.SubIsExact := by
  intro rd rs1 rs2 s
  refine ⟨hasEncoding_of_row (name := "SUB") (by decide) rfl, _, _, exec_sub rd rs1 rs2 s,
    finishCapacity_writesOrCapacity s rd _, rfl, sub_eq_zero.2, fun hne hsigns => ?_, fun hsigns hmag => ?_,
    fun hsigns hmag => ?_, fits_sub_of_same_sign⟩
  all_goals
    simp only [norm, decide_eq_true_eq]
    split_ifs <;> omega

/-- Settles O24: the quotient and the remainder are those of the truncating division of the integers. -/
theorem divAndModObeyTheDivisionLaw : Obligations.DivAndModObeyTheDivisionLaw := by
  intro rd rs1 rs2 s t u hb ht hu
  obtain rfl := next_inj ((exec_div_of_ne_zero hb rd rs1).symm.trans ht)
  obtain rfl := next_inj ((exec_mod_of_ne_zero hb rd rs1).symm.trans hu)
  rw [(finishReg_writesReg s rd _ false).1, (finishReg_writesReg s rd _ false).1]
  refine ⟨?_, mag_modOp_lt _ hb, ?_⟩
  · rw [modOp_eq_tmod]
    exact Int.tdiv_mul_add_tmod _ _
  · rcases lt_trichotomy (modOp (s.reg rs1) (s.reg rs2)) 0 with hneg | hzero | hpos
    · exact .inr (iff_of_true hneg (neg_of_modOp_neg hneg))
    · exact .inl hzero
    · exact .inr (iff_of_false hpos.not_gt (pos_of_modOp_pos hpos).not_gt)

/-! ## Bitwise operations and BITLEN (42_bitwise_shift.md R120 to R122, R126, R128) -/

/-- Neither sign is set exactly for two non-negative operands. -/
theorem sgn_or_sgn_eq_false {a b : Int} (ha : 0 ≤ a) (hb : 0 ≤ b) : (sgn a || sgn b) = false := by
  rw [(sgn_eq_false_iff a).2 ha, (sgn_eq_false_iff b).2 hb, Bool.false_or]

theorem sgn_or_sgn_eq_true {a b : Int} (h : a < 0 ∨ b < 0) : (sgn a || sgn b) = true :=
  Bool.or_eq_true_iff.2 (h.imp (sgn_eq_true_iff a).2 (sgn_eq_true_iff b).2)

/-- OR of non-negative operands writes the OR of the magnitudes (42_bitwise_shift.md R120, R122). -/
theorem exec_or_of_nonneg {s : State} {rs1 rs2 : Reg} (ha : 0 ≤ s.reg rs1) (hb : 0 ≤ s.reg rs2) (rd : Reg) :
    exec (.or rd rs1 rs2) s = .next (s.finishReg rd ((mag (s.reg rs1) ||| mag (s.reg rs2) : Nat) : Int) false) := by
  simp only [exec, execOr, sgn_or_sgn_eq_false ha hb, Bool.false_eq_true, if_false, norm_false]

/-- XOR of non-negative operands writes the XOR of the magnitudes (42_bitwise_shift.md R121, R122). -/
theorem exec_xor_of_nonneg {s : State} {rs1 rs2 : Reg} (ha : 0 ≤ s.reg rs1) (hb : 0 ≤ s.reg rs2) (rd : Reg) :
    exec (.xor rd rs1 rs2) s = .next (s.finishReg rd ((mag (s.reg rs1) ^^^ mag (s.reg rs2) : Nat) : Int) false) := by
  simp only [exec, execXor, sgn_or_sgn_eq_false ha hb, Bool.false_eq_true, if_false, norm_false]

/-- Settles O25, by the bits of an OR and a XOR of magnitudes. -/
theorem orAndXorActBitByBit : Obligations.OrAndXorActBitByBit := fun rd _ _ s =>
  ⟨hasEncoding_of_row (name := "OR") (by decide) rfl, hasEncoding_of_row (name := "XOR") (by decide) rfl, fun ha hb =>
    ⟨⟨_, _, exec_or_of_nonneg ha hb rd, finishReg_writesReg s rd _ false, Nat.testBit_or _ _⟩,
      ⟨_, _, exec_xor_of_nonneg ha hb rd, finishReg_writesReg s rd _ false, Nat.testBit_xor _ _⟩⟩⟩

/-- Settles O26, with the open function cut to L limbs (log 9). -/
theorem orAndXorOfANegativeAreOpen : Obligations.OrAndXorOfANegativeAreOpen := by
  refine ⟨bitopNegValue, fun rd rs1 rs2 s hL hneg => ?_⟩
  have hsgn := sgn_or_sgn_eq_true hneg
  refine ⟨⟨limbs_bitopNegValue hL _ _ _, s.finishReg rd _ true, ?_, finishReg_writesReg s rd _ true⟩,
    ⟨limbs_bitopNegValue hL _ _ _, s.finishReg rd _ true, ?_, finishReg_writesReg s rd _ true⟩⟩
  · simp only [exec, execOr, hsgn, if_true]
  · simp only [exec, execXor, hsgn, if_true]

/-- The block's bit length of a nonzero value is the one of the rules (42_bitwise_shift.md R126). -/
theorem bitLength_isBitLength (cfg : Config) {x : Int} (h : x ≠ 0) : IsBitLength x.natAbs (bitLength cfg x) := by
  have hm : mag x ≠ 0 := mt (mag_eq_zero_iff x).1 h
  rw [bitLength, if_neg h]
  exact ⟨bitlen_pos hm, two_pow_bitlen_le hm, lt_two_pow_bitlen _⟩

/-- A value that fits L limbs has at most 32·L bits (42_bitwise_shift.md R126). -/
theorem bitLength_le {s : State} (hlegal : s.cfg.Legal) {x : Int} (hx : Fits s x) :
    bitLength s.cfg x ≤ 32 * s.cfg.maxLimbs := by
  have hL := hlegal.1
  unfold bitLength
  split
  · omega
  · exact (bitlen_le_iff _ _).2 ((fits_iff_mag hlegal x).1 hx)

/-- Settles O29, by the bit length the block gives. -/
theorem bitlenIsTheHighestSetBit : Obligations.BitlenIsTheHighestSetBit := fun _ s hlegal hfits =>
  ⟨hasEncoding_of_row (name := "BITLEN") (by decide) rfl, _, _, rfl, finishRes_writesRes s _,
    bitLength_le hlegal hfits, fun h0 => if_pos h0, bitLength_isBitLength s.cfg⟩

/-! ## Comparison (43_compare.md R140, R141) -/

/-- Settles O32: CMP writes its order to RES and the flags, and the order is -1, 0 or 1 as the operands stand. -/
theorem cmpReportsTheOrder : Obligations.CmpReportsTheOrder := by
  intro rs1 rs2 s
  refine ⟨hasEncoding_of_row (name := "CMP") (by decide) rfl, _, rfl, ⟨rfl, rfl, rfl, rfl, rfl, rfl⟩, fun _ => rfl, rfl,
    fun _ => rfl, ⟨rfl, rfl, rfl, rfl, rfl, rfl, rfl, rfl, rfl, rfl⟩, fun hlt => ?_, fun heq => ?_, fun hgt => ?_⟩
  · rw [order_of_less hlt]; exact ⟨rfl, rfl, rfl, rfl⟩
  · rw [heq, order_self]; exact ⟨rfl, rfl, rfl, rfl⟩
  · rw [order_of_greater hgt]; exact ⟨rfl, rfl, rfl, rfl⟩

/-! ## EXPMOD and POW at the issue (44_expmod_pow.md R145 to R150) -/

theorem expmodLoop_at_issue {s : State} (h : AtIssue s) (rs1 rs2 : Reg) :
    s.expmodLoop rs1 rs2 = (1, s.reg rs1, (s.reg rs2).toNat) := by
  unfold State.expmodLoop; rw [h]

theorem powLoopState_at_issue {s : State} (h : AtIssue s) (rs1 rs2 : Reg) :
    s.powLoopState rs1 rs2 = (1, s.reg rs1, (s.reg rs2).toNat) := by
  unfold State.powLoopState; rw [h]

/-- A power is negative exactly for a negative base and an odd exponent. -/
theorem sgn_pow (b : Int) (e : Nat) : sgn (b ^ e) = decide (b < 0 ∧ e % 2 = 1) := by
  rw [sgn, decide_eq_decide]
  rcases Nat.even_or_odd e with he | he
  · exact iff_of_false (he.pow_nonneg b).not_gt fun h => by have := Nat.even_iff.1 he; omega
  · rw [he.pow_neg_iff, and_iff_left (Nat.odd_iff.1 he)]

/-- The remainder of a power, as a sign and a magnitude (44_expmod_pow.md R147). -/
theorem modOp_pow (b m : Int) (e : Nat) :
    modOp (b ^ e) m = norm (decide (b < 0 ∧ e % 2 = 1)) (b.natAbs ^ e % m.natAbs) := by
  rw [modOp, sgn_pow, mag, mag, Int.natAbs_pow]

/-- At the issue an exponent of at most 0 gives EXPMOD the value 1, whatever the modulus (44_expmod_pow.md R147). -/
theorem exec_expmod_of_nonpos {s : State} (hs : AtIssue s) {rs2 : Reg} (he : s.reg rs2 ≤ 0) (rd rs1 rs3 : Reg) :
    exec (.expmod rd rs1 rs2 rs3) s = .next (s.finishReg rd 1 false) := by
  simp only [exec, execExpmod, expmodLoop_at_issue hs, Int.toNat_of_nonpos he, expModLoop_zero, ne_eq,
    not_true_eq_false, false_and, if_false]

/-- At the issue a positive exponent and a zero modulus end EXPMOD (44_expmod_pow.md R146). -/
theorem exec_expmod_of_zero_modulus {s : State} (hs : AtIssue s) {rs2 rs3 : Reg} (he : 0 < s.reg rs2)
    (hm : s.reg rs3 = 0) (rd rs1 : Reg) :
    exec (.expmod rd rs1 rs2 rs3) s = .next (s.fail .divisionByZero) := by
  have he' : (s.reg rs2).toNat ≠ 0 := by omega
  simp only [exec, execExpmod, expmodLoop_at_issue hs]
  exact if_pos ⟨he', hm⟩

/-- At the issue a positive exponent and a nonzero modulus give EXPMOD the remainder of the power
(44_expmod_pow.md R147). -/
theorem exec_expmod_of_pos {s : State} (hs : AtIssue s) {rs2 rs3 : Reg} (he : 0 < s.reg rs2) (hm : s.reg rs3 ≠ 0)
    (rd rs1 : Reg) :
    exec (.expmod rd rs1 rs2 rs3) s =
      .next (s.finishReg rd (modOp (s.reg rs1 ^ (s.reg rs2).toNat) (s.reg rs3)) false) := by
  simp only [exec, execExpmod, expmodLoop_at_issue hs]
  rw [if_neg fun h => hm h.2, expModLoop_closed _ _ _ _ _ le_rfl (by omega), one_mul]

/-- Settles O33, by EXPMOD's three outcomes at the issue. -/
theorem expmodIsTheModularPower : Obligations.ExpmodIsTheModularPower := by
  intro rd rs1 rs2 rs3 s hs
  refine ⟨hasEncoding_of_row (name := "EXPMOD") (by decide) rfl, fun he => ?_, fun he hm => ?_, fun he hm => ?_⟩
  · exact ⟨_, exec_expmod_of_nonpos hs he rd rs1 rs3, finishReg_writesReg s rd 1 false⟩
  · exact ⟨_, exec_expmod_of_zero_modulus hs he hm rd rs1, fail_fails s .divisionByZero⟩
  · rw [← modOp_pow]
    exact ⟨_, exec_expmod_of_pos hs he hm rd rs1, finishReg_writesReg s rd _ false⟩

/-- Settles O34, by POW's closed form from the place of its loop at the issue. -/
theorem powIsTheIntegerPower : Obligations.PowIsTheIntegerPower := by
  intro rd rs1 rs2 s hs hL
  have hexec : exec (.pow rd rs1 rs2) s = .next (s.finishCapacity rd (s.reg rs1 ^ (s.reg rs2).toNat) false) := by
    show execPow rd rs1 rs2 s = _
    rw [execPow_closed hL, powLoopState_at_issue hs, one_mul]
  exact ⟨hasEncoding_of_row (name := "POW") (by decide) rfl, _, hexec, finishCapacity_writesOrCapacity s rd _⟩

/-! ## DIGEST (46_digest.md R173 to R184) -/

/-- DIGEST ends with the first error its checks meet. -/
theorem exec_digest_of_error {s : State} {rs1 : Reg} {e : ErrCode} (h : s.digestError rs1 = some e) (rd : Reg) :
    exec (.digest rd rs1) s = .next (s.fail e) := by
  simp only [exec, execDigest, h]

/-- DIGEST without an error runs its rounds from where they stand. -/
theorem exec_digest_of_ok {s : State} {rs1 : Reg} (h : s.digestError rs1 = none) (rd : Reg) :
    exec (.digest rd rs1) s =
      .next (s.finishReg rd
        (digestFrom s.dctx.n (bitLength s.cfg (s.reg rs1)) (mag (s.reg rs1)) s.digestLoop.1 s.digestLoop.2 : Nat)
        false) := by
  simp only [exec, execDigest, h]

/-- With a modulus and a non-negative message, DIGEST's one check is that of the length (46_digest.md R176). -/
theorem digestError_of_nonneg {s : State} (hv : s.dctx.valid = true) {rs1 : Reg} (hx : 0 ≤ s.reg rs1) :
    s.digestError rs1 =
      if bitLength s.cfg (s.reg rs1) > 2 ^ (digestHalf s.dctx.n - 1) then some .messageTooLong else none := by
  rw [State.digestError, if_neg (by simp [hv]), if_neg (Bool.eq_false_iff.1 ((sgn_eq_false_iff _).2 hx))]

/-- The magnitude of a non-negative value. -/
theorem mag_eq_toNat {x : Int} (h : 0 ≤ x) : mag x = x.toNat := by unfold mag; omega

/-- The block size of a modulus of m bits (46_digest.md R174). -/
theorem digestBlock_of_isBitLength {modulus : Int} (h : 0 ≤ modulus) {m : Nat} (hm : IsBitLength modulus.toNat m) :
    digestBlock modulus = 16 * (m / 16) := by
  rw [digestBlock, mag_eq_toNat h, bitlen_of_isBitLength hm]

/-- The block's bit length of a positive message is the one of the rules. -/
theorem bitLength_of_isBitLength (cfg : Config) {x : Int} (h : 0 < x) {b : Nat} (hb : IsBitLength x.toNat b) :
    bitLength cfg x = b := by
  rw [bitLength, if_neg h.ne', mag_eq_toNat h.le, bitlen_of_isBitLength hb]

/-- Settles O41, by the order of DIGEST's checks. -/
theorem digestChecksInOrder : Obligations.DigestChecksInOrder := by
  intro rd rs1 s
  refine ⟨hasEncoding_of_row (name := "DIGEST") (by decide) rfl, fun hv => ?_, fun hv hx => ?_,
    fun m b hv hx hn hm hb hlong => ?_⟩
  · have herr : s.digestError rs1 = some .digestNotConfigured := if_pos hv
    exact ⟨_, exec_digest_of_error herr rd, fail_fails s _⟩
  · have herr : s.digestError rs1 = some .badOperand := by
      rw [State.digestError, if_neg (by simp [hv]), if_pos ((sgn_eq_true_iff _).2 hx)]
    exact ⟨_, exec_digest_of_error herr rd, fail_fails s _⟩
  · have hhalf : digestHalf s.dctx.n = 8 * (m / 16) := by
      rw [digestHalf, digestBlock_of_isBitLength hn.le hm]; omega
    have herr : s.digestError rs1 = some .messageTooLong := by
      rw [digestError_of_nonneg hv hx.le, bitLength_of_isBitLength _ hx hb, hhalf, if_pos hlong]
    exact ⟨_, exec_digest_of_error herr rd, fail_fails s _⟩

theorem digestLoop_at_issue {s : State} (h : AtIssue s) : s.digestLoop = (0, 0) := by
  unfold State.digestLoop; rw [h]

/-- The digest of a message from the start is the last accumulator of the rules' recurrence (46_digest.md R173 to
R184). -/
theorem digestFrom_start {modulus : Int} (hN : 0 < modulus) (b m : Nat) :
    ∃ H : Nat → Nat, H 0 = 0 ∧
      (∀ i, i < chunkCount (digestHalf modulus) b → H (i + 1) =
        RoundValue modulus.toNat (digestBlock modulus) (H i)
          (ExpandValue (digestHalf modulus) (messageChunk (digestHalf modulus) b m (i + 1)) 15)) ∧
      digestFrom modulus b m 0 0 =
        RoundValue modulus.toNat (digestBlock modulus) (H (chunkCount (digestHalf modulus) b))
          (ExpandValue (digestHalf modulus) b 10) := by
  obtain ⟨H, h0, hstep, hlast⟩ := digestRounds_recurrence modulus b m (chunkCount (digestHalf modulus) b) 0 0
  refine ⟨H, h0, fun i hi => ?_, ?_⟩
  · rw [hstep i hi, digestRound_closed hN, expandNibbles_eq, Nat.zero_add]
  · rw [digestFrom, Nat.sub_zero, hlast, digestFinal, digestRound_closed hN, expandNibbles_eq]

/-- Settles O42, by DIGEST's rounds from the issue and their bound. -/
theorem digestFollowsTheRounds : Obligations.DigestFollowsTheRounds := by
  intro rd rs1 s m n h b k c hs hv hN hx hm hn hh hb hlen hk hc
  have hN0 : 0 < s.dctx.n := by linarith
  rw [← digestBlock_of_isBitLength hN0.le hm] at hn
  have hbits : bitLength s.cfg (s.reg rs1) = b := by
    rcases hb with ⟨h0, hb⟩ | hb
    · rw [bitLength, if_pos h0, hb]
    · refine bitLength_of_isBitLength _ ?_ hb
      have := lt_of_lt_of_le (Nat.two_pow_pos _) hb.2.1
      omega
  have hok : s.digestError rs1 = none := by
    rw [digestError_of_nonneg hv hx, hbits, if_neg]
    rw [hh, hn] at hlen
    exact not_lt.2 hlen
  subst hn hh hk hc
  obtain ⟨H, h0, hstep, hlast⟩ := digestFrom_start hN0 b (s.reg rs1).toNat
  have hexec := exec_digest_of_ok hok rd
  rw [digestLoop_at_issue hs, hbits, mag_eq_toNat hx, hlast] at hexec
  have hlt := digestFrom_lt s.dctx.n b (s.reg rs1).toNat 0 (Nat.two_pow_pos (digestBlock s.dctx.n))
  rw [hlast] at hlt
  exact ⟨H, h0, hstep, hlt, _, hexec, finishReg_writesReg s rd _ false⟩

end Sys2Proof.Machine
